-- ==== Sys2Proof/Word.lean ====
section
/-! DEFINITION. The word types of the block: what the spec treats as bits (00_scope.md section 5).
Counters whose width is a parameter, slot indices and tick counts are plain natural numbers. -/

namespace Sys2Proof

/-- A host command word or an event word (30_encoding.md R70, R73). -/
abbrev Word := BitVec 32

/-- A response, or the operand field `W[15:0]` (30_encoding.md R70, R76). -/
abbrev Half := BitVec 16

/-- A byte: a shift register, a buffer slot, an opcode (10_state.md R32, R38, R41). -/
abbrev Byte := BitVec 8

/-- A bit counter, 4 bits wide (10_state.md R33, R39). -/
abbrev Nibble := BitVec 4

/-- The level of a line or pin: 1 = high (mark), 0 = low (space) (10_state.md R35, R37). -/
abbrev Bit := BitVec 1

end Sys2Proof
end

