-- ==== Sys2Proof/Config.lean ====
section
/-! DEFINITION. What one implementation fixes (00_scope.md section 4), as plain data, and the free values:
opaque constants that nothing can evaluate, so that a statement about one holds for every value it may have. -/

namespace Sys2Proof

/-- The receive-buffer mode, 00_scope.md R5. -/
inductive RxMode where
  | unbuffered
  | buffered
  deriving DecidableEq, Repr

/-- How milliseconds become counter ticks, 00_scope.md R7: the parameter `ms_to_ticks` itself, of which the spec
states nothing, or the one instance it suggests. -/
inductive MsConversion where
  /-- Any total function: the opaque `Config.msToTicks`. -/
  | unstated
  /-- `(ms * F_CLK) div (PRESCALE * 1000)`. -/
  | suggested (fClk prescale : Nat)
  deriving DecidableEq, Repr

/-- The parameters of one block, fixed for its lifetime (00_scope.md R3 to R10, R12). -/
structure Params where
  /-- `P`, counter ticks per bit period, R3. -/
  bitPeriod : Nat
  /-- `RX_MODE`, R5. -/
  rxMode : RxMode
  /-- `N`, byte slots of the circular buffer, R6; not used in `unbuffered` mode. -/
  rxBufSlots : Nat
  /-- `ms_to_ticks`, R7. -/
  msToTicks : MsConversion
  /-- `DELAY_WIDTH`, R8. -/
  delayWidth : Nat
  /-- `TIMER_WIDTH`, R9. -/
  timerWidth : Nat
  /-- `LOOPBACK`, R10. -/
  loopback : Bool
  deriving DecidableEq, Repr

/-- `H`, half-bit ticks: `P div 2`, rounded toward zero (00_scope.md R4). -/
def Params.halfBit (c : Params) : Nat := c.bitPeriod / 2

/-- `C = N - 1`, the bytes the circular buffer can hold at once (00_scope.md R6). -/
def Params.capacity (c : Params) : Nat := c.rxBufSlots - 1

/-- The parameters that `State.reset` shows. DESIGN CHOICE (notes/assumptions/1.md): the spec leaves every
parameter open but the default width 16 of `delay`; no statement rests on the values chosen here. -/
def Params.shown : Params where
  bitPeriod := 4
  rxMode := .buffered
  rxBufSlots := 4
  msToTicks := .unstated
  delayWidth := 16
  timerWidth := 8
  loopback := false

/-- Which of HOST and TIMER takes the next step where both may (40_timer.md R111). -/
inductive Turn where
  | host
  | timer
  deriving DecidableEq, Repr, Inhabited

/-- `ms_to_ticks` where the spec states nothing of it (00_scope.md R7). -/
opaque Config.msToTicks : Nat → Nat

/-- The free value behind `draw({0 .. n-1})` (00_scope.md section 5), by draw number. -/
opaque Config.freeNat : Nat → Nat

/-- The receive line when LOOPBACK is false (40_timer.md R110), by draw number. -/
opaque Config.freeLine : Nat → Bit

/-- The choice between HOST and TIMER (40_timer.md R111), by draw number. -/
opaque Config.freeTurn : Nat → Turn

/-- The contents of a buffer slot that nothing has written (10_state.md R41), by slot index. -/
opaque Config.freeSlot : Nat → Byte

/-- AVAILABLE's 16-bit response where the count does not fit 16 bits (30_encoding.md R76), by count. -/
opaque Config.wideCount : Nat → Half

end Sys2Proof
end

