-- ==== Sys2Proof/Machine/State.lean ====
section
/-! DEFINITION. The state of the block (10_state.md R20 to R45), the faults and refusals, and the power-up state.
Plain data throughout. -/

namespace Sys2Proof.Machine

/-- The transmit states, 10_state.md R30, in the spec's order. -/
inductive TxState where
  | idle
  | startBit
  | dataBits
  | stopBit
  | returnIdle
  | timedDelay
  deriving DecidableEq, Repr

/-- The receive states, 10_state.md R36, in the spec's order. -/
inductive RxState where
  | waitStart
  | startBit
  | dataBits
  | waitStopHigh
  deriving DecidableEq, Repr

/-- `host_wait`, 10_state.md R42: whether the host is inside a DELAY. -/
inductive HostWait where
  | none
  | delayWait
  deriving DecidableEq, Repr

/-- Which DataBits handler found its bit counter 0 (60_exceptions.md R210, code 5). -/
inductive UnreachableCase where
  | txDataBitsZero
  | rxDataBitsZero
  deriving DecidableEq, Repr

/-- The five model faults of 60_exceptions.md R210 with what each records; `raise` writes one into the register
`fault`. Safe: the spec gives the machine no step after one (R211). -/
inductive FaultKind where
  /-- Code 1, raised when the host's word is illegal (30_encoding.md R74). -/
  | illegalCommand (w : Word)
  /-- Code 2, raised by every host command but INIT before INIT (30_encoding.md R74). -/
  | notInitialized (op : Byte)
  /-- Code 3, raised by INIT after INIT (30_encoding.md R74). -/
  | reInit
  /-- Code 4, raised by ALARM and DELAY when the whole-period count does not fit `delay` (41_transmit.md R130). -/
  | alarmOverflow (whole : Nat)
  /-- Code 5, raised by TXCMP and RXCMP in DataBits with a bit counter of 0 (41_transmit.md R124, 42_receive.md R154). -/
  | unreachable (c : UnreachableCase)
  deriving DecidableEq, Repr

/-- Why the machine stops. -/
inductive Fault where
  /-- Answered by `step` in every state whose register `fault` holds a fault: no agent has a step there
  (60_exceptions.md R211). Safe. -/
  | recorded (k : FaultKind)
  /-- Answered by RXCMP's commit and by RECV in Buffered mode when the index is not in `0 .. N-1`: the slot does not
  exist (20_memory.md R50). Safe: no run reaches it, and the spec gives no effect there. -/
  | noSuchSlot (index : Nat)
  deriving DecidableEq, Repr

/-- Why the machine refuses to run. -/
inductive Refusal where
  /-- An instruction that has no meaning yet. Safe. No arm of `exec` answers it. -/
  | notModelled (mnemonic : String)
  /-- Answered by `step` when the parameters form no valid configuration (00_scope.md R11). Safe: the spec has the
  model refuse before any step. -/
  | invalidConfiguration
  deriving DecidableEq, Repr

/-- The receive buffer's slots: (slot index, byte), indices strictly rising; an unlisted slot holds no known value. -/
abbrev Memory := List Host.Cell

/-- The architectural state: 10_state.md R22 to R45, the parameters, and the model's own fields. -/
structure State where
  /-- The parameters of this block, fixed for its lifetime (00_scope.md R12). -/
  cfg : Params
  /-- The free-running counter, R22. -/
  tcnt : Nat
  /-- The timer's period register, R23. -/
  period : Nat
  /-- The TX compare register, R24. -/
  ocrTx : Nat
  /-- The RX compare register, R25. -/
  ocrRx : Nat
  /-- The TX compare interrupt enable, R26. -/
  txIe : Bool
  /-- The RX compare interrupt enable, R27. -/
  rxIe : Bool
  /-- The start-edge interrupt enable, R28. -/
  edgeIe : Bool
  /-- TX compare pending, R29. -/
  txPend : Bool
  /-- RX compare pending, R29. -/
  rxPend : Bool
  /-- Start edge pending, R29. -/
  edgePend : Bool
  /-- The transmit state, R30. -/
  txState : TxState
  /-- "true iff transmit engine is idle and may accept a new byte or alarm", R31. -/
  sendReady : Bool
  /-- The byte being transmitted, R32. -/
  sendByte : Byte
  /-- Data bits left to send, R33. -/
  sendBits : Nibble
  /-- Bit times left of a timed alarm, R34. -/
  delay : Nat
  /-- The TX output pin, R35. -/
  txd : Bit
  /-- The receive state, R36. -/
  rxState : RxState
  /-- The receive line at the latest TICK, R37. -/
  rxCur : Bit
  /-- The receive line at the TICK before it, R37. -/
  rxPrev : Bit
  /-- The byte being assembled, R38. -/
  recvShift : Byte
  /-- Data bits left to sample, R39. -/
  recvBits : Nibble
  /-- Unbuffered: a byte waits in `recvByte`, R40. -/
  available : Bool
  /-- Unbuffered: the single slot, R40. -/
  recvByte : Byte
  /-- Buffered: the slots, R41. -/
  rxBuf : Memory
  /-- Buffered: where the commit writes, R41. -/
  rxHead : Nat
  /-- Buffered: where RECV reads, R41. -/
  rxTail : Nat
  /-- Whether the host is inside a DELAY, R42. -/
  hostWait : HostWait
  /-- Whether INIT has run, R43. -/
  initialized : Bool
  /-- The fault record, R44. -/
  fault : Option FaultKind
  /-- The ghost tick count, R45. -/
  t : Nat
  /-- The model's own: what the last host word returned (`respond`, 30_encoding.md R76); none for a word that returns no
  value or raises a fault. -/
  response : Option Half
  /-- The model's own: the host words not yet taken, oldest first (60_exceptions.md R220). -/
  host : List Word
  /-- The model's own: line values of the coming TICKs; free values follow them (40_timer.md R110). -/
  lines : List Bit
  /-- The model's own: who goes first where HOST and TIMER both may; free values follow (40_timer.md R111). -/
  turns : List Turn
  /-- The model's own: how many free values have been drawn. -/
  draws : Nat
  deriving DecidableEq, Repr

/-- The power-up state of a block with the parameters `c` (70_reset_and_hazards.md R230). Where the rule says
"unspecified" the value is 0, or the value the encoding gives 0 (DESIGN CHOICE, notes/assumptions/4.md), and the pin
is high (DESIGN CHOICE, notes/assumptions/5.md). Nothing has been given to the host, the line or the schedule. -/
def State.powerUp (c : Params) : State where
  cfg := c
  tcnt := 0
  period := 0
  ocrTx := 0
  ocrRx := 0
  txIe := false
  rxIe := false
  edgeIe := false
  txPend := false
  rxPend := false
  edgePend := false
  txState := .idle
  sendReady := false
  sendByte := 0#8
  sendBits := 0#4
  delay := 0
  txd := 1#1
  rxState := .waitStart
  rxCur := 1#1
  rxPrev := 1#1
  recvShift := 0#8
  recvBits := 0#4
  available := false
  recvByte := 0#8
  rxBuf := []
  rxHead := 0
  rxTail := 0
  hostWait := .none
  initialized := false
  fault := none
  t := 0
  response := none
  host := []
  lines := []
  turns := []
  draws := 0

/-- The block at power-up, before INIT (70_reset_and_hazards.md R230). -/
def State.reset : State := State.powerUp Params.shown

end Sys2Proof.Machine
end

