-- ==== Sys2Proof/Syntax.lean ====
section
/-! DEFINITION. The instructions: the seven host commands and the four event words of spec/opcode_table.json
(30_encoding.md R71, R73), and the assembly commands of 30_encoding.md R78. -/

namespace Sys2Proof

/-- One constructor per row of spec/opcode_table.json. Operands have the widths of 30_encoding.md R72 and R73. -/
inductive Instr where
  /-- `init()`, 70_reset_and_hazards.md R231. -/
  | init
  /-- `available()`, 42_receive.md R163. -/
  | available
  /-- `send_ready()`, 41_transmit.md R129. -/
  | sendReady
  /-- `send(byte)`, 41_transmit.md R128. -/
  | send (b : Byte)
  /-- `recv()`, 42_receive.md R164. -/
  | recv
  /-- `alarm(duration_ms)`, 41_transmit.md R130. -/
  | alarm (durationMs : Half)
  /-- `delay(duration_ms)`, 41_transmit.md R131. -/
  | delay (durationMs : Half)
  /-- One counter tick with the receive line's value, 40_timer.md R103. -/
  | tick (line : Bit)
  /-- The start-edge handler's run, 42_receive.md R150. -/
  | edge
  /-- The RX compare handler's run, 42_receive.md R152. -/
  | rxcmp
  /-- The TX compare handler's run, 41_transmit.md R121. -/
  | txcmp
  deriving DecidableEq, Repr

/-- The opcode byte `W[31:24]` of each instruction (30_encoding.md R71, R73). -/
def Instr.opcode : Instr → Byte
  | .init => 0x01#8
  | .available => 0x02#8
  | .sendReady => 0x03#8
  | .send _ => 0x04#8
  | .recv => 0x05#8
  | .alarm _ => 0x06#8
  | .delay _ => 0x07#8
  | .tick _ => 0xF0#8
  | .edge => 0xF1#8
  | .rxcmp => 0xF2#8
  | .txcmp => 0xF3#8

/-- The operand field `W[15:0]` of each instruction (30_encoding.md R72, R73). -/
def Instr.operand : Instr → Half
  | .send b => b.setWidth 16
  | .alarm ms => ms
  | .delay ms => ms
  | .tick line => line.setWidth 16
  | .init | .available | .sendReady | .recv | .edge | .rxcmp | .txcmp => 0#16

/-- A host command (30_encoding.md R71), as against an event word (R73). -/
def Instr.isHostCommand : Instr → Bool
  | .init | .available | .sendReady | .send _ | .recv | .alarm _ | .delay _ => true
  | .tick _ | .edge | .rxcmp | .txcmp => false

/-- A command as an assembly line writes it (30_encoding.md R78): its operand is any number, in range or not. -/
inductive Source where
  | init
  | available
  | sendReady
  | send (byte : Nat)
  | recv
  | alarm (ms : Nat)
  | delay (ms : Nat)
  deriving DecidableEq, Repr

end Sys2Proof
end

