-- ==== Sys2Proof/Machine/Ops.lean ====
section
/-! DEFINITION. The named operations the meanings are built from: the receive buffer's memory, free values, raising a
fault, responding and holding, and the interrupt sources with their enables, pending flags and dispatch. -/

namespace Sys2Proof.Machine

/-- What a meaning answers. -/
abbrev Answer := Host.Outcome State Fault Refusal

/-- Run `k` on the next state of `a`; a fault or a refusal stays. -/
def andThen (a : Answer) (k : State → Answer) : Answer :=
  match a with
  | .next s => k s
  | .fault f => .fault f
  | .refused r => .refused r

/-! Memory -/

/-- The byte listed for slot `a`; nothing where the slot is not listed (nothing has written it). -/
def Memory.read (m : Memory) (a : Nat) : Option Byte :=
  match m with
  | [] => none
  | (b, v) :: rest => if a = b then some v else Memory.read rest a

/-- Write `v` at slot `a`, keeping the indices strictly rising. -/
def Memory.write (m : Memory) (a : Nat) (v : Byte) : Memory :=
  match m with
  | [] => [(a, v)]
  | (b, w) :: rest =>
    if a < b then (a, v) :: (b, w) :: rest
    else if a = b then (a, v) :: rest
    else (b, w) :: Memory.write rest a v

/-- Every listed index is greater than `a`. -/
def Memory.above (a : Nat) (m : Memory) : Bool := m.all (fun c => decide (a < c.1))

/-- The canonical form: indices strictly rising. -/
def Memory.wf (m : Memory) : Bool :=
  match m with
  | [] => true
  | (a, _) :: rest => Memory.above a rest && Memory.wf rest

/-- `MemRead(i, 1)`, 20_memory.md R50; a slot that nothing has written holds any value (93_implementation_defined.md
item 3). -/
def State.memRead (s : State) (i : Nat) : Byte := (s.rxBuf.read i).getD (Config.freeSlot i)

/-- `MemWrite(i, 1, v)`, 20_memory.md R50. -/
def State.memWrite (s : State) (i : Nat) (v : Byte) : State := { s with rxBuf := s.rxBuf.write i v }

/-- Go on only where the slot exists: the address space is `0 .. N-1` (20_memory.md R50). -/
def atSlot (i : Nat) (s : State) (k : Answer) : Answer :=
  if i < s.cfg.rxBufSlots then k else .fault (.noSuchSlot i)

/-! Free values -/

/-- The `k`-th `draw({0 .. n-1})` of a step (00_scope.md section 5): a free value below `n`. The step counts its draws
in `draws`. -/
def State.draw (s : State) (k n : Nat) : Nat := Config.freeNat (s.draws + k) % n

/-! Faults, responses, holds -/

/-- `raise Fault(k)` (00_scope.md section 5, 60_exceptions.md R211): the fault is recorded and the step ends. -/
def raise (k : FaultKind) (s : State) : Answer := .next { s with fault := some k }

/-- The code of each fault (60_exceptions.md R210). -/
def FaultKind.code : FaultKind → Nat
  | .illegalCommand _ => 1
  | .notInitialized _ => 2
  | .reInit => 3
  | .alarmOverflow _ => 4
  | .unreachable _ => 5

/-- `respond(v)` (00_scope.md section 5). -/
def State.respond (v : Half) (s : State) : State := { s with response := some v }

/-- The end of a host command that returns no value (30_encoding.md R76). -/
def State.respondNothing (s : State) : State := { s with response := none }

/-- `raise Fault(k)` in a host command (30_encoding.md R74, 41_transmit.md R130): the fault is recorded, and the command
returns no value (30_encoding.md R76, notes/assumptions/15.md). -/
def raiseInCommand (k : FaultKind) (s : State) : Answer := raise k s.respondNothing

/-- `hold` (00_scope.md section 5): the command waits and has taken no effect (60_exceptions.md R204). -/
def hold (s : State) : Answer := .next s

/-- The fourth check of 30_encoding.md R74: every command but INIT needs INIT first. -/
def needsInit (i : Instr) (s : State) (k : Answer) : Answer :=
  if s.initialized then k else raiseInCommand (.notInitialized i.opcode) s

/-! Interrupts -/

/-- The three interrupt sources (60_exceptions.md R200). -/
inductive IrqSource where
  | edge
  | rx
  | tx
  deriving DecidableEq, Repr

/-- The source's pending flag (60_exceptions.md R200). -/
def State.pending (s : State) : IrqSource → Bool
  | .edge => s.edgePend
  | .rx => s.rxPend
  | .tx => s.txPend

/-- The source's enable (60_exceptions.md R200). -/
def State.enabled (s : State) : IrqSource → Bool
  | .edge => s.edgeIe
  | .rx => s.rxIe
  | .tx => s.txIe

/-- Clear the source's pending flag. -/
def State.clearPending (s : State) : IrqSource → State
  | .edge => { s with edgePend := false }
  | .rx => { s with rxPend := false }
  | .tx => { s with txPend := false }

/-- Make the source pending; only TICK does (60_exceptions.md R201). -/
def State.setPending (s : State) : IrqSource → State
  | .edge => { s with edgePend := true }
  | .rx => { s with rxPend := true }
  | .tx => { s with txPend := true }

/-- Write 1 to the source's enable; its pending flag is not set (60_exceptions.md R207). -/
def State.enable (s : State) : IrqSource → State
  | .edge => { s with edgeIe := true }
  | .rx => { s with rxIe := true }
  | .tx => { s with txIe := true }

/-- Write 0 to the source's enable; this also clears its pending flag (60_exceptions.md R207). -/
def State.disable (s : State) : IrqSource → State
  | .edge => { s with edgeIe := false, edgePend := false }
  | .rx => { s with rxIe := false, rxPend := false }
  | .tx => { s with txIe := false, txPend := false }

/-- The handler of each source, as its event word names it (60_exceptions.md R200). -/
def IrqSource.handler : IrqSource → Instr
  | .edge => .edge
  | .rx => .rxcmp
  | .tx => .txcmp

/-- The source DISPATCH takes: EDGE, then RXCMP, then TXCMP (60_exceptions.md R202, R203). -/
def State.nextIrq (s : State) : Option IrqSource :=
  if s.edgePend then some .edge
  else if s.rxPend then some .rx
  else if s.txPend then some .tx
  else none

/-- Interrupt entry: the source's pending flag is cleared and its handler runs; nothing is saved and nothing is
restored at its end (60_exceptions.md R202, R205, R206). -/
def enterHandler (src : IrqSource) (s : State) (body : State → Answer) : Answer := body (s.clearPending src)

end Sys2Proof.Machine
end

