-- ==== Sys2Proof/Machine/Operands.lean ====
section
/-! DEFINITION. Operand arithmetic: zero extension, durations in ticks, compare-register targets, slot indices
(00_scope.md section 5, 41_transmit.md R130, 42_receive.md R150, 20_memory.md R51, R52). -/

namespace Sys2Proof.Machine

/-- `zext_16` of a byte (30_encoding.md R76). -/
def zextByte (v : Byte) : Half := v.setWidth 16

/-- `zext_16` of a flag (30_encoding.md R76). -/
def zextFlag (b : Bool) : Half := if b then 1#16 else 0#16

/-- `zext_16` of a count; where it does not fit 16 bits the spec states no value (notes/assumptions/16.md). -/
def zextCount (n : Nat) : Half := if n < 65536 then BitVec.ofNat 16 n else Config.wideCount n

/-- `ms_to_ticks` (00_scope.md R7); a prescaler of 0, for which the suggested formula states no value, leaves it any
function (notes/assumptions/2.md). -/
def ticksOfMs (c : Params) (ms : Nat) : Nat :=
  match c.msToTicks with
  | .unstated => Config.msToTicks ms
  | .suggested fClk prescale => if prescale = 0 then Config.msToTicks ms else ms * fClk / (prescale * 1000)

/-- `D`, the duration operand in ticks (30_encoding.md R72, 41_transmit.md R130). -/
def alarmTicks (c : Params) (durationMs : Half) : Nat := ticksOfMs c durationMs.toNat

/-- `whole`, the whole bit periods of the duration (41_transmit.md R130). -/
def alarmWhole (c : Params) (durationMs : Half) : Nat := alarmTicks c durationMs / c.bitPeriod

/-- `rem`, the ticks left over (41_transmit.md R130). -/
def alarmRem (c : Params) (durationMs : Half) : Nat := alarmTicks c durationMs % c.bitPeriod

/-- The whole-period count does not fit `delay` (41_transmit.md R130). -/
def alarmOverflows (c : Params) (durationMs : Half) : Bool := decide (2 ^ c.delayWidth ≤ alarmWhole c durationMs)

/-- `(tcnt + k) mod P`, a compare value `k` ticks ahead (40_timer.md R106). -/
def State.ticksAhead (s : State) (k : Nat) : Nat := (s.tcnt + k) % s.cfg.bitPeriod

/-- `(k + 1) mod N`: advance a slot index with wraparound (20_memory.md R51). -/
def State.nextSlot (s : State) (k : Nat) : Nat := (k + 1) % s.cfg.rxBufSlots

/-- `count = (rx_head - rx_tail) mod N`, computed on integers (20_memory.md R52). -/
def State.queued (s : State) : Nat := (((s.rxHead : Int) - (s.rxTail : Int)) % (s.cfg.rxBufSlots : Int)).toNat

/-- Bit `i` of a byte, as a line level. -/
def bitAt (v : Byte) (i : Nat) : Bit := v.extractLsb' i 1

/-- `v >> 1` on a byte, a logical shift (00_scope.md section 5). -/
def shiftOut (v : Byte) : Byte := v >>> 1

/-- `s ++ v[7:1]`: the sample enters at bit 7 and the rest moves one place right (42_receive.md R154). -/
def shiftIn (sample : Bit) (v : Byte) : Byte := sample ++ v.extractLsb' 1 7

/-- The encoding of the transmit state where one is needed (10_state.md R30). -/
def TxState.code : TxState → BitVec 3
  | .idle => 0#3
  | .startBit => 1#3
  | .dataBits => 2#3
  | .stopBit => 3#3
  | .returnIdle => 4#3
  | .timedDelay => 5#3

/-- The encoding of the receive state where one is needed (10_state.md R36). -/
def RxState.code : RxState → BitVec 2
  | .waitStart => 0#2
  | .startBit => 1#2
  | .dataBits => 2#2
  | .waitStopHigh => 3#2

end Sys2Proof.Machine
end

