-- ==== Sys2Proof/Machine/Flags.lean ====
section
/-! DEFINITION. The block's two status flags, `send_ready` and `available` (10_state.md section 8), what AVAILABLE
reports in each mode, and the commands that wait on them. -/

namespace Sys2Proof.Machine

/-- The transmit engine becomes idle: `send_ready <- 1; tx_state <- Idle; tx_ie <- 0` (41_transmit.md R126, R127). -/
def State.freeSender (s : State) : State :=
  { (s.disable .tx) with sendReady := true, txState := .idle }

/-- A command takes the transmit engine: `send_ready <- 0`, the state, `tx_ie <- 1` (41_transmit.md R128, R130). -/
def State.takeSender (s : State) (st : TxState) : State :=
  { (s.enable .tx) with sendReady := false, txState := st }

/-- The bytes AVAILABLE reports: the flag in Unbuffered mode, the queued count in Buffered mode (42_receive.md R163). -/
def State.availableCount (s : State) : Nat :=
  match s.cfg.rxMode with
  | .unbuffered => if s.available then 1 else 0
  | .buffered => s.queued

/-- No byte waits: RECV holds (42_receive.md R164, 20_memory.md R52). -/
def State.receiveEmpty (s : State) : Bool :=
  match s.cfg.rxMode with
  | .unbuffered => !s.available
  | .buffered => decide (s.rxHead = s.rxTail)

/-- The command, legal and past its fault checks, has to wait (60_exceptions.md R204): SEND, ALARM and DELAY for
`send_ready`, RECV for a byte. AVAILABLE, SEND_READY and INIT never hold. -/
def State.holds (s : State) : Instr → Bool
  | .send _ => s.initialized && !s.sendReady
  | .alarm ms => s.initialized && !alarmOverflows s.cfg ms && !s.sendReady
  | .delay ms => s.initialized && !alarmOverflows s.cfg ms && !s.sendReady
  | .recv => s.initialized && s.receiveEmpty
  | .init | .available | .sendReady | .tick _ | .edge | .rxcmp | .txcmp => false

end Sys2Proof.Machine
end

