-- ==== Sys2Proof/Machine/Init.lean ====
section
/-! DEFINITION. INIT, the block's one reset (70_reset_and_hazards.md R231). -/

namespace Sys2Proof.Machine

/-- `period <- P` and the three draws (70_reset_and_hazards.md R231). -/
def State.programTimer (s : State) : State :=
  { s with
    period := s.cfg.bitPeriod, tcnt := s.draw 0 s.cfg.bitPeriod, ocrTx := s.draw 1 s.cfg.bitPeriod,
    ocrRx := s.draw 2 s.cfg.bitPeriod, draws := s.draws + 3 }

/-- The transmit registers after INIT (70_reset_and_hazards.md R231, 90_conflicts.md C1). -/
def State.setupTransmit (s : State) : State :=
  { (s.disable .tx) with
    sendReady := true, txState := .idle, sendByte := 0#8, sendBits := 0#4, delay := 0, txd := 1#1 }

/-- The receive registers after INIT; the start-edge interrupt is enabled (70_reset_and_hazards.md R231). -/
def State.setupReceive (s : State) : State :=
  { (((s.disable .rx).clearPending .edge).enable .edge) with
    rxState := .waitStart, recvShift := 0#8, recvBits := 0#4 }

/-- The receive buffer after INIT, by mode; the slots are not written (70_reset_and_hazards.md R231). -/
def State.setupBuffer (s : State) : State :=
  match s.cfg.rxMode with
  | .unbuffered => { s with available := false, recvByte := 0#8 }
  | .buffered => { s with rxHead := 0, rxTail := 0 }

/-- INIT's effect (70_reset_and_hazards.md R231). -/
def State.setup (s : State) : State :=
  { s.programTimer.setupTransmit.setupReceive.setupBuffer with hostWait := .none, initialized := true }

/-- INIT (70_reset_and_hazards.md R231); a second one raises ReInit (30_encoding.md R74). -/
def execInit (s : State) : Answer :=
  if s.initialized then raiseInCommand .reInit s else .next s.setup.respondNothing

end Sys2Proof.Machine
end

