-- ==== Sys2Proof/Machine/Receive.lean ====
section
/-! DEFINITION. The Receive Engine and the Receive Buffer (42_receive.md, 20_memory.md): the start-edge handler, the
RX compare handler, the commit, AVAILABLE and RECV. -/

namespace Sys2Proof.Machine

/-- The start-edge handler's body (42_receive.md R150). -/
def edgeHandler (s : State) : Answer :=
  .next ((({ s with ocrRx := s.ticksAhead s.cfg.halfBit }).disable .edge).enable .rx)

/-- EDGE, dispatched (42_receive.md R150, 60_exceptions.md R202). -/
def execEdge (s : State) : Answer := enterHandler .edge s edgeHandler

/-- `SlotPut(v)` (20_memory.md R55, 42_receive.md R161). -/
def State.slotPut (s : State) (v : Byte) : State := { s with recvByte := v, available := true }

/-- `SlotTake()` (20_memory.md R55): the byte, and the state with `available` cleared and `recv_byte` kept. -/
def State.slotTake (s : State) : Byte × State := (s.recvByte, { s with available := false })

/-- If the head has met the tail, drop the oldest byte (20_memory.md R53). -/
def State.dropOldest (s : State) : State :=
  if s.rxHead = s.rxTail then { s with rxTail := s.nextSlot s.rxTail } else s

/-- `BufPush(v)` (20_memory.md R53, 42_receive.md R162). -/
def State.bufPush (s : State) (v : Byte) : State :=
  State.dropOldest { (s.memWrite s.rxHead v) with rxHead := s.nextSlot s.rxHead }

/-- `BufPop()` (20_memory.md R54): the oldest byte, and the state with the tail advanced. -/
def State.bufPop (s : State) : Byte × State :=
  (s.memRead s.rxTail, { s with rxTail := s.nextSlot s.rxTail })

/-- `Commit(v)` by `RX_MODE` (42_receive.md R160). -/
def commit (v : Byte) (s : State) : Answer :=
  match s.cfg.rxMode with
  | .unbuffered => .next (s.slotPut v)
  | .buffered => atSlot s.rxHead s (.next (s.bufPush v))

/-- RXCMP in WaitStart or StartBit (42_receive.md R153). -/
def rxStart (s : State) : Answer := .next { s with rxState := .dataBits, recvBits := 8#4 }

/-- The shift and the count of one sampled bit (42_receive.md R154). -/
def State.shiftInBit (s : State) (sample : Bit) : State :=
  { s with recvShift := shiftIn sample s.recvShift, recvBits := s.recvBits - 1#4 }

/-- RXCMP in DataBits (42_receive.md R154). -/
def rxDataBits (sample : Bit) (s : State) : Answer :=
  if s.recvBits = 0#4 then raise (.unreachable .rxDataBitsZero) s
  else
    let s := s.shiftInBit sample
    .next (if s.recvBits = 0#4 then { s with rxState := .waitStopHigh } else s)

/-- The receiver awaits the next character: `rx_state <- WaitStart; rx_ie <- 0; edge_ie <- 1` (42_receive.md R155). -/
def State.awaitEdge (s : State) : State :=
  { ((s.disable .rx).enable .edge) with rxState := .waitStart }

/-- RXCMP in WaitStopHigh: commit on a high sample (42_receive.md R155), wait on a low one (R156). -/
def rxWaitStopHigh (sample : Bit) (s : State) : Answer :=
  if sample = 1#1 then andThen (commit s.recvShift s) (fun s => .next s.awaitEdge) else .next s

/-- The handler's rule for the current state and the sample taken on entry (42_receive.md R151, R152). -/
def rxHandler (s : State) : Answer :=
  match s.rxState with
  | .waitStart => rxStart s
  | .startBit => rxStart s
  | .dataBits => rxDataBits s.rxCur s
  | .waitStopHigh => rxWaitStopHigh s.rxCur s

/-- RXCMP, dispatched (42_receive.md R152, 60_exceptions.md R202). -/
def execRxcmp (s : State) : Answer := enterHandler .rx s rxHandler

/-- AVAILABLE (42_receive.md R163). -/
def execAvailable (s : State) : Answer :=
  needsInit .available s (.next (s.respond (zextCount s.availableCount)))

/-- Take the byte and return it (42_receive.md R164). -/
def respondByte (taken : Byte × State) : Answer := .next (taken.2.respond (zextByte taken.1))

/-- RECV on a buffer that is not empty, by mode (42_receive.md R164). -/
def takeByte (s : State) : Answer :=
  match s.cfg.rxMode with
  | .unbuffered => respondByte s.slotTake
  | .buffered => atSlot s.rxTail s (respondByte s.bufPop)

/-- RECV (42_receive.md R164). -/
def execRecv (s : State) : Answer :=
  needsInit .recv s (if s.receiveEmpty then hold s else takeByte s)

end Sys2Proof.Machine
end

