-- ==== Sys2Proof/Machine/Timer.lean ====
section
/-! DEFINITION. The timer compare scheduler and the edge detector: TICK (40_timer.md R103 to R109). -/

namespace Sys2Proof.Machine

/-- `t <- t + 1; rx_prev <- rx_cur; rx_cur <- line` (40_timer.md R103, R109). -/
def State.sampleLine (s : State) (line : Bit) : State :=
  { s with t := s.t + 1, rxPrev := s.rxCur, rxCur := line }

/-- `tcnt <- (tcnt + 1) mod period` (40_timer.md R102, R103). -/
def State.countUp (s : State) : State := { s with tcnt := (s.tcnt + 1) % s.period }

/-- The falling edge between the two samples (40_timer.md R108). -/
def State.fallingEdge (s : State) : Bool := decide (s.rxPrev = 1#1) && decide (s.rxCur = 0#1)

/-- An event of source `src` at this TICK: the edge, or the match of the channel's compare register with the
counter's new value (40_timer.md R105, R108). -/
def State.irqEvent (s : State) : IrqSource → Bool
  | .edge => s.fallingEdge
  | .rx => decide (s.tcnt = s.ocrRx)
  | .tx => decide (s.tcnt = s.ocrTx)

/-- The event makes an enabled source pending and is lost on a disabled one (40_timer.md R105, R108). -/
def State.latchIrq (s : State) (src : IrqSource) : State :=
  if s.enabled src && s.irqEvent src then s.setPending src else s

/-- The timer's part of TICK, after INIT (40_timer.md R103). -/
def State.runTimer (s : State) : State :=
  (((s.countUp).latchIrq .edge).latchIrq .rx).latchIrq .tx

/-- TICK (40_timer.md R103); before INIT only the samples and the ghost count move (R104). -/
def execTick (line : Bit) (s : State) : Answer :=
  .next (if s.initialized then (s.sampleLine line).runTimer else s.sampleLine line)

end Sys2Proof.Machine
end

