-- ==== Sys2Proof/Machine/Transmit.lean ====
section
/-! DEFINITION. The Transmit Engine (41_transmit.md): the TX compare handler, one definition per state, and SEND,
SEND_READY, ALARM, DELAY and DELAY's completion. -/

namespace Sys2Proof.Machine

/-- TXCMP in Idle: no state changes (41_transmit.md R122). -/
def txIdle (s : State) : Answer := .next s

/-- TXCMP in StartBit (41_transmit.md R123). -/
def txStartBit (s : State) : Answer := .next { s with txd := 0#1, sendBits := 8#4, txState := .dataBits }

/-- The pin, the shift and the count of one data bit (41_transmit.md R124). -/
def State.shiftOutBit (s : State) : State :=
  { s with txd := bitAt s.sendByte 0, sendByte := shiftOut s.sendByte, sendBits := s.sendBits - 1#4 }

/-- TXCMP in DataBits (41_transmit.md R124). -/
def txDataBits (s : State) : Answer :=
  if s.sendBits = 0#4 then raise (.unreachable .txDataBitsZero) s
  else
    let s := s.shiftOutBit
    .next (if s.sendBits = 0#4 then { s with txState := .stopBit } else s)

/-- TXCMP in StopBit (41_transmit.md R125). -/
def txStopBit (s : State) : Answer := .next { s with txd := 1#1, txState := .returnIdle }

/-- TXCMP in ReturnIdle (41_transmit.md R126). -/
def txReturnIdle (s : State) : Answer := .next s.freeSender

/-- TXCMP in TimedDelay: test, then decrement (41_transmit.md R127). -/
def txTimedDelay (s : State) : Answer :=
  if s.delay = 0 then .next s.freeSender else .next { s with delay := s.delay - 1 }

/-- The handler's rule for the current state (41_transmit.md R121). -/
def txHandler (s : State) : Answer :=
  match s.txState with
  | .idle => txIdle s
  | .startBit => txStartBit s
  | .dataBits => txDataBits s
  | .stopBit => txStopBit s
  | .returnIdle => txReturnIdle s
  | .timedDelay => txTimedDelay s

/-- TXCMP, dispatched (41_transmit.md R121, 60_exceptions.md R202). -/
def execTxcmp (s : State) : Answer := enterHandler .tx s txHandler

/-- SEND's effect (41_transmit.md R128). -/
def State.armFrame (s : State) (b : Byte) : State :=
  ({ s with ocrTx := s.tcnt, sendByte := b }).takeSender .startBit

/-- SEND (41_transmit.md R128). -/
def execSend (b : Byte) (s : State) : Answer :=
  needsInit (.send b) s
    (if s.sendReady then .next (s.armFrame b).respondNothing else hold s)

/-- SEND_READY (41_transmit.md R129). -/
def execSendReady (s : State) : Answer :=
  needsInit .sendReady s (.next (s.respond (zextFlag s.sendReady)))

/-- ALARM's effect (41_transmit.md R130). -/
def State.armAlarm (s : State) (durationMs : Half) : State :=
  ({ s with ocrTx := s.ticksAhead (alarmRem s.cfg durationMs), delay := alarmWhole s.cfg durationMs }).takeSender
    .timedDelay

/-- The body ALARM and DELAY share: the overflow fault, the hold, the arming (41_transmit.md R130, R131). -/
def alarmBody (durationMs : Half) (s : State) (after : State → State) : Answer :=
  if alarmOverflows s.cfg durationMs then raiseInCommand (.alarmOverflow (alarmWhole s.cfg durationMs)) s
  else if s.sendReady then .next (after (s.armAlarm durationMs).respondNothing)
  else hold s

/-- ALARM (41_transmit.md R130). -/
def execAlarm (durationMs : Half) (s : State) : Answer :=
  needsInit (.alarm durationMs) s (alarmBody durationMs s id)

/-- The host is now inside DELAY (41_transmit.md R131). -/
def State.enterDelay (s : State) : State := { s with hostWait := .delayWait }

/-- DELAY (41_transmit.md R131). -/
def execDelay (durationMs : Half) (s : State) : Answer :=
  needsInit (.delay durationMs) s (alarmBody durationMs s State.enterDelay)

/-- DELAY-RETURN, the completion of DELAY (41_transmit.md R132). It has no word of its own. -/
def delayReturn (s : State) : Answer := .next { s with hostWait := .none }

end Sys2Proof.Machine
end

