-- ==== Sys2Proof/Machine/Dispatch.lean ====
section
/-! DEFINITION. One arm per instruction. -/

namespace Sys2Proof.Machine

/-- What each instruction does once its step is taken; when a step is enabled is `fetch`'s business. -/
def exec (i : Instr) (s : State) : Host.Outcome State Fault Refusal :=
  match i with
  | .init => Sys2Proof.Machine.execInit s
  | .available => Sys2Proof.Machine.execAvailable s
  | .sendReady => Sys2Proof.Machine.execSendReady s
  | .send b => Sys2Proof.Machine.execSend b s
  | .recv => Sys2Proof.Machine.execRecv s
  | .alarm ms => Sys2Proof.Machine.execAlarm ms s
  | .delay ms => Sys2Proof.Machine.execDelay ms s
  | .tick line => Sys2Proof.Machine.execTick line s
  | .edge => Sys2Proof.Machine.execEdge s
  | .rxcmp => Sys2Proof.Machine.execRxcmp s
  | .txcmp => Sys2Proof.Machine.execTxcmp s

end Sys2Proof.Machine
end

