-- ==== Sys2Proof/WellFormed.lean ====
section
/-! DEFINITION. Well-formedness: which parameters form a valid configuration (00_scope.md R11), which assembly
commands have a word (30_encoding.md R78), and which instructions a host may issue (30_encoding.md R73). An `Instr`
needs no check of its operands: their types are the fields of the word. -/

namespace Sys2Proof

/-- 00_scope.md R11: a configuration is valid when `P >= 2`, `2^TIMER_WIDTH >= P`, `DELAY_WIDTH >= 1` and, in
Buffered mode, `N >= 2`. -/
def Params.valid (c : Params) : Bool :=
  decide (2 ≤ c.bitPeriod) && decide (c.bitPeriod ≤ 2 ^ c.timerWidth) && decide (1 ≤ c.delayWidth) &&
    (match c.rxMode with
     | .unbuffered => true
     | .buffered => decide (2 ≤ c.rxBufSlots))

/-- 30_encoding.md R78: `<byte>` is 0..255 and `<ms>` is 0..65535; an operand out of range is an assembly error. -/
def Source.wellFormed : Source → Bool
  | .send byte => decide (byte ≤ 255)
  | .alarm ms => decide (ms ≤ 65535)
  | .delay ms => decide (ms ≤ 65535)
  | .init | .available | .sendReady | .recv => true

/-- 60_exceptions.md R213: a host program is made of host commands only; the host may issue no event word. -/
def wellFormedProgram (p : List Instr) : Bool := p.all Instr.isHostCommand

/-- The instruction a well-formed assembly command stands for (30_encoding.md R78); none for an operand out of range. -/
def Source.instr? (c : Source) : Option Instr :=
  if c.wellFormed then
    some (match c with
      | .init => .init
      | .available => .available
      | .sendReady => .sendReady
      | .send byte => .send (BitVec.ofNat 8 byte)
      | .recv => .recv
      | .alarm ms => .alarm (BitVec.ofNat 16 ms)
      | .delay ms => .delay (BitVec.ofNat 16 ms))
  else none

end Sys2Proof
end

