-- ==== Sys2Proof/Decode.lean ====
section
/-! DEFINITION. Decoding words into instructions and encoding instructions as words (30_encoding.md). Two decoders:
`decodeWord` reads every word of the opcode table, as a trace writes them (R73), and `decodeHost` is the host
interface, where an event word is illegal (R74). -/

namespace Sys2Proof

/-- Why a word is no instruction, in the order of 30_encoding.md R74's checks. -/
inductive Reject where
  /-- The opcode is none of the interface's. -/
  | opcode
  /-- `W[23:16]` is not 0. -/
  | reserved
  /-- An operand bit that must be 0 is not. -/
  | operand
  deriving DecidableEq, Repr

/-- What decoding a word gives. -/
inductive Decoded where
  | instr (i : Instr)
  | reject (r : Reject)
  deriving DecidableEq, Repr

/-- `op`, the opcode field `W[31:24]` (30_encoding.md R70). -/
def opField (w : Word) : Byte := w.extractLsb' 24 8

/-- `rsv`, the reserved field `W[23:16]` (30_encoding.md R70). -/
def rsvField (w : Word) : Byte := w.extractLsb' 16 8

/-- `operand`, the field `W[15:0]` (30_encoding.md R70). -/
def operandField (w : Word) : Half := w.extractLsb' 0 16

/-- The upper byte `W[15:8]` of the operand field, 0 in SEND (30_encoding.md R72). -/
def operandHigh (w : Word) : Byte := w.extractLsb' 8 8

/-- `W[7:0]`, SEND's byte (30_encoding.md R72). -/
def operandLow (w : Word) : Byte := w.extractLsb' 0 8

/-- `W[0]`, TICK's line value (30_encoding.md R73). -/
def lineField (w : Word) : Bit := w.extractLsb' 0 1

/-- `W[15:1]`, 0 in TICK (30_encoding.md R73). -/
def lineRest (w : Word) : BitVec 15 := w.extractLsb' 1 15

/-- A word whose operand must be 0 (30_encoding.md R72, R73). -/
def bare (w : Word) (i : Instr) : Decoded :=
  if operandField w = 0#16 then .instr i else .reject .operand

/-- The operand check and the instruction of a host opcode (30_encoding.md R71, R72); `none` for another opcode. -/
def hostForm (w : Word) : Option Decoded :=
  if opField w = 0x01#8 then some (bare w .init)
  else if opField w = 0x02#8 then some (bare w .available)
  else if opField w = 0x03#8 then some (bare w .sendReady)
  else if opField w = 0x04#8 then
    some (if operandHigh w = 0#8 then .instr (.send (operandLow w)) else .reject .operand)
  else if opField w = 0x05#8 then some (bare w .recv)
  else if opField w = 0x06#8 then some (.instr (.alarm (operandField w)))
  else if opField w = 0x07#8 then some (.instr (.delay (operandField w)))
  else none

/-- The operand check and the instruction of an event opcode (30_encoding.md R73); `none` for another opcode. -/
def eventForm (w : Word) : Option Decoded :=
  if opField w = 0xF0#8 then
    some (if lineRest w = 0#15 then .instr (.tick (lineField w)) else .reject .operand)
  else if opField w = 0xF1#8 then some (bare w .edge)
  else if opField w = 0xF2#8 then some (bare w .rxcmp)
  else if opField w = 0xF3#8 then some (bare w .txcmp)
  else none

/-- The checks common to both interfaces, in 30_encoding.md R74's order: opcode, reserved byte, operand. -/
def decodeForm (w : Word) (form : Option Decoded) : Decoded :=
  match form with
  | none => .reject .opcode
  | some d => if rsvField w = 0#8 then d else .reject .reserved

/-- The first three checks of 30_encoding.md R74, which read the word alone: the host interface. -/
def decodeHost (w : Word) : Decoded := decodeForm w (hostForm w)

/-- A word of the opcode table, host command or event, as a trace writes it (30_encoding.md R73). -/
def decodeWord (w : Word) : Decoded := decodeForm w ((hostForm w).or (eventForm w))

/-- The word of an instruction: opcode in `W[31:24]`, 0 in `W[23:16]`, operand in `W[15:0]` (30_encoding.md R70). -/
def encode (i : Instr) : Word := (i.opcode.setWidth 32 <<< 24) ||| i.operand.setWidth 32

/-- The word of an assembly command (30_encoding.md R78): none for an operand out of range. -/
def Source.assemble (c : Source) : Option Word := c.instr?.map encode

/-- The word that a number stands for, its bits numbered as spec/opcode_table.json numbers them; bits above `nbits` are
0. DESIGN CHOICE (notes/assumptions/21.md): a number of `2^nbits` or more, or an `nbits` above the 32 bits of a word, is
no word. -/
def tableWord (nbits w : Nat) : Option Word :=
  if nbits ≤ 32 ∧ w < 2 ^ nbits then some (BitVec.ofNat 32 w) else none

/-- The instruction the decoder reads from a word numbered as spec/opcode_table.json numbers its bits: none for a word
that is none of the eleven instructions, and for a number that is no word (`tableWord`). -/
def decodeTableWord (nbits w : Nat) : Option Instr :=
  match tableWord nbits w with
  | none => none
  | some v =>
    match decodeWord v with
    | .instr i => some i
    | .reject _ => none

end Sys2Proof
end

