-- ==== Sys2Proof/Machine/Fetch.lean ====
section
/-! DEFINITION. Which agent takes the next step and with which word (00_scope.md R2, 40_timer.md R110, R111,
30_encoding.md R70, R74, 41_transmit.md R132, 60_exceptions.md R202), and how a word is placed where it is fetched. -/

namespace Sys2Proof.Machine

/-- What the machine does next. -/
inductive Fetched where
  /-- Run `i` on `s`, the state with the input the step takes removed. -/
  | run (i : Instr) (s : State)
  /-- The host issued an illegal word. -/
  | illegal (w : Word) (s : State)
  /-- The host leaves DELAY (41_transmit.md R132). -/
  | leaveDelay (s : State)
  /-- No agent has a step (60_exceptions.md R211). -/
  | stopped (k : FaultKind)
  /-- The configuration is refused (00_scope.md R11). -/
  | misconfigured
  deriving DecidableEq, Repr

/-- ENV's line value for this TICK (40_timer.md R110): `txd` in loopback, else the next given one, else a free one. -/
def State.takeLine (s : State) : Bit × State :=
  if s.cfg.loopback then (s.txd, s)
  else match s.lines with
    | line :: rest => (line, { s with lines := rest })
    | [] => (Config.freeLine s.draws, { s with draws := s.draws + 1 })

/-- Who goes first where HOST and TIMER both may (40_timer.md R111): the next given choice, else a free one. -/
def State.takeTurn (s : State) : Turn × State :=
  match s.turns with
  | turn :: rest => (turn, { s with turns := rest })
  | [] => (Config.freeTurn s.draws, { s with draws := s.draws + 1 })

/-- The host's word `w` can step: it is illegal (and raises), or it does not hold (60_exceptions.md R202, R204). -/
def State.wordEnabled (s : State) (w : Word) : Bool :=
  match decodeHost w with
  | .instr i => !s.holds i
  | .reject _ => true

/-- A HOST step is enabled, given that nothing is pending and no fault is recorded (60_exceptions.md R202): inside a
DELAY only its return, when `send_ready = 1` (41_transmit.md R132); else the host's next word, unless it holds. -/
def State.hostEnabled (s : State) : Bool :=
  match s.hostWait with
  | .delayWait => s.sendReady
  | .none => match s.host with
    | [] => false
    | w :: _ => s.wordEnabled w

/-- TIMER's step (40_timer.md R103, R110). -/
def fetchTick (s : State) : Fetched := .run (.tick s.takeLine.1) s.takeLine.2

/-- HOST's step, taken when it is enabled (30_encoding.md R74, 41_transmit.md R132). -/
def fetchHost (s : State) : Fetched :=
  match s.hostWait with
  | .delayWait => .leaveDelay s
  | .none => match s.host with
    | [] => fetchTick s
    | w :: rest => match decodeHost w with
      | .instr i => .run i { s with host := rest }
      | .reject _ => .illegal w { s with host := rest }

/-- The step of HOST or TIMER, nothing being pending (40_timer.md R111, 60_exceptions.md R202). -/
def fetchIdle (s : State) : Fetched :=
  if s.hostEnabled then
    match s.takeTurn.1 with
    | .host => fetchHost s.takeTurn.2
    | .timer => fetchTick s.takeTurn.2
  else fetchTick s

/-- The next step of the machine (00_scope.md R2, R11, 60_exceptions.md R202, R211). -/
def fetch (s : State) : Fetched :=
  if s.cfg.valid then
    match s.fault with
    | some k => .stopped k
    | none => match s.nextIrq with
      | some src => .run src.handler s
      | none => fetchIdle s
  else .misconfigured

/-- No fault is recorded and nothing is pending: HOST and TIMER may step (40_timer.md R111, 60_exceptions.md R202). -/
def State.quieted (s : State) : State :=
  { s with fault := none, edgePend := false, rxPend := false, txPend := false }

/-- Give the host the word `w` as its next, and the next turn (30_encoding.md R70). -/
def State.placeHostWord (s : State) (w : Word) : State :=
  { s.quieted with hostWait := .none, host := w :: s.host, turns := .host :: s.turns }

/-- Make `line` the value of the next TICK's operand (40_timer.md R110) and, where the host could step, let TIMER go
first. -/
def State.placeTick (s : State) (line : Bit) : State :=
  let s := s.quieted
  let s := if s.cfg.loopback then { s with txd := line } else { s with lines := line :: s.lines }
  if s.hostEnabled then { s with turns := .timer :: s.turns } else s

/-- Set what it takes for the next step to fetch `i`: the pending flag of a handler, the line of a TICK, the host's
next word (notes/assumptions/10.md). -/
def State.placeInstr (s : State) (i : Instr) : State :=
  match i with
  | .edge => s.quieted.setPending .edge
  | .rxcmp => s.quieted.setPending .rx
  | .txcmp => s.quieted.setPending .tx
  | .tick line => s.placeTick line
  | .init | .available | .sendReady | .send _ | .recv | .alarm _ | .delay _ => s.placeHostWord (encode i)

/-- Place a word of the opcode table, numbered as the table numbers its bits; a word that is none of its
instructions goes to the host interface, where it is illegal (30_encoding.md R75). DESIGN CHOICE
(notes/assumptions/21.md): a number that is no word (`tableWord`) places nothing. -/
def State.placeTableWord (s : State) (nbits w : Nat) : State :=
  match tableWord nbits w with
  | none => s
  | some v =>
    match decodeWord v with
    | .instr i => s.placeInstr i
    | .reject _ => s.placeHostWord v

end Sys2Proof.Machine
end

