-- ==== Sys2Proof/Machine/Step.lean ====
section
/-! DEFINITION. One step of the machine: the agent `fetch` names takes its step (00_scope.md R2). -/

namespace Sys2Proof.Machine

/-- One step. An illegal host word raises IllegalCommand (30_encoding.md R74); a recorded fault or an invalid
configuration leaves no step (60_exceptions.md R211, 00_scope.md R11). -/
def step (s : State) : Host.Outcome State Fault Refusal :=
  match fetch s with
  | .run i s => exec i s
  | .illegal w s => raiseInCommand (.illegalCommand w) s
  | .leaveDelay s => delayReturn s
  | .stopped k => .fault (.recorded k)
  | .misconfigured => .refused .invalidConfiguration

/-- `s` with the instruction of an opcode-table word placed where the next step fetches it
(notes/assumptions/10.md). -/
def State.withFetchWord (s : State) (nbits w : Nat) : State := s.placeTableWord nbits w

end Sys2Proof.Machine
end

