-- ==== Sys2Proof/Machine/Assembly.lean ====
section
/-! DEFINITION. The assembly text of a host program (30_encoding.md R78): one command per line, the mnemonic in lower
case, then the operand, decimal or 0x-prefixed hex. -/

namespace Sys2Proof.Machine

/-- A decimal or hexadecimal digit's value. -/
def digitValue (c : Char) : Option Nat :=
  if '0' ≤ c ∧ c ≤ '9' then some (c.toNat - 48)
  else if 'a' ≤ c ∧ c ≤ 'f' then some (c.toNat - 87)
  else if 'A' ≤ c ∧ c ≤ 'F' then some (c.toNat - 55)
  else none

/-- The number that digits of a base write after what has been read so far. -/
def readDigits (base : Nat) (sofar : Nat) : List Char → Option Nat
  | [] => some sofar
  | c :: rest =>
    match digitValue c with
    | some d => if d < base then readDigits base (base * sofar + d) rest else none
    | none => none

/-- A decimal or 0x-prefixed hexadecimal number (30_encoding.md R78). -/
def readNumber (text : List Char) : Option Nat :=
  match text with
  | [] => none
  | '0' :: 'x' :: digits => if digits.isEmpty then none else readDigits 16 0 digits
  | digits => readDigits 10 0 digits

/-- A line without what follows `;`, as 30_encoding.md R78's listing annotates its lines. -/
def dropNote (line : List Char) : List Char := line.takeWhile (fun c => c != ';')

/-- The parts of a text between characters that `sep` holds of. -/
def partsBetween (sep : Char → Bool) : List Char → List (List Char)
  | [] => [[]]
  | c :: rest =>
    if sep c then [] :: partsBetween sep rest
    else match partsBetween sep rest with
      | [] => [[c]]
      | p :: ps => (c :: p) :: ps

/-- The words of a line: its nonempty parts between blanks. -/
def lineWords (line : List Char) : List (List Char) :=
  (partsBetween (fun c => c == ' ' || c == '\t') (dropNote line)).filter (fun p => !p.isEmpty)

/-- A command without an operand (30_encoding.md R78). -/
def readBare (mnemonic : List Char) : Option Source :=
  if mnemonic = "init".toList then some .init
  else if mnemonic = "available".toList then some .available
  else if mnemonic = "send_ready".toList then some .sendReady
  else if mnemonic = "recv".toList then some .recv
  else none

/-- A command with an operand (30_encoding.md R78). -/
def readWithOperand (mnemonic : List Char) (n : Nat) : Option Source :=
  if mnemonic = "send".toList then some (.send n)
  else if mnemonic = "alarm".toList then some (.alarm n)
  else if mnemonic = "delay".toList then some (.delay n)
  else none

/-- The command a line writes (30_encoding.md R78). -/
def readLine (line : List Char) : Option Source :=
  match lineWords line with
  | [mnemonic] => readBare mnemonic
  | [mnemonic, operand] => (readNumber operand).bind (readWithOperand mnemonic)
  | _ => none

/-- The word of a line: none for an assembly error (30_encoding.md R78). -/
def assembleLine (line : List Char) : Option Word := (readLine line).bind Source.assemble

/-- The words of a host program's text, one command per line (30_encoding.md R78, 60_exceptions.md R220); a line with
nothing but blanks and a note has no word. -/
def assembleText (text : List Char) : Option (List Word) :=
  ((partsBetween (fun c => c == '\n') text).filter (fun line => !(lineWords line).isEmpty)).mapM assembleLine

end Sys2Proof.Machine
end

