-- ==== Sys2Proof/Safety.lean ====
section
/-! DEFINITION. The terms claims are stated in: power-up, the invariants of 10_state.md R46 to R49 with the ranges of
the registers, reachable states, the queue the circular buffer holds, and time counted in settled TICKs. -/

namespace Sys2Proof.Safety

open Sys2Proof.Machine

/-- A power-up state, 70_reset_and_hazards.md R230: what the rule fixes, and anything in every other register. -/
structure IsPowerUp (s : State) : Prop where
  initialized : s.initialized = false
  txIe : s.txIe = false
  rxIe : s.rxIe = false
  edgeIe : s.edgeIe = false
  txPend : s.txPend = false
  rxPend : s.rxPend = false
  edgePend : s.edgePend = false
  rxCur : s.rxCur = 1#1
  rxPrev : s.rxPrev = 1#1
  hostWait : s.hostWait = .none
  fault : s.fault = none
  t : s.t = 0

/-- The machine gets from one state to the other in some number of steps. -/
def Reaches (s t : State) : Prop := ∃ n, Sys2Proof.core.run n s = .next t

/-- Before INIT no interrupt source is enabled, nothing is pending and the host is not inside a DELAY
(40_timer.md R104, 70_reset_and_hazards.md R230). -/
abbrev QuietBeforeInit (s : State) : Prop :=
  s.initialized = false →
    s.txIe = false ∧ s.rxIe = false ∧ s.edgeIe = false ∧
    s.txPend = false ∧ s.rxPend = false ∧ s.edgePend = false ∧ s.hostWait = .none

/-- After INIT the timer's registers are in their ranges (10_state.md R22 to R25). -/
abbrev TimerInRange (s : State) : Prop :=
  s.initialized = true →
    s.period = s.cfg.bitPeriod ∧ s.tcnt < s.cfg.bitPeriod ∧ s.ocrTx < s.cfg.bitPeriod ∧ s.ocrRx < s.cfg.bitPeriod

/-- After INIT: 10_state.md R46, R47 and R48 for the transmit engine, and the range of `delay` (R34). -/
abbrev TransmitConsistent (s : State) : Prop :=
  s.initialized = true →
    (s.sendReady = true ↔ s.txState = .idle) ∧
    s.sendBits ≤ 8#4 ∧ (s.sendBits ≠ 0#4 ↔ s.txState = .dataBits) ∧
    (s.txIe = true ↔ s.txState ≠ .idle) ∧
    s.delay < 2 ^ s.cfg.delayWidth

/-- After INIT: 10_state.md R47 and R49 for the receive engine; the state StartBit is never entered
(42_receive.md R153). -/
abbrev ReceiveConsistent (s : State) : Prop :=
  s.initialized = true →
    s.recvBits ≤ 8#4 ∧ (s.recvBits ≠ 0#4 ↔ s.rxState = .dataBits) ∧
    (s.edgeIe = true ↔ s.rxIe = false) ∧
    (s.edgeIe = true → s.rxState = .waitStart) ∧
    s.rxState ≠ .startBit

/-- A pending source is an enabled one (60_exceptions.md R201, R207). -/
abbrev PendingOnlyEnabled (s : State) : Prop :=
  (s.txPend = true → s.txIe = true) ∧ (s.rxPend = true → s.rxIe = true) ∧ (s.edgePend = true → s.edgeIe = true)

/-- The buffer's slots are in canonical form, and after INIT of a Buffered block the indices are slots
(10_state.md R41, 20_memory.md R50). -/
abbrev BufferInRange (s : State) : Prop :=
  Memory.wf s.rxBuf = true ∧
  (s.initialized = true → s.cfg.rxMode = .buffered → s.rxHead < s.cfg.rxBufSlots ∧ s.rxTail < s.cfg.rxBufSlots)

/-- What holds of every state a run of a valid configuration reaches, before and after INIT. -/
abbrev Invariant (s : State) : Prop :=
  s.cfg.valid = true ∧ QuietBeforeInit s ∧ TimerInRange s ∧ TransmitConsistent s ∧ ReceiveConsistent s ∧
  PendingOnlyEnabled s ∧ BufferInRange s

/-- The slot that holds the `k`-th queued byte, oldest first (20_memory.md R51, R54). -/
def queueSlot (s : State) (k : Nat) : Nat := (s.rxTail + k) % s.cfg.rxBufSlots

/-- The bytes queued in the circular buffer, oldest first (20_memory.md R52, R54). -/
def queueBytes (s : State) : List Byte := (List.range s.queued).map (fun k => s.memRead (queueSlot s k))

/-- Every queued slot has been written, so that the unspecified contents of `rx_buf` are never read
(10_state.md R41). -/
def QueueWritten (s : State) : Prop :=
  s.initialized = true → s.cfg.rxMode = .buffered →
    ∀ k, k < s.queued → (s.rxBuf.read (queueSlot s k)).isSome = true

/-- An upper bound on the steps DISPATCH and HOST can still take before the next TICK: one for each pending
interrupt, one for a DELAY to leave, two for each host word (40_timer.md R112). -/
def workLeft (s : State) : Nat :=
  2 * s.host.length + (if s.hostWait = .delayWait then 1 else 0) +
  (if s.edgePend then 1 else 0) + (if s.rxPend then 1 else 0) + (if s.txPend then 1 else 0)

/-- Nothing is pending and no fault is recorded: the point between two TICKs (40_timer.md R111). -/
abbrev Settled (s : State) : Prop :=
  s.fault = none ∧ s.edgePend = false ∧ s.rxPend = false ∧ s.txPend = false

/-- One step of DISPATCH where it has one (60_exceptions.md R202); else nothing. -/
def dispatchOnce (s : State) : Answer :=
  match s.fault with
  | some _ => .next s
  | none => match s.nextIrq with
    | some src => exec src.handler s
    | none => .next s

/-- The handlers that a TICK has made pending, at most one run of each source (60_exceptions.md R202). -/
def settle (s : State) : Answer := andThen (andThen (dispatchOnce s) dispatchOnce) dispatchOnce

/-- One TICK and the handler runs it makes pending ("after TICK n" of 95_test_vectors.md section 0). -/
def afterTick (line : Bit) (s : State) : Answer := andThen (exec (.tick line) s) settle

/-- Settled TICKs with the given line values, no host command between them. -/
def afterTicks (lines : List Bit) (s : State) : Answer :=
  match lines with
  | [] => .next s
  | line :: rest => andThen (afterTick line s) (afterTicks rest)

/-- `n` settled TICKs of a loopback block: the line is `txd` as each TICK is taken (40_timer.md R110). -/
def afterLoopbackTicks (n : Nat) (s : State) : Answer :=
  match n with
  | 0 => .next s
  | k + 1 => andThen (afterTick s.txd s) (afterLoopbackTicks k)

/-- The counter alone: TICKs with no handler run between them. -/
def ticksOnly (lines : List Bit) (s : State) : Answer :=
  match lines with
  | [] => .next s
  | line :: rest => andThen (exec (.tick line) s) (ticksOnly rest)

/-- The level `txd` shows `n` TICKs after a SEND of `b`, the pin having the level `idle` before it
(41_transmit.md R133): unchanged for one bit period, the start bit, the eight data bits, then the stop bit. -/
def wireLevel (idle : Bit) (P : Nat) (b : Byte) (n : Nat) : Bit :=
  if n < P then idle
  else if n < 2 * P then 0#1
  else if n < 10 * P then bitAt b (n / P - 2)
  else 1#1

/-- The transmit state `n` TICKs after a SEND (41_transmit.md R133). -/
def frameState (P : Nat) (n : Nat) : TxState :=
  if n < P then .startBit
  else if n < 9 * P then .dataBits
  else if n < 10 * P then .stopBit
  else if n < 11 * P then .returnIdle
  else .idle

/-- The level a remote sender of bit period `Q` puts on the line `n` TICKs after the falling edge of its start bit
(70_reset_and_hazards.md R236). -/
def senderLevel (Q : Nat) (b : Byte) (n : Nat) : Bit :=
  if n < Q then 0#1
  else if n < 9 * Q then bitAt b (n / Q - 1)
  else 1#1

/-- A byte from its bits, bit 0 first. -/
def byteOfBits (f : Nat → Bit) : Byte :=
  (f 7 ++ f 6 ++ f 5 ++ f 4 ++ f 3 ++ f 2 ++ f 1 ++ f 0 : BitVec 8)

/-- The receive buffer is in `t` what it is in `s`: nothing has been committed or taken. -/
abbrev SameBuffer (s t : State) : Prop :=
  t.available = s.available ∧ t.recvByte = s.recvByte ∧ t.rxBuf = s.rxBuf ∧ t.rxHead = s.rxHead ∧ t.rxTail = s.rxTail

/-- The receive buffer of `t` is that of `s` after one commit of `v` (42_receive.md R160 to R162). -/
abbrev OneCommit (s : State) (v : Byte) (t : State) : Prop :=
  match s.cfg.rxMode with
  | .unbuffered => SameBuffer (s.slotPut v) t
  | .buffered => SameBuffer (s.bufPush v) t

/-- A word that 30_encoding.md R74's first three checks find illegal, by its fields. -/
abbrev IllegalFields (w : Word) : Prop :=
  ¬ (1#8 ≤ opField w ∧ opField w ≤ 7#8) ∨ rsvField w ≠ 0#8 ∨
  ((opField w = 1#8 ∨ opField w = 2#8 ∨ opField w = 3#8 ∨ opField w = 5#8) ∧ operandField w ≠ 0#16) ∨
  (opField w = 4#8 ∧ operandHigh w ≠ 0#8)

/-- The line value of a placed TICK. -/
def placedLine : Instr → Option Bit
  | .tick line => some line
  | .init | .available | .sendReady | .send _ | .recv | .alarm _ | .delay _ | .edge | .rxcmp | .txcmp => none

/-- The state an instruction placed by `withFetchWord` is taken in (notes/assumptions/10.md): no fault is recorded, only
the placed handler's source is pending, a placed host word finds the host outside DELAY, and in loopback a placed TICK
finds its line value on the pin. Every other field is that of `s`. -/
def placedState (i : Instr) (s : State) : State :=
  { s with
    fault := none, edgePend := decide (i = .edge), rxPend := decide (i = .rxcmp), txPend := decide (i = .txcmp),
    hostWait := if i.isHostCommand then .none else s.hostWait,
    txd := if s.cfg.loopback then (placedLine i).getD s.txd else s.txd }

/-- The host's word `w` is the next thing the machine takes, leaving the words `rest` (30_encoding.md R70,
60_exceptions.md R202): a valid block, nothing pending, no fault, no DELAY running, and HOST goes first. -/
abbrev HostWordNext (s : State) (w : Word) (rest : List Word) : Prop :=
  s.cfg.valid = true ∧ Settled s ∧ s.hostWait = .none ∧ s.host = w :: rest ∧ s.takeTurn.1 = .host

/-- The state the host's word is taken in: its turn and the word itself are used up. -/
def takeHostWord (s : State) (rest : List Word) : State := { s.takeTurn.2 with host := rest }

end Sys2Proof.Safety
end

