-- ==== Sys2Proof/Certificates/Slice0/Obligations.lean ====
section
/-! DEFINITION. The statements for the provers, in the order of the spec's files. -/

open Sys2Proof Sys2Proof.Machine Sys2Proof.Safety

/-! Configuration, agents and the step -/

/-- 00_scope.md R11: which configurations are valid, and that an invalid one is refused before any step. -/
def Obligations.InvalidConfigurationIsRefused : Prop :=
  (∀ c : Params, c.valid = true ↔
    (2 ≤ c.bitPeriod ∧ c.bitPeriod ≤ 2 ^ c.timerWidth ∧ 1 ≤ c.delayWidth ∧
      (c.rxMode = .buffered → 2 ≤ c.rxBufSlots))) ∧
  (∀ s : State, s.cfg.valid = false → step s = .refused .invalidConfiguration)

/-- 00_scope.md R12: no step changes a parameter. -/
def Obligations.ParametersNeverChange : Prop :=
  ∀ s t : State, step s = .next t → t.cfg = s.cfg

/-- The step runs the decoded instruction (30_encoding.md R70, R74, 60_exceptions.md R202): the host's next word, when
it is HOST's turn and the command does not hold, is executed. That the state it is executed on has lost one word of a
list and one turn is the model's bookkeeping, and its choice (notes/assumptions/9.md, notes/assumptions/10.md). -/
def Obligations.HostStepRunsDecodedWord : Prop :=
  ∀ (s : State) (w : Word) (rest : List Word) (i : Instr),
    HostWordNext s w rest → decodeHost w = .instr i → s.holds i = false →
    step s = exec i (takeHostWord s rest)

/-- The step runs the decoded instruction: a word of the opcode table placed where it is fetched is what the next step
runs, on `placedState`, which differs from the state before in no register but those that its definition names. How a
word is placed is the model's choice (notes/assumptions/10.md). -/
def Obligations.PlacedWordIsRunNext : Prop :=
  ∀ (s : State) (w : Word) (i : Instr),
    s.cfg.valid = true → decodeWord w = .instr i → (s.withFetchWord 32 w.toNat).holds i = false →
    step (s.withFetchWord 32 w.toNat) = exec i (placedState i s)

/-- The line value of TIMER's step (40_timer.md R110): `txd` in loopback, else free. The list of given values and the
free value after it are the model's form of that freedom (notes/assumptions/8.md). -/
def Obligations.TimerStepTakesTheEnvironmentsLine : Prop :=
  ∀ s : State, s.cfg.valid = true → Settled s → s.hostEnabled = false →
    (s.cfg.loopback = true → step s = exec (.tick s.txd) s) ∧
    (s.cfg.loopback = false → ∀ line rest, s.lines = line :: rest →
      step s = exec (.tick line) { s with lines := rest }) ∧
    (s.cfg.loopback = false → s.lines = [] →
      step s = exec (.tick (Config.freeLine s.draws)) { s with draws := s.draws + 1 })

/-- Where the host could step too, who goes first is free (40_timer.md R111). On TIMER's turn the step is the same TICK
with ENV's line value as where the host could not step (R103, R110), on the state `s.takeTurn.2`, which has lost one
given turn, or one free value where none is given, and nothing else. That bookkeeping of turns and line values is the
model's choice (notes/assumptions/8.md, notes/assumptions/9.md). -/
def Obligations.TimerMayGoBeforeTheHost : Prop :=
  (∀ s : State,
    (∀ turn rest, s.turns = turn :: rest → s.takeTurn = (turn, { s with turns := rest })) ∧
    (s.turns = [] → s.takeTurn = (Config.freeTurn s.draws, { s with draws := s.draws + 1 }))) ∧
  (∀ s s1 : State, s.cfg.valid = true → Settled s → s.hostEnabled = true → s.takeTurn = (.timer, s1) →
    (s.cfg.loopback = true → step s = exec (.tick s.txd) s1) ∧
    (s.cfg.loopback = false → ∀ line rest, s.lines = line :: rest →
      step s = exec (.tick line) { s1 with lines := rest }) ∧
    (s.cfg.loopback = false → s.lines = [] →
      step s = exec (.tick (Config.freeLine s1.draws)) { s1 with draws := s1.draws + 1 }))

/-- What stands behind 40_timer.md R112 in a model whose host program is finite (notes/assumptions/10.md): every step
that is not a TICK uses up work, so a TICK is never more than `workLeft` steps away. -/
def Obligations.EveryStepTicksOrUsesUpWork : Prop :=
  ∀ s t : State, step s = .next t → t.t = s.t + 1 ∨ (t.t = s.t ∧ workLeft t < workLeft s)

/-! Encoding -/

/-- Decoding the encoding of any instruction gives it back, every operand at every value. -/
def Obligations.DecodeOfEncodeIsTheInstruction : Prop :=
  ∀ i : Instr, decodeWord (encode i) = .instr i

/-- No other word decodes to an instruction: a nonzero reserved or operand bit is refused (30_encoding.md R75). -/
def Obligations.OnlyItsEncodingDecodesToAnInstruction : Prop :=
  ∀ (w : Word) (i : Instr), decodeWord w = .instr i → w = encode i

/-- The host interface takes the words of the seven host commands and no other; event words are illegal there
(30_encoding.md R73, R74). -/
def Obligations.HostInterfaceTakesExactlyTheHostCommands : Prop :=
  ∀ (w : Word) (i : Instr), decodeHost w = .instr i ↔ (i.isHostCommand = true ∧ w = encode i)

/-- The count of the legal host words, the spec's own inference (30_encoding.md R75, "[derived: from rule R72 and rule
R74]"). -/
def Obligations.LegalHostWordsAre131332 : Prop :=
  Set.ncard (fun w : Word => ∃ i, decodeHost w = .instr i) = 131332

/-- Words of 95_test_vectors.md section 2.1 and 30_encoding.md R73 decode to the instructions they stand for. -/
def Obligations.SpecWordsDecode : Prop :=
  decodeWord 0x01000000#32 = .instr .init ∧
  decodeWord 0x04000041#32 = .instr (.send 0x41#8) ∧
  decodeWord 0x0600FFFF#32 = .instr (.alarm 65535#16) ∧
  decodeWord 0xF0000001#32 = .instr (.tick 1#1) ∧
  decodeWord 0xF2000000#32 = .instr .rxcmp ∧
  decodeHost 0xF0000001#32 = .reject .opcode ∧
  decodeHost 0x04000141#32 = .reject .operand ∧
  decodeHost 0x06FF0001#32 = .reject .reserved

/-- The word of each assembly command (30_encoding.md R78): none for an operand out of range. -/
def Obligations.AssemblyWords : Prop :=
  Source.assemble .init = some 0x01000000#32 ∧
  Source.assemble .available = some 0x02000000#32 ∧
  Source.assemble .sendReady = some 0x03000000#32 ∧
  Source.assemble .recv = some 0x05000000#32 ∧
  (∀ n, Source.assemble (.send n) = if n ≤ 255 then some (0x04000000#32 ||| BitVec.ofNat 32 n) else none) ∧
  (∀ n, Source.assemble (.alarm n) = if n ≤ 65535 then some (0x06000000#32 ||| BitVec.ofNat 32 n) else none) ∧
  (∀ n, Source.assemble (.delay n) = if n ≤ 65535 then some (0x07000000#32 ||| BitVec.ofNat 32 n) else none)

/-- 30_encoding.md R74, 60_exceptions.md R212 and 41_transmit.md R130: the checks of a host word, in their order; a
word that passes them is a command, which steps unless it holds; the overflow is tested before the wait. That a word
and a turn are used up is the model's bookkeeping (notes/assumptions/9.md, notes/assumptions/10.md), and that a word
which faults leaves no response in the model's own field `response` is its form of R76 (notes/assumptions/15.md). -/
def Obligations.HostWordChecksInOrder : Prop :=
  ∀ (s : State) (w : Word) (rest : List Word), HostWordNext s w rest →
    let s' := takeHostWord s rest
    (IllegalFields w → step s = .next { s' with response := none, fault := some (.illegalCommand w) }) ∧
    (¬ IllegalFields w → s.initialized = false → opField w ≠ 1#8 →
      step s = .next { s' with response := none, fault := some (.notInitialized (opField w)) }) ∧
    (¬ IllegalFields w → s.initialized = true → opField w = 1#8 →
      step s = .next { s' with response := none, fault := some .reInit }) ∧
    (¬ IllegalFields w → (s.initialized = true ↔ opField w ≠ 1#8) →
      ∃ i, decodeHost w = .instr i ∧ encode i = w ∧ (s.holds i = false → step s = exec i s')) ∧
    (¬ IllegalFields w → s.initialized = true → opField w = 6#8 ∨ opField w = 7#8 →
      ∀ whole, whole = ticksOfMs s.cfg (operandField w).toNat / s.cfg.bitPeriod → 2 ^ s.cfg.delayWidth ≤ whole →
      step s = .next { s' with response := none, fault := some (.alarmOverflow whole) })

/-! The timer -/

/-- 40_timer.md R103 and R104: all that TICK does. -/
def Obligations.TickMovesSamplesCounterAndPendingFlags : Prop :=
  ∀ (line : Bit) (s : State),
    (s.initialized = false →
      exec (.tick line) s = .next { s with t := s.t + 1, rxPrev := s.rxCur, rxCur := line }) ∧
    (s.initialized = true →
      exec (.tick line) s = .next { s with
        t := s.t + 1, rxPrev := s.rxCur, rxCur := line, tcnt := (s.tcnt + 1) % s.period,
        edgePend := s.edgePend || (s.edgeIe && decide (s.rxCur = 1#1 ∧ line = 0#1)),
        rxPend := s.rxPend || (s.rxIe && decide ((s.tcnt + 1) % s.period = s.ocrRx)),
        txPend := s.txPend || (s.txIe && decide ((s.tcnt + 1) % s.period = s.ocrTx)) })

/-- The spec's own inference 40_timer.md R106 ("[derived: from rule R102, rule R103 and rule R105]"): a compare
register written `k` ticks ahead first matches at the `k`-th TICK, or at the `P`-th for `k = 0`. -/
def Obligations.FirstMatchAfterAWrite : Prop :=
  ∀ (s : State) (k : Nat) (lines : List Bit),
    s.initialized = true → s.period = s.cfg.bitPeriod → s.tcnt < s.cfg.bitPeriod → k < s.cfg.bitPeriod →
    1 ≤ lines.length → lines.length ≤ s.cfg.bitPeriod →
    ∃ t, ticksOnly lines s = .next t ∧
      (t.tcnt = s.ticksAhead k ↔ lines.length = (if k = 0 then s.cfg.bitPeriod else k))

/-- The spec's own inference 40_timer.md R107 ("[derived: from rule R102 and rule R105]"): an armed channel matches
exactly once in any `P` TICKs in a row. -/
def Obligations.OneMatchEveryPeriod : Prop :=
  ∀ (s : State) (target : Nat),
    s.initialized = true → s.period = s.cfg.bitPeriod → s.tcnt < s.cfg.bitPeriod → target < s.cfg.bitPeriod →
    ∃! n, 1 ≤ n ∧ n ≤ s.cfg.bitPeriod ∧
      ∀ lines : List Bit, lines.length = n → ∃ t, ticksOnly lines s = .next t ∧ t.tcnt = target

/-! The transmit engine -/

/-- 41_transmit.md R122, R123, R125 and R126: TXCMP in Idle, StartBit, StopBit and ReturnIdle. -/
def Obligations.TxcmpOutsideTheDataBits : Prop :=
  ∀ s : State,
    (s.txState = .idle → exec .txcmp s = .next { s with txPend := false }) ∧
    (s.txState = .startBit →
      exec .txcmp s = .next { s with txPend := false, txd := 0#1, sendBits := 8#4, txState := .dataBits }) ∧
    (s.txState = .stopBit →
      exec .txcmp s = .next { s with txPend := false, txd := 1#1, txState := .returnIdle }) ∧
    (s.txState = .returnIdle →
      exec .txcmp s = .next { s with txPend := false, sendReady := true, txState := .idle, txIe := false })

/-- 41_transmit.md R124: TXCMP in DataBits. -/
def Obligations.TxcmpSendsOneDataBit : Prop :=
  ∀ s : State, s.txState = .dataBits →
    (s.sendBits = 0#4 →
      exec .txcmp s = .next { s with txPend := false, fault := some (.unreachable .txDataBitsZero) }) ∧
    (s.sendBits ≠ 0#4 →
      exec .txcmp s = .next { s with
        txPend := false, txd := s.sendByte.extractLsb' 0 1, sendByte := s.sendByte >>> 1,
        sendBits := s.sendBits - 1#4,
        txState := if s.sendBits = 1#4 then .stopBit else .dataBits })

/-- 41_transmit.md R127: TXCMP in TimedDelay tests `delay` before it decrements. -/
def Obligations.TxcmpCountsTheDelay : Prop :=
  ∀ s : State, s.txState = .timedDelay →
    (s.delay = 0 →
      exec .txcmp s = .next { s with txPend := false, sendReady := true, txState := .idle, txIe := false }) ∧
    (s.delay ≠ 0 → exec .txcmp s = .next { s with txPend := false, delay := s.delay - 1 })

/-- 41_transmit.md R128: SEND's word, its fault, its wait and its effect. -/
def Obligations.SendArmsTheFrame : Prop :=
  ∀ (b : Byte) (s : State),
    encode (.send b) = 0x04000000#32 ||| b.setWidth 32 ∧
    (s.initialized = false →
      exec (.send b) s = .next { s with response := none, fault := some (.notInitialized 0x04#8) }) ∧
    (s.initialized = true → s.sendReady = false → s.holds (.send b) = true ∧ exec (.send b) s = .next s) ∧
    (s.initialized = true → s.sendReady = true →
      s.holds (.send b) = false ∧
      exec (.send b) s = .next { s with
        ocrTx := s.tcnt, sendReady := false, sendByte := b, txState := .startBit, txIe := true, response := none })

/-- 41_transmit.md R129: SEND_READY's word, fault and response; it never holds and writes nothing of the block. -/
def Obligations.SendReadyResponds : Prop :=
  encode .sendReady = 0x03000000#32 ∧
  ∀ s : State, s.holds .sendReady = false ∧
    (s.initialized = false →
      exec .sendReady s = .next { s with response := none, fault := some (.notInitialized 0x03#8) }) ∧
    (s.initialized = true →
      exec .sendReady s = .next { s with response := some (if s.sendReady then 1#16 else 0#16) })

/-- 41_transmit.md R130: ALARM's word, its faults in their order, its wait and its effect. -/
def Obligations.AlarmArmsTheDelay : Prop :=
  ∀ (ms : Half) (s : State) (D : Nat), D = ticksOfMs s.cfg ms.toNat →
    encode (.alarm ms) = 0x06000000#32 ||| ms.setWidth 32 ∧
    (s.initialized = false →
      exec (.alarm ms) s = .next { s with response := none, fault := some (.notInitialized 0x06#8) }) ∧
    (s.initialized = true → 2 ^ s.cfg.delayWidth ≤ D / s.cfg.bitPeriod →
      s.holds (.alarm ms) = false ∧
      exec (.alarm ms) s = .next { s with response := none, fault := some (.alarmOverflow (D / s.cfg.bitPeriod)) }) ∧
    (s.initialized = true → D / s.cfg.bitPeriod < 2 ^ s.cfg.delayWidth → s.sendReady = false →
      s.holds (.alarm ms) = true ∧ exec (.alarm ms) s = .next s) ∧
    (s.initialized = true → D / s.cfg.bitPeriod < 2 ^ s.cfg.delayWidth → s.sendReady = true →
      s.holds (.alarm ms) = false ∧
      exec (.alarm ms) s = .next { s with
        ocrTx := (s.tcnt + D % s.cfg.bitPeriod) % s.cfg.bitPeriod, delay := D / s.cfg.bitPeriod, sendReady := false,
        txState := .timedDelay, txIe := true, response := none })

/-- 41_transmit.md R131: DELAY is ALARM's body, with its faults and its wait, and the host is then inside DELAY. -/
def Obligations.DelayArmsAndWaits : Prop :=
  ∀ (ms : Half) (s : State) (D : Nat), D = ticksOfMs s.cfg ms.toNat →
    encode (.delay ms) = 0x07000000#32 ||| ms.setWidth 32 ∧
    (s.initialized = false →
      exec (.delay ms) s = .next { s with response := none, fault := some (.notInitialized 0x07#8) }) ∧
    (s.initialized = true → 2 ^ s.cfg.delayWidth ≤ D / s.cfg.bitPeriod →
      s.holds (.delay ms) = false ∧
      exec (.delay ms) s = .next { s with response := none, fault := some (.alarmOverflow (D / s.cfg.bitPeriod)) }) ∧
    (s.initialized = true → D / s.cfg.bitPeriod < 2 ^ s.cfg.delayWidth → s.sendReady = false →
      s.holds (.delay ms) = true ∧ exec (.delay ms) s = .next s) ∧
    (s.initialized = true → D / s.cfg.bitPeriod < 2 ^ s.cfg.delayWidth → s.sendReady = true →
      s.holds (.delay ms) = false ∧
      exec (.delay ms) s = .next { s with
        ocrTx := (s.tcnt + D % s.cfg.bitPeriod) % s.cfg.bitPeriod, delay := D / s.cfg.bitPeriod, sendReady := false,
        txState := .timedDelay, txIe := true, response := none, hostWait := .delayWait })

/-- Inside a DELAY the host's only step is DELAY-RETURN, enabled exactly when `send_ready = 1`; no word is taken
(41_transmit.md R132). That the step also uses up a turn, where both agents may go, is the model's bookkeeping and its
choice (notes/assumptions/9.md), and so is the list the host's words stay in (notes/assumptions/10.md). -/
def Obligations.DelayReturnIsTheOnlyHostStep : Prop :=
  ∀ s : State, s.cfg.valid = true → Settled s → s.hostWait = .delayWait →
    (s.hostEnabled = true ↔ s.sendReady = true) ∧
    (s.sendReady = true → s.takeTurn.1 = .host → step s = .next { s.takeTurn.2 with hostWait := .none }) ∧
    (s.sendReady = false → ∃ (line : Bit) (s' : State), step s = exec (.tick line) s' ∧ s'.host = s.host ∧
      s'.hostWait = .delayWait)

/-- A command that holds has taken no effect and time goes on (60_exceptions.md R204, 41_transmit.md R128,
42_receive.md R164). That `exec` of it answers the unchanged state is the model's choice (notes/assumptions/11.md),
and so is that the TICK taken instead leaves the word first in the list and the turn unused (notes/assumptions/9.md,
notes/assumptions/10.md). -/
def Obligations.HeldCommandWaitsWhileTimeRuns : Prop :=
  ∀ (s : State) (w : Word) (rest : List Word) (i : Instr),
    s.cfg.valid = true → Settled s → s.hostWait = .none → s.host = w :: rest → decodeHost w = .instr i →
    s.holds i = true →
    exec i s = .next s ∧
    ∃ (line : Bit) (s' : State), step s = exec (.tick line) s' ∧ s'.host = w :: rest ∧ s'.turns = s.turns ∧
      s'.sendReady = s.sendReady ∧ s'.available = s.available ∧ s'.rxHead = s.rxHead ∧ s'.rxTail = s.rxTail

/-- The spec's own inference 41_transmit.md R133 ("[derived: from rule R123 to rule R128 and 40_timer.md rule R106,
rule R107]"), its table up to the first frame's end: after a SEND, the pin, the transmit state and `send_ready` at
every TICK up to the `11P`-th, whatever the receive line does. -/
def Obligations.FrameTakesElevenBitPeriods : Prop :=
  ∀ (s s0 : State) (b : Byte) (lines : List Bit),
    Invariant s → s.initialized = true → Settled s → s.sendReady = true → exec (.send b) s = .next s0 →
    lines.length ≤ 11 * s.cfg.bitPeriod →
    ∃ t, afterTicks lines s0 = .next t ∧
      t.txd = wireLevel s.txd s.cfg.bitPeriod b lines.length ∧
      t.txState = frameState s.cfg.bitPeriod lines.length ∧
      (t.sendReady = true ↔ lines.length = 11 * s.cfg.bitPeriod)

/-- The spec's own inference 41_transmit.md R134 ("[derived: from rule R127, rule R130, rule R132 and 40_timer.md rule
R106, rule R107]"): after an ALARM or a DELAY `send_ready` is 0 for exactly `D` TICKs, or `D + P` where `D` is a whole
number of periods, whatever the receive line does; the pin is not driven. -/
def Obligations.AlarmLastsItsTicks : Prop :=
  ∀ (s s0 : State) (ms : Half) (i : Instr) (D total : Nat) (lines : List Bit),
    (i = .alarm ms ∨ i = .delay ms) → D = ticksOfMs s.cfg ms.toNat →
    total = (if D % s.cfg.bitPeriod = 0 then D + s.cfg.bitPeriod else D) →
    Invariant s → s.initialized = true → Settled s → s.sendReady = true →
    D / s.cfg.bitPeriod < 2 ^ s.cfg.delayWidth → exec i s = .next s0 → lines.length ≤ total →
    ∃ t, afterTicks lines s0 = .next t ∧ t.txd = s.txd ∧ (t.sendReady = true ↔ lines.length = total)

/-- The spec's own inference 41_transmit.md R135 ("[derived: from 10_state.md rule R35]"): only INIT and TXCMP in
StartBit, DataBits and StopBit change the pin. -/
def Obligations.PinChangesOnlyInAFrame : Prop :=
  ∀ (i : Instr) (s t : State), exec i s = .next t → t.txd ≠ s.txd →
    i = .init ∨ (i = .txcmp ∧ (s.txState = .startBit ∨ s.txState = .dataBits ∨ s.txState = .stopBit))

/-! The receive engine and the buffer -/

/-- 42_receive.md R150: EDGE's word and effect. -/
def Obligations.EdgeArmsTheReceiver : Prop :=
  encode .edge = 0xF1000000#32 ∧
  ∀ s : State, exec .edge s = .next { s with
    edgePend := false, ocrRx := (s.tcnt + s.cfg.bitPeriod / 2) % s.cfg.bitPeriod, edgeIe := false, rxIe := true }

/-- 42_receive.md R153 and R154: RXCMP on the start bit and on a data bit. -/
def Obligations.RxcmpTakesStartAndDataBits : Prop :=
  ∀ s : State,
    (s.rxState = .waitStart ∨ s.rxState = .startBit →
      exec .rxcmp s = .next { s with rxPend := false, rxState := .dataBits, recvBits := 8#4 }) ∧
    (s.rxState = .dataBits → s.recvBits = 0#4 →
      exec .rxcmp s = .next { s with rxPend := false, fault := some (.unreachable .rxDataBitsZero) }) ∧
    (s.rxState = .dataBits → s.recvBits ≠ 0#4 →
      exec .rxcmp s = .next { s with
        rxPend := false, recvShift := (s.rxCur ++ s.recvShift.extractLsb' 1 7 : BitVec 8),
        recvBits := s.recvBits - 1#4,
        rxState := if s.recvBits = 1#4 then .waitStopHigh else .dataBits })

/-- 42_receive.md R155, R156, R161 and R162: RXCMP on the stop bit. A low sample changes nothing. On a high one an
Unbuffered block overwrites its slot; a Buffered block writes the slot at the head (a slot, 20_memory.md R50) and no
other, and drops the oldest byte when the head meets the tail. -/
def Obligations.RxcmpTakesTheStopBit : Prop :=
  ∀ (s : State) (N : Nat), N = s.cfg.rxBufSlots → s.rxState = .waitStopHigh →
    (s.rxCur = 0#1 → exec .rxcmp s = .next { s with rxPend := false }) ∧
    (s.rxCur = 1#1 → s.cfg.rxMode = .unbuffered →
      exec .rxcmp s = .next { s with
        rxPend := false, recvByte := s.recvShift, available := true, rxState := .waitStart, rxIe := false,
        edgeIe := true }) ∧
    (s.rxCur = 1#1 → s.cfg.rxMode = .buffered → s.rxHead < N →
      ∃ buf : Memory,
        exec .rxcmp s = .next { s with
          rxPend := false, rxBuf := buf, rxHead := (s.rxHead + 1) % N,
          rxTail := if (s.rxHead + 1) % N = s.rxTail then (s.rxTail + 1) % N else s.rxTail,
          rxState := .waitStart, rxIe := false, edgeIe := true } ∧
        Memory.read buf s.rxHead = some s.recvShift ∧
        ∀ a, a ≠ s.rxHead → Memory.read buf a = Memory.read s.rxBuf a)

/-- 20_memory.md R52: when the buffer is empty, the count and its range. -/
def Obligations.QueuedCountIsHeadMinusTail : Prop :=
  ∀ s : State, s.rxHead < s.cfg.rxBufSlots → s.rxTail < s.cfg.rxBufSlots →
    (s.queued = 0 ↔ s.rxHead = s.rxTail) ∧
    (s.queued : Int) = ((s.rxHead : Int) - s.rxTail) % s.cfg.rxBufSlots ∧
    s.queued ≤ s.cfg.rxBufSlots - 1

/-- The spec's own inference in 20_memory.md R53 ("[derived: from rule R52]"): after a push the count is `min(count +
1, N - 1)`, the new byte is last, and when the buffer was full the oldest byte, and no other, is gone. -/
def Obligations.PushKeepsTheNewestBytes : Prop :=
  ∀ (s : State) (v : Byte), 2 ≤ s.cfg.rxBufSlots → s.rxHead < s.cfg.rxBufSlots → s.rxTail < s.cfg.rxBufSlots →
    (s.bufPush v).queued = min (s.queued + 1) (s.cfg.rxBufSlots - 1) ∧
    queueBytes (s.bufPush v) =
      (if s.queued = s.cfg.rxBufSlots - 1 then (queueBytes s).drop 1 else queueBytes s) ++ [v]

/-- The spec's own inference in 20_memory.md R54 ("[derived: from rule R53 and this rule]"): a pop returns the oldest
byte and leaves the others in their order. -/
def Obligations.PopTakesTheOldestByte : Prop :=
  ∀ s : State, s.rxHead < s.cfg.rxBufSlots → s.rxTail < s.cfg.rxBufSlots → 1 ≤ s.queued →
    queueBytes s = s.bufPop.1 :: queueBytes s.bufPop.2 ∧ s.bufPop.2.rxBuf = s.rxBuf

/-- 42_receive.md R163: AVAILABLE's word, fault and response, for a count that fits the 16 bits of the response
(30_encoding.md R76); it never holds and writes nothing of the block. -/
def Obligations.AvailableReportsTheCount : Prop :=
  encode .available = 0x02000000#32 ∧
  ∀ s : State, s.holds .available = false ∧
    (s.initialized = false →
      exec .available s = .next { s with response := none, fault := some (.notInitialized 0x02#8) }) ∧
    (s.initialized = true → s.cfg.rxMode = .unbuffered →
      exec .available s = .next { s with response := some (if s.available then 1#16 else 0#16) }) ∧
    (s.initialized = true → s.cfg.rxMode = .buffered → s.queued < 65536 →
      exec .available s = .next { s with response := some (BitVec.ofNat 16 s.queued) })

/-- AVAILABLE also answers a count of 65536 or more. The spec states no 16-bit response for it (42_receive.md R163,
30_encoding.md R76): that some value is responded is the model's choice, and nothing is said of the value
(notes/assumptions/16.md). -/
def Obligations.AvailableAnswersACountOfAnySize : Prop :=
  ∀ s : State, s.initialized = true → s.cfg.rxMode = .buffered → 65536 ≤ s.queued →
    ∃ v : Half, exec .available s = .next { s with response := some v }

/-- 42_receive.md R164: RECV's word, fault, wait and effect in both modes, with the pop (at a tail that is a slot,
20_memory.md R50) and the take of 20_memory.md R54 and R55. -/
def Obligations.RecvTakesOneByte : Prop :=
  encode .recv = 0x05000000#32 ∧
  ∀ (s : State) (N : Nat), N = s.cfg.rxBufSlots →
    (s.initialized = false →
      exec .recv s = .next { s with response := none, fault := some (.notInitialized 0x05#8) }) ∧
    (s.initialized = true → s.cfg.rxMode = .unbuffered → s.available = false →
      s.holds .recv = true ∧ exec .recv s = .next s) ∧
    (s.initialized = true → s.cfg.rxMode = .unbuffered → s.available = true →
      s.holds .recv = false ∧
      exec .recv s = .next { s with response := some (s.recvByte.setWidth 16), available := false }) ∧
    (s.initialized = true → s.cfg.rxMode = .buffered → s.rxHead = s.rxTail →
      s.holds .recv = true ∧ exec .recv s = .next s) ∧
    (s.initialized = true → s.cfg.rxMode = .buffered → s.rxHead ≠ s.rxTail → s.rxTail < N →
      s.holds .recv = false ∧
      exec .recv s = .next { s with
        response := some ((s.memRead s.rxTail).setWidth 16), rxTail := (s.rxTail + 1) % N })

/-- The commit and the pop stop at an index that is no slot. The spec has no such access (20_memory.md R50): the stop is
the model's choice (notes/assumptions/18.md), which no run meets (InvariantExcludesMissingSlots). -/
def Obligations.MissingSlotStopsTheCommitAndThePop : Prop :=
  ∀ s : State, s.cfg.rxMode = .buffered →
    (s.rxState = .waitStopHigh → s.rxCur = 1#1 → s.cfg.rxBufSlots ≤ s.rxHead →
      exec .rxcmp s = .fault (.noSuchSlot s.rxHead)) ∧
    (s.initialized = true → s.rxHead ≠ s.rxTail → s.cfg.rxBufSlots ≤ s.rxTail →
      exec .recv s = .fault (.noSuchSlot s.rxTail))

/-- The registers of the mode that is not built are never written. By 10_state.md R40 and R41 a block does not have
them; that State holds them all the same, as fields that nothing writes, is the model's choice
(notes/assumptions/17.md). -/
def Obligations.RegistersOfTheOtherModeStay : Prop :=
  ∀ (i : Instr) (s t : State), exec i s = .next t →
    (s.cfg.rxMode = .unbuffered → t.rxBuf = s.rxBuf ∧ t.rxHead = s.rxHead ∧ t.rxTail = s.rxTail) ∧
    (s.cfg.rxMode = .buffered → t.available = s.available ∧ t.recvByte = s.recvByte)

/-- The spec's own inference 42_receive.md R165 ("[derived: from rule R150 to rule R156 and 40_timer.md rule R106,
rule R107]"): from an edge on, the byte committed is made of the line values `H + P`, …, `H + 8P` TICKs after it,
first bit 0, and the commit comes at the first stop sample that is high, `H + jP` TICKs after the edge for a `j >= 9`,
whatever the transmit engine does. -/
def Obligations.ReceiverSamplesBitCentres : Prop :=
  ∀ (s : State) (lines : List Bit) (P H j : Nat), P = s.cfg.bitPeriod → H = s.cfg.halfBit →
    Invariant s → s.initialized = true → Settled s → s.edgeIe = true → s.rxCur = 1#1 →
    9 ≤ j → lines.length = H + j * P + 1 → lines[0]? = some 0#1 →
    (∀ m, 9 ≤ m → m < j → lines[H + m * P]? = some 0#1) → lines[H + j * P]? = some 1#1 →
    (∃ t, afterTicks lines s = .next t ∧ t.rxState = .waitStart ∧ t.edgeIe = true ∧ t.rxIe = false ∧
      OneCommit s (byteOfBits (fun k => (lines[H + (k + 1) * P]?).getD 0#1)) t) ∧
    (∀ n, n < lines.length → ∃ t, afterTicks (lines.take n) s = .next t ∧ SameBuffer s t)

/-- The spec's own inference 70_reset_and_hazards.md R236 ("[derived: from 42_receive.md rule R165]"): a sender of
another bit period is received unchanged where every sample falls in its bit. -/
def Obligations.SenderWithinToleranceIsReceived : Prop :=
  ∀ (s : State) (b : Byte) (P H Q : Nat), P = s.cfg.bitPeriod → H = s.cfg.halfBit →
    Invariant s → s.initialized = true → Settled s → s.edgeIe = true → s.rxCur = 1#1 →
    (∀ k, k ≤ 8 → (k + 1) * Q ≤ H + (k + 1) * P ∧ H + (k + 1) * P + 1 ≤ (k + 2) * Q) →
    ∃ t, afterTicks ((List.range (H + 9 * P + 1)).map (senderLevel Q b)) s = .next t ∧ OneCommit s b t

/-- The spec's own inference 42_receive.md R166 ("[derived: from rule R165, 41_transmit.md rule R133 and 40_timer.md
rule R110]"): the loopback round trip: exactly one commit, of the byte sent, at TICK `P + 1 + H + 9P`, which is no
later than TICK `11P`. -/
def Obligations.LoopbackReturnsTheByteSent : Prop :=
  ∀ (s s0 : State) (b : Byte) (n P : Nat), P = s.cfg.bitPeriod →
    Invariant s → s.initialized = true → Settled s → s.cfg.loopback = true →
    s.txState = .idle → s.rxState = .waitStart → s.edgeIe = true → s.txd = 1#1 → s.rxCur = 1#1 →
    exec (.send b) s = .next s0 → n ≤ 11 * P →
    P + 1 + s.cfg.halfBit + 9 * P ≤ 11 * P ∧
    ∃ t, afterLoopbackTicks n s0 = .next t ∧
      (n < P + 1 + s.cfg.halfBit + 9 * P → SameBuffer s t) ∧
      (P + 1 + s.cfg.halfBit + 9 * P ≤ n → OneCommit s b t)

/-- The spec's own inference 42_receive.md R168 ("[derived: from rule R165 and rule R155]"): whatever the line does,
no commit comes within `9P + H` TICKs of a state that awaits an edge, such as the one a commit leaves. -/
def Obligations.NoCommitWithin9PPlusHTicks : Prop :=
  ∀ (s : State) (lines : List Bit),
    Invariant s → s.initialized = true → Settled s → s.edgeIe = true →
    lines.length ≤ 9 * s.cfg.bitPeriod + s.cfg.halfBit →
    ∃ t, afterTicks lines s = .next t ∧ SameBuffer s t

/-! Interrupts, faults and isolation -/

/-- 60_exceptions.md R201: only TICK sets a pending flag, and only of an enabled source; only the source's handler and
INIT clear one. -/
def Obligations.PendingFlagsAreSetByTickOnly : Prop :=
  ∀ (i : Instr) (s t : State) (src : IrqSource), exec i s = .next t →
    (s.pending src = false → t.pending src = true → (∃ line, i = .tick line) ∧ s.enabled src = true) ∧
    (s.pending src = true → t.pending src = false → i = src.handler ∨ i = .init)

/-- 60_exceptions.md R202 and R203: the priority, and the spec's own inference in R203 ("[derived: from 41_transmit.md
rule R121 to rule R127 and 42_receive.md rule R150 to rule R156]") that an edge and an RX compare are never pending
together, and that the order of two pending handlers changes nothing. -/
def Obligations.HandlerOrderChangesNothing : Prop :=
  (∀ s : State, s.cfg.valid = true → s.fault = none →
    (s.edgePend = true → step s = exec .edge s) ∧
    (s.edgePend = false → s.rxPend = true → step s = exec .rxcmp s) ∧
    (s.edgePend = false → s.rxPend = false → s.txPend = true → step s = exec .txcmp s)) ∧
  (∀ s : State, Invariant s → s.initialized = true →
    ¬ (s.edgePend = true ∧ s.rxPend = true) ∧
    andThen (exec .edge s) (exec .txcmp) = andThen (exec .txcmp s) (exec .edge) ∧
    andThen (exec .rxcmp s) (exec .txcmp) = andThen (exec .txcmp s) (exec .rxcmp))

/-- 60_exceptions.md R207: an instruction that writes 0 to an enable clears the source's pending flag; one that writes 1
does not set it; and the enabled source becomes pending at the first later TICK with its event. -/
def Obligations.DisablingASourceClearsItsPendingFlag : Prop :=
  (∀ (i : Instr) (s t : State) (src : IrqSource), exec i s = .next t →
    (s.enabled src = true → t.enabled src = false → t.pending src = false) ∧
    (s.enabled src = false → t.enabled src = true → t.pending src = true → s.pending src = true)) ∧
  (∀ (line : Bit) (s : State) (src : IrqSource),
    s.initialized = true → s.enabled src = true → s.pending src = false →
    ∃ t, exec (.tick line) s = .next t ∧
      (t.pending src = true ↔
        match src with
        | .edge => s.rxCur = 1#1 ∧ line = 0#1
        | .rx => (s.tcnt + 1) % s.period = s.ocrRx
        | .tx => (s.tcnt + 1) % s.period = s.ocrTx))

/-- 60_exceptions.md R211: a raised fault is recorded, no instruction clears it, and no agent has a step after it. -/
def Obligations.RecordedFaultEndsTheRun : Prop :=
  (∀ (k : FaultKind) (s : State), s.cfg.valid = true →
    ∃ t, raise k s = .next t ∧ t.fault = some k ∧ step t = .fault (.recorded k)) ∧
  (∀ (i : Instr) (s t : State), s.fault ≠ none → exec i s = .next t → t.fault ≠ none)

/-- A host command but INIT reaches neither the counter and the period, nor the RX channel and the edge detector, nor
the receive engine and the slots, and sets or clears no pending flag (60_exceptions.md R213, R214; 10_state.md R22,
R23, R25, R27 to R29, R35 to R39, R41). The TX channel (R24, R26) is not named: SEND, ALARM and DELAY write it. -/
def Obligations.HostCommandsLeaveCounterAndReceiverAlone : Prop :=
  ∀ (i : Instr) (s t : State), i.isHostCommand = true → i ≠ .init → exec i s = .next t →
    t.tcnt = s.tcnt ∧ t.period = s.period ∧ t.ocrRx = s.ocrRx ∧ t.rxIe = s.rxIe ∧ t.edgeIe = s.edgeIe ∧
    t.txPend = s.txPend ∧ t.rxPend = s.rxPend ∧ t.edgePend = s.edgePend ∧ t.rxCur = s.rxCur ∧ t.rxPrev = s.rxPrev ∧
    t.rxState = s.rxState ∧ t.recvShift = s.recvShift ∧ t.recvBits = s.recvBits ∧ t.txd = s.txd ∧
    t.initialized = s.initialized ∧ t.t = s.t ∧ t.rxHead = s.rxHead ∧
    ∀ a, Memory.read t.rxBuf a = Memory.read s.rxBuf a

/-- The two engines share no register but the counter: TXCMP, SEND, ALARM and DELAY leave the receive engine and its
buffer alone, and EDGE, RXCMP, AVAILABLE and RECV leave the transmit engine alone (00_scope.md R1, 60_exceptions.md
R203). -/
def Obligations.EnginesAreIndependent : Prop :=
  ∀ (i : Instr) (s t : State), exec i s = .next t →
    ((i = .txcmp ∨ (∃ b, i = .send b) ∨ (∃ ms, i = .alarm ms) ∨ ∃ ms, i = .delay ms) →
      t.ocrRx = s.ocrRx ∧ t.rxIe = s.rxIe ∧ t.edgeIe = s.edgeIe ∧ t.rxPend = s.rxPend ∧ t.edgePend = s.edgePend ∧
      t.rxState = s.rxState ∧ t.recvShift = s.recvShift ∧ t.recvBits = s.recvBits ∧ t.rxCur = s.rxCur ∧
      t.rxPrev = s.rxPrev ∧ SameBuffer s t ∧ t.tcnt = s.tcnt ∧ t.period = s.period ∧ t.t = s.t) ∧
    ((i = .edge ∨ i = .rxcmp ∨ i = .available ∨ i = .recv) →
      t.ocrTx = s.ocrTx ∧ t.txIe = s.txIe ∧ t.txPend = s.txPend ∧ t.txState = s.txState ∧
      t.sendReady = s.sendReady ∧ t.sendByte = s.sendByte ∧ t.sendBits = s.sendBits ∧ t.delay = s.delay ∧
      t.txd = s.txd ∧ t.tcnt = s.tcnt ∧ t.period = s.period ∧ t.t = s.t ∧ t.hostWait = s.hostWait)

/-! Reset and invariants -/

/-- 70_reset_and_hazards.md R230: the machine starts in a power-up state. The values of the registers that R230 leaves
unspecified are the model's choice (notes/assumptions/4.md, 5.md) and are not stated. -/
def Obligations.ResetIsAPowerUpState : Prop :=
  IsPowerUp State.reset ∧ State.reset.cfg.valid = true

/-- 70_reset_and_hazards.md R231: INIT's word and effect; the three draws are some values below `P`. -/
def Obligations.InitSetsUpTheBlock : Prop :=
  encode .init = 0x01000000#32 ∧
  ∀ (s : State) (P : Nat), P = s.cfg.bitPeriod →
    (s.initialized = true → exec .init s = .next { s with response := none, fault := some .reInit }) ∧
    (s.initialized = false → 0 < P →
      ∃ a b c d : Nat, a < P ∧ b < P ∧ c < P ∧
        exec .init s = .next { s with
          period := P, tcnt := a, ocrTx := b, ocrRx := c,
          txPend := false, rxPend := false, edgePend := false, txIe := false, rxIe := false,
          sendReady := true, txState := .idle, sendByte := 0#8, sendBits := 0#4, delay := 0, txd := 1#1,
          rxState := .waitStart, recvShift := 0#8, recvBits := 0#4,
          available := if s.cfg.rxMode = .unbuffered then false else s.available,
          recvByte := if s.cfg.rxMode = .unbuffered then 0#8 else s.recvByte,
          rxHead := if s.cfg.rxMode = .buffered then 0 else s.rxHead,
          rxTail := if s.cfg.rxMode = .buffered then 0 else s.rxTail,
          hostWait := .none, edgeIe := true, initialized := true, response := none, draws := d })

/-- No rule reads an unspecified register before INIT (70_reset_and_hazards.md R230): INIT takes two power-up states of
one block to states that agree in every register of the timer, the engines and the host interface, and in the registers
of the buffer that is built: the flag and the slot's byte, or the two indices. The slots themselves (INIT does not
write them, R231) and the registers of the mode that is not built (notes/assumptions/17.md) are not compared. The
premise on `draws` is the model's: INIT's draws are equal where as many were drawn before (notes/assumptions/6.md). -/
def Obligations.InitForgetsThePowerUpValues : Prop :=
  ∀ s1 s2 t1 t2 : State, IsPowerUp s1 → IsPowerUp s2 → s1.cfg = s2.cfg → s1.draws = s2.draws →
    exec .init s1 = .next t1 → exec .init s2 = .next t2 →
    { t1 with rxBuf := [], available := false, recvByte := 0#8, rxHead := 0, rxTail := 0, host := [], lines := [],
              turns := [] } =
    { t2 with rxBuf := [], available := false, recvByte := 0#8, rxHead := 0, rxTail := 0, host := [], lines := [],
              turns := [] } ∧
    (s1.cfg.rxMode = .unbuffered → t1.available = t2.available ∧ t1.recvByte = t2.recvByte) ∧
    (s1.cfg.rxMode = .buffered → t1.rxHead = t2.rxHead ∧ t1.rxTail = t2.rxTail) ∧
    t1.availableCount = 0 ∧ t2.availableCount = 0

/-- There is no other reset (70_reset_and_hazards.md R234, 10_state.md R43, R45): once initialized, always
initialized, and the tick count never goes back. -/
def Obligations.NoStepUndoesInit : Prop :=
  ∀ s t : State, step s = .next t → (s.initialized = true → t.initialized = true) ∧ s.t ≤ t.t

/-- The invariant holds at State.reset. -/
def Obligations.InvariantHoldsAtReset : Prop := Invariant State.reset

/-- Every step keeps the invariant: the ranges, 10_state.md R46 to R49, pending only when enabled, the canonical
memory. -/
def Obligations.EveryStepKeepsTheInvariant : Prop :=
  ∀ s t : State, Invariant s → step s = .next t → Invariant t

/-- From the invariant a step never meets an access to a slot that does not exist. -/
def Obligations.InvariantExcludesMissingSlots : Prop :=
  ∀ (s : State) (k : Nat), Invariant s → step s ≠ .fault (.noSuchSlot k)

/-- Every step keeps the queued slots written, so the unspecified contents of `rx_buf` are never read (10_state.md
R41). -/
def Obligations.EveryStepKeepsQueuedSlotsWritten : Prop :=
  ∀ s t : State, Invariant s → QueueWritten s → step s = .next t → QueueWritten t

/-- The spec's own inferences 10_state.md R46, R47, R48 and R49 (each "[derived: ...]"): they hold in every state
reached from a power-up state of a valid configuration, after INIT, whatever the host, the line and the schedule do.
-/
def Obligations.ReachableStatesMeetTheSpecsInvariants : Prop :=
  ∀ s0 s : State, IsPowerUp s0 → s0.cfg.valid = true → Memory.wf s0.rxBuf = true → Reaches s0 s →
    s.initialized = true →
    (s.sendReady = true ↔ s.txState = .idle) ∧
    (s.sendBits ≤ 8#4 ∧ s.recvBits ≤ 8#4 ∧ (1#4 ≤ s.sendBits ↔ s.txState = .dataBits) ∧
      (1#4 ≤ s.recvBits ↔ s.rxState = .dataBits)) ∧
    ((s.txState = .idle → s.txIe = false ∧ s.txPend = false) ∧ (s.txState ≠ .idle → s.txIe = true)) ∧
    ((s.edgeIe = true ↔ s.rxIe = false) ∧ (s.edgeIe = true → s.rxState = .waitStart))

/-- A settled TICK is some of the machine's own steps: with no host step enabled, the TICK with ENV's line value
(40_timer.md R110: `txd` in loopback, else a given or a free one, notes/assumptions/8.md) and the handler runs it makes
pending are the next one to four steps; and unless a fault was raised they end settled, where the next such TICK can
follow. -/
def Obligations.SettledTickIsMachineSteps : Prop :=
  ∀ s t : State, s.cfg.valid = true → Settled s → s.hostEnabled = false →
    ((s.cfg.loopback = true ∧ afterTick s.txd s = .next t) ∨
     (s.cfg.loopback = false ∧ ∃ line rest, s.lines = line :: rest ∧ afterTick line { s with lines := rest } = .next t) ∨
     (s.cfg.loopback = false ∧ s.lines = [] ∧
       afterTick (Config.freeLine s.draws) { s with draws := s.draws + 1 } = .next t)) →
    (∃ k, 1 ≤ k ∧ k ≤ 4 ∧ Sys2Proof.core.run k s = .next t) ∧ (t.fault = none → Settled t)
end

