-- ==== Sys2Proof/Laws/State.lean ====
section
/-! SUPPORT. What each named update of the state does to each field: one lemma per field and update, so that no proof
unfolds an update. The proofs are written `(rfl)`, not `rfl`, so that simp rewrites with them under the condition of an
`if` as with any equation, its decidability included. -/

namespace Sys2Proof.Machine

/-! `State.respond` writes `response`. -/

@[simp] theorem State.respond_cfg (s : State) (v : Half) : (s.respond v).cfg = s.cfg := (rfl)
@[simp] theorem State.respond_tcnt (s : State) (v : Half) : (s.respond v).tcnt = s.tcnt := (rfl)
@[simp] theorem State.respond_period (s : State) (v : Half) : (s.respond v).period = s.period := (rfl)
@[simp] theorem State.respond_ocrTx (s : State) (v : Half) : (s.respond v).ocrTx = s.ocrTx := (rfl)
@[simp] theorem State.respond_ocrRx (s : State) (v : Half) : (s.respond v).ocrRx = s.ocrRx := (rfl)
@[simp] theorem State.respond_txIe (s : State) (v : Half) : (s.respond v).txIe = s.txIe := (rfl)
@[simp] theorem State.respond_rxIe (s : State) (v : Half) : (s.respond v).rxIe = s.rxIe := (rfl)
@[simp] theorem State.respond_edgeIe (s : State) (v : Half) : (s.respond v).edgeIe = s.edgeIe := (rfl)
@[simp] theorem State.respond_txPend (s : State) (v : Half) : (s.respond v).txPend = s.txPend := (rfl)
@[simp] theorem State.respond_rxPend (s : State) (v : Half) : (s.respond v).rxPend = s.rxPend := (rfl)
@[simp] theorem State.respond_edgePend (s : State) (v : Half) : (s.respond v).edgePend = s.edgePend := (rfl)
@[simp] theorem State.respond_txState (s : State) (v : Half) : (s.respond v).txState = s.txState := (rfl)
@[simp] theorem State.respond_sendReady (s : State) (v : Half) : (s.respond v).sendReady = s.sendReady := (rfl)
@[simp] theorem State.respond_sendByte (s : State) (v : Half) : (s.respond v).sendByte = s.sendByte := (rfl)
@[simp] theorem State.respond_sendBits (s : State) (v : Half) : (s.respond v).sendBits = s.sendBits := (rfl)
@[simp] theorem State.respond_delay (s : State) (v : Half) : (s.respond v).delay = s.delay := (rfl)
@[simp] theorem State.respond_txd (s : State) (v : Half) : (s.respond v).txd = s.txd := (rfl)
@[simp] theorem State.respond_rxState (s : State) (v : Half) : (s.respond v).rxState = s.rxState := (rfl)
@[simp] theorem State.respond_rxCur (s : State) (v : Half) : (s.respond v).rxCur = s.rxCur := (rfl)
@[simp] theorem State.respond_rxPrev (s : State) (v : Half) : (s.respond v).rxPrev = s.rxPrev := (rfl)
@[simp] theorem State.respond_recvShift (s : State) (v : Half) : (s.respond v).recvShift = s.recvShift := (rfl)
@[simp] theorem State.respond_recvBits (s : State) (v : Half) : (s.respond v).recvBits = s.recvBits := (rfl)
@[simp] theorem State.respond_available (s : State) (v : Half) : (s.respond v).available = s.available := (rfl)
@[simp] theorem State.respond_recvByte (s : State) (v : Half) : (s.respond v).recvByte = s.recvByte := (rfl)
@[simp] theorem State.respond_rxBuf (s : State) (v : Half) : (s.respond v).rxBuf = s.rxBuf := (rfl)
@[simp] theorem State.respond_rxHead (s : State) (v : Half) : (s.respond v).rxHead = s.rxHead := (rfl)
@[simp] theorem State.respond_rxTail (s : State) (v : Half) : (s.respond v).rxTail = s.rxTail := (rfl)
@[simp] theorem State.respond_hostWait (s : State) (v : Half) : (s.respond v).hostWait = s.hostWait := (rfl)
@[simp] theorem State.respond_initialized (s : State) (v : Half) : (s.respond v).initialized = s.initialized := (rfl)
@[simp] theorem State.respond_fault (s : State) (v : Half) : (s.respond v).fault = s.fault := (rfl)
@[simp] theorem State.respond_t (s : State) (v : Half) : (s.respond v).t = s.t := (rfl)
@[simp] theorem State.respond_response (s : State) (v : Half) : (s.respond v).response = some v := (rfl)
@[simp] theorem State.respond_host (s : State) (v : Half) : (s.respond v).host = s.host := (rfl)
@[simp] theorem State.respond_lines (s : State) (v : Half) : (s.respond v).lines = s.lines := (rfl)
@[simp] theorem State.respond_turns (s : State) (v : Half) : (s.respond v).turns = s.turns := (rfl)
@[simp] theorem State.respond_draws (s : State) (v : Half) : (s.respond v).draws = s.draws := (rfl)

/-! `State.respondNothing` clears `response`. -/

@[simp] theorem State.respondNothing_cfg (s : State) : (s.respondNothing).cfg = s.cfg := (rfl)
@[simp] theorem State.respondNothing_tcnt (s : State) : (s.respondNothing).tcnt = s.tcnt := (rfl)
@[simp] theorem State.respondNothing_period (s : State) : (s.respondNothing).period = s.period := (rfl)
@[simp] theorem State.respondNothing_ocrTx (s : State) : (s.respondNothing).ocrTx = s.ocrTx := (rfl)
@[simp] theorem State.respondNothing_ocrRx (s : State) : (s.respondNothing).ocrRx = s.ocrRx := (rfl)
@[simp] theorem State.respondNothing_txIe (s : State) : (s.respondNothing).txIe = s.txIe := (rfl)
@[simp] theorem State.respondNothing_rxIe (s : State) : (s.respondNothing).rxIe = s.rxIe := (rfl)
@[simp] theorem State.respondNothing_edgeIe (s : State) : (s.respondNothing).edgeIe = s.edgeIe := (rfl)
@[simp] theorem State.respondNothing_txPend (s : State) : (s.respondNothing).txPend = s.txPend := (rfl)
@[simp] theorem State.respondNothing_rxPend (s : State) : (s.respondNothing).rxPend = s.rxPend := (rfl)
@[simp] theorem State.respondNothing_edgePend (s : State) : (s.respondNothing).edgePend = s.edgePend := (rfl)
@[simp] theorem State.respondNothing_txState (s : State) : (s.respondNothing).txState = s.txState := (rfl)
@[simp] theorem State.respondNothing_sendReady (s : State) : (s.respondNothing).sendReady = s.sendReady := (rfl)
@[simp] theorem State.respondNothing_sendByte (s : State) : (s.respondNothing).sendByte = s.sendByte := (rfl)
@[simp] theorem State.respondNothing_sendBits (s : State) : (s.respondNothing).sendBits = s.sendBits := (rfl)
@[simp] theorem State.respondNothing_delay (s : State) : (s.respondNothing).delay = s.delay := (rfl)
@[simp] theorem State.respondNothing_txd (s : State) : (s.respondNothing).txd = s.txd := (rfl)
@[simp] theorem State.respondNothing_rxState (s : State) : (s.respondNothing).rxState = s.rxState := (rfl)
@[simp] theorem State.respondNothing_rxCur (s : State) : (s.respondNothing).rxCur = s.rxCur := (rfl)
@[simp] theorem State.respondNothing_rxPrev (s : State) : (s.respondNothing).rxPrev = s.rxPrev := (rfl)
@[simp] theorem State.respondNothing_recvShift (s : State) : (s.respondNothing).recvShift = s.recvShift := (rfl)
@[simp] theorem State.respondNothing_recvBits (s : State) : (s.respondNothing).recvBits = s.recvBits := (rfl)
@[simp] theorem State.respondNothing_available (s : State) : (s.respondNothing).available = s.available := (rfl)
@[simp] theorem State.respondNothing_recvByte (s : State) : (s.respondNothing).recvByte = s.recvByte := (rfl)
@[simp] theorem State.respondNothing_rxBuf (s : State) : (s.respondNothing).rxBuf = s.rxBuf := (rfl)
@[simp] theorem State.respondNothing_rxHead (s : State) : (s.respondNothing).rxHead = s.rxHead := (rfl)
@[simp] theorem State.respondNothing_rxTail (s : State) : (s.respondNothing).rxTail = s.rxTail := (rfl)
@[simp] theorem State.respondNothing_hostWait (s : State) : (s.respondNothing).hostWait = s.hostWait := (rfl)
@[simp] theorem State.respondNothing_initialized (s : State) : (s.respondNothing).initialized = s.initialized := (rfl)
@[simp] theorem State.respondNothing_fault (s : State) : (s.respondNothing).fault = s.fault := (rfl)
@[simp] theorem State.respondNothing_t (s : State) : (s.respondNothing).t = s.t := (rfl)
@[simp] theorem State.respondNothing_response (s : State) : (s.respondNothing).response = none := (rfl)
@[simp] theorem State.respondNothing_host (s : State) : (s.respondNothing).host = s.host := (rfl)
@[simp] theorem State.respondNothing_lines (s : State) : (s.respondNothing).lines = s.lines := (rfl)
@[simp] theorem State.respondNothing_turns (s : State) : (s.respondNothing).turns = s.turns := (rfl)
@[simp] theorem State.respondNothing_draws (s : State) : (s.respondNothing).draws = s.draws := (rfl)

/-! `State.memWrite` writes one slot. -/

@[simp] theorem State.memWrite_cfg (s : State) (i : Nat) (v : Byte) : (s.memWrite i v).cfg = s.cfg := (rfl)
@[simp] theorem State.memWrite_tcnt (s : State) (i : Nat) (v : Byte) : (s.memWrite i v).tcnt = s.tcnt := (rfl)
@[simp] theorem State.memWrite_period (s : State) (i : Nat) (v : Byte) : (s.memWrite i v).period = s.period := (rfl)
@[simp] theorem State.memWrite_ocrTx (s : State) (i : Nat) (v : Byte) : (s.memWrite i v).ocrTx = s.ocrTx := (rfl)
@[simp] theorem State.memWrite_ocrRx (s : State) (i : Nat) (v : Byte) : (s.memWrite i v).ocrRx = s.ocrRx := (rfl)
@[simp] theorem State.memWrite_txIe (s : State) (i : Nat) (v : Byte) : (s.memWrite i v).txIe = s.txIe := (rfl)
@[simp] theorem State.memWrite_rxIe (s : State) (i : Nat) (v : Byte) : (s.memWrite i v).rxIe = s.rxIe := (rfl)
@[simp] theorem State.memWrite_edgeIe (s : State) (i : Nat) (v : Byte) : (s.memWrite i v).edgeIe = s.edgeIe := (rfl)
@[simp] theorem State.memWrite_txPend (s : State) (i : Nat) (v : Byte) : (s.memWrite i v).txPend = s.txPend := (rfl)
@[simp] theorem State.memWrite_rxPend (s : State) (i : Nat) (v : Byte) : (s.memWrite i v).rxPend = s.rxPend := (rfl)
@[simp] theorem State.memWrite_edgePend (s : State) (i : Nat) (v : Byte) : (s.memWrite i v).edgePend = s.edgePend := (rfl)
@[simp] theorem State.memWrite_txState (s : State) (i : Nat) (v : Byte) : (s.memWrite i v).txState = s.txState := (rfl)
@[simp] theorem State.memWrite_sendReady (s : State) (i : Nat) (v : Byte) : (s.memWrite i v).sendReady = s.sendReady := (rfl)
@[simp] theorem State.memWrite_sendByte (s : State) (i : Nat) (v : Byte) : (s.memWrite i v).sendByte = s.sendByte := (rfl)
@[simp] theorem State.memWrite_sendBits (s : State) (i : Nat) (v : Byte) : (s.memWrite i v).sendBits = s.sendBits := (rfl)
@[simp] theorem State.memWrite_delay (s : State) (i : Nat) (v : Byte) : (s.memWrite i v).delay = s.delay := (rfl)
@[simp] theorem State.memWrite_txd (s : State) (i : Nat) (v : Byte) : (s.memWrite i v).txd = s.txd := (rfl)
@[simp] theorem State.memWrite_rxState (s : State) (i : Nat) (v : Byte) : (s.memWrite i v).rxState = s.rxState := (rfl)
@[simp] theorem State.memWrite_rxCur (s : State) (i : Nat) (v : Byte) : (s.memWrite i v).rxCur = s.rxCur := (rfl)
@[simp] theorem State.memWrite_rxPrev (s : State) (i : Nat) (v : Byte) : (s.memWrite i v).rxPrev = s.rxPrev := (rfl)
@[simp] theorem State.memWrite_recvShift (s : State) (i : Nat) (v : Byte) : (s.memWrite i v).recvShift = s.recvShift := (rfl)
@[simp] theorem State.memWrite_recvBits (s : State) (i : Nat) (v : Byte) : (s.memWrite i v).recvBits = s.recvBits := (rfl)
@[simp] theorem State.memWrite_available (s : State) (i : Nat) (v : Byte) : (s.memWrite i v).available = s.available := (rfl)
@[simp] theorem State.memWrite_recvByte (s : State) (i : Nat) (v : Byte) : (s.memWrite i v).recvByte = s.recvByte := (rfl)
@[simp] theorem State.memWrite_rxBuf (s : State) (i : Nat) (v : Byte) : (s.memWrite i v).rxBuf = s.rxBuf.write i v := (rfl)
@[simp] theorem State.memWrite_rxHead (s : State) (i : Nat) (v : Byte) : (s.memWrite i v).rxHead = s.rxHead := (rfl)
@[simp] theorem State.memWrite_rxTail (s : State) (i : Nat) (v : Byte) : (s.memWrite i v).rxTail = s.rxTail := (rfl)
@[simp] theorem State.memWrite_hostWait (s : State) (i : Nat) (v : Byte) : (s.memWrite i v).hostWait = s.hostWait := (rfl)
@[simp] theorem State.memWrite_initialized (s : State) (i : Nat) (v : Byte) : (s.memWrite i v).initialized = s.initialized := (rfl)
@[simp] theorem State.memWrite_fault (s : State) (i : Nat) (v : Byte) : (s.memWrite i v).fault = s.fault := (rfl)
@[simp] theorem State.memWrite_t (s : State) (i : Nat) (v : Byte) : (s.memWrite i v).t = s.t := (rfl)
@[simp] theorem State.memWrite_response (s : State) (i : Nat) (v : Byte) : (s.memWrite i v).response = s.response := (rfl)
@[simp] theorem State.memWrite_host (s : State) (i : Nat) (v : Byte) : (s.memWrite i v).host = s.host := (rfl)
@[simp] theorem State.memWrite_lines (s : State) (i : Nat) (v : Byte) : (s.memWrite i v).lines = s.lines := (rfl)
@[simp] theorem State.memWrite_turns (s : State) (i : Nat) (v : Byte) : (s.memWrite i v).turns = s.turns := (rfl)
@[simp] theorem State.memWrite_draws (s : State) (i : Nat) (v : Byte) : (s.memWrite i v).draws = s.draws := (rfl)

/-! `State.clearPending` clears one pending flag. -/

@[simp] theorem State.clearPending_cfg (s : State) (src : IrqSource) : (s.clearPending src).cfg = s.cfg := by cases src <;> rfl
@[simp] theorem State.clearPending_tcnt (s : State) (src : IrqSource) : (s.clearPending src).tcnt = s.tcnt := by cases src <;> rfl
@[simp] theorem State.clearPending_period (s : State) (src : IrqSource) : (s.clearPending src).period = s.period := by cases src <;> rfl
@[simp] theorem State.clearPending_ocrTx (s : State) (src : IrqSource) : (s.clearPending src).ocrTx = s.ocrTx := by cases src <;> rfl
@[simp] theorem State.clearPending_ocrRx (s : State) (src : IrqSource) : (s.clearPending src).ocrRx = s.ocrRx := by cases src <;> rfl
@[simp] theorem State.clearPending_txIe (s : State) (src : IrqSource) : (s.clearPending src).txIe = s.txIe := by cases src <;> rfl
@[simp] theorem State.clearPending_rxIe (s : State) (src : IrqSource) : (s.clearPending src).rxIe = s.rxIe := by cases src <;> rfl
@[simp] theorem State.clearPending_edgeIe (s : State) (src : IrqSource) : (s.clearPending src).edgeIe = s.edgeIe := by cases src <;> rfl
@[simp] theorem State.clearPending_edge_txPend (s : State) : (s.clearPending .edge).txPend = s.txPend := (rfl)
@[simp] theorem State.clearPending_rx_txPend (s : State) : (s.clearPending .rx).txPend = s.txPend := (rfl)
@[simp] theorem State.clearPending_tx_txPend (s : State) : (s.clearPending .tx).txPend = false := (rfl)
@[simp] theorem State.clearPending_edge_rxPend (s : State) : (s.clearPending .edge).rxPend = s.rxPend := (rfl)
@[simp] theorem State.clearPending_rx_rxPend (s : State) : (s.clearPending .rx).rxPend = false := (rfl)
@[simp] theorem State.clearPending_tx_rxPend (s : State) : (s.clearPending .tx).rxPend = s.rxPend := (rfl)
@[simp] theorem State.clearPending_edge_edgePend (s : State) : (s.clearPending .edge).edgePend = false := (rfl)
@[simp] theorem State.clearPending_rx_edgePend (s : State) : (s.clearPending .rx).edgePend = s.edgePend := (rfl)
@[simp] theorem State.clearPending_tx_edgePend (s : State) : (s.clearPending .tx).edgePend = s.edgePend := (rfl)
@[simp] theorem State.clearPending_txState (s : State) (src : IrqSource) : (s.clearPending src).txState = s.txState := by cases src <;> rfl
@[simp] theorem State.clearPending_sendReady (s : State) (src : IrqSource) : (s.clearPending src).sendReady = s.sendReady := by cases src <;> rfl
@[simp] theorem State.clearPending_sendByte (s : State) (src : IrqSource) : (s.clearPending src).sendByte = s.sendByte := by cases src <;> rfl
@[simp] theorem State.clearPending_sendBits (s : State) (src : IrqSource) : (s.clearPending src).sendBits = s.sendBits := by cases src <;> rfl
@[simp] theorem State.clearPending_delay (s : State) (src : IrqSource) : (s.clearPending src).delay = s.delay := by cases src <;> rfl
@[simp] theorem State.clearPending_txd (s : State) (src : IrqSource) : (s.clearPending src).txd = s.txd := by cases src <;> rfl
@[simp] theorem State.clearPending_rxState (s : State) (src : IrqSource) : (s.clearPending src).rxState = s.rxState := by cases src <;> rfl
@[simp] theorem State.clearPending_rxCur (s : State) (src : IrqSource) : (s.clearPending src).rxCur = s.rxCur := by cases src <;> rfl
@[simp] theorem State.clearPending_rxPrev (s : State) (src : IrqSource) : (s.clearPending src).rxPrev = s.rxPrev := by cases src <;> rfl
@[simp] theorem State.clearPending_recvShift (s : State) (src : IrqSource) : (s.clearPending src).recvShift = s.recvShift := by cases src <;> rfl
@[simp] theorem State.clearPending_recvBits (s : State) (src : IrqSource) : (s.clearPending src).recvBits = s.recvBits := by cases src <;> rfl
@[simp] theorem State.clearPending_available (s : State) (src : IrqSource) : (s.clearPending src).available = s.available := by cases src <;> rfl
@[simp] theorem State.clearPending_recvByte (s : State) (src : IrqSource) : (s.clearPending src).recvByte = s.recvByte := by cases src <;> rfl
@[simp] theorem State.clearPending_rxBuf (s : State) (src : IrqSource) : (s.clearPending src).rxBuf = s.rxBuf := by cases src <;> rfl
@[simp] theorem State.clearPending_rxHead (s : State) (src : IrqSource) : (s.clearPending src).rxHead = s.rxHead := by cases src <;> rfl
@[simp] theorem State.clearPending_rxTail (s : State) (src : IrqSource) : (s.clearPending src).rxTail = s.rxTail := by cases src <;> rfl
@[simp] theorem State.clearPending_hostWait (s : State) (src : IrqSource) : (s.clearPending src).hostWait = s.hostWait := by cases src <;> rfl
@[simp] theorem State.clearPending_initialized (s : State) (src : IrqSource) : (s.clearPending src).initialized = s.initialized := by cases src <;> rfl
@[simp] theorem State.clearPending_fault (s : State) (src : IrqSource) : (s.clearPending src).fault = s.fault := by cases src <;> rfl
@[simp] theorem State.clearPending_t (s : State) (src : IrqSource) : (s.clearPending src).t = s.t := by cases src <;> rfl
@[simp] theorem State.clearPending_response (s : State) (src : IrqSource) : (s.clearPending src).response = s.response := by cases src <;> rfl
@[simp] theorem State.clearPending_host (s : State) (src : IrqSource) : (s.clearPending src).host = s.host := by cases src <;> rfl
@[simp] theorem State.clearPending_lines (s : State) (src : IrqSource) : (s.clearPending src).lines = s.lines := by cases src <;> rfl
@[simp] theorem State.clearPending_turns (s : State) (src : IrqSource) : (s.clearPending src).turns = s.turns := by cases src <;> rfl
@[simp] theorem State.clearPending_draws (s : State) (src : IrqSource) : (s.clearPending src).draws = s.draws := by cases src <;> rfl

/-! `State.setPending` sets one pending flag. -/

@[simp] theorem State.setPending_cfg (s : State) (src : IrqSource) : (s.setPending src).cfg = s.cfg := by cases src <;> rfl
@[simp] theorem State.setPending_tcnt (s : State) (src : IrqSource) : (s.setPending src).tcnt = s.tcnt := by cases src <;> rfl
@[simp] theorem State.setPending_period (s : State) (src : IrqSource) : (s.setPending src).period = s.period := by cases src <;> rfl
@[simp] theorem State.setPending_ocrTx (s : State) (src : IrqSource) : (s.setPending src).ocrTx = s.ocrTx := by cases src <;> rfl
@[simp] theorem State.setPending_ocrRx (s : State) (src : IrqSource) : (s.setPending src).ocrRx = s.ocrRx := by cases src <;> rfl
@[simp] theorem State.setPending_txIe (s : State) (src : IrqSource) : (s.setPending src).txIe = s.txIe := by cases src <;> rfl
@[simp] theorem State.setPending_rxIe (s : State) (src : IrqSource) : (s.setPending src).rxIe = s.rxIe := by cases src <;> rfl
@[simp] theorem State.setPending_edgeIe (s : State) (src : IrqSource) : (s.setPending src).edgeIe = s.edgeIe := by cases src <;> rfl
@[simp] theorem State.setPending_edge_txPend (s : State) : (s.setPending .edge).txPend = s.txPend := (rfl)
@[simp] theorem State.setPending_rx_txPend (s : State) : (s.setPending .rx).txPend = s.txPend := (rfl)
@[simp] theorem State.setPending_tx_txPend (s : State) : (s.setPending .tx).txPend = true := (rfl)
@[simp] theorem State.setPending_edge_rxPend (s : State) : (s.setPending .edge).rxPend = s.rxPend := (rfl)
@[simp] theorem State.setPending_rx_rxPend (s : State) : (s.setPending .rx).rxPend = true := (rfl)
@[simp] theorem State.setPending_tx_rxPend (s : State) : (s.setPending .tx).rxPend = s.rxPend := (rfl)
@[simp] theorem State.setPending_edge_edgePend (s : State) : (s.setPending .edge).edgePend = true := (rfl)
@[simp] theorem State.setPending_rx_edgePend (s : State) : (s.setPending .rx).edgePend = s.edgePend := (rfl)
@[simp] theorem State.setPending_tx_edgePend (s : State) : (s.setPending .tx).edgePend = s.edgePend := (rfl)
@[simp] theorem State.setPending_txState (s : State) (src : IrqSource) : (s.setPending src).txState = s.txState := by cases src <;> rfl
@[simp] theorem State.setPending_sendReady (s : State) (src : IrqSource) : (s.setPending src).sendReady = s.sendReady := by cases src <;> rfl
@[simp] theorem State.setPending_sendByte (s : State) (src : IrqSource) : (s.setPending src).sendByte = s.sendByte := by cases src <;> rfl
@[simp] theorem State.setPending_sendBits (s : State) (src : IrqSource) : (s.setPending src).sendBits = s.sendBits := by cases src <;> rfl
@[simp] theorem State.setPending_delay (s : State) (src : IrqSource) : (s.setPending src).delay = s.delay := by cases src <;> rfl
@[simp] theorem State.setPending_txd (s : State) (src : IrqSource) : (s.setPending src).txd = s.txd := by cases src <;> rfl
@[simp] theorem State.setPending_rxState (s : State) (src : IrqSource) : (s.setPending src).rxState = s.rxState := by cases src <;> rfl
@[simp] theorem State.setPending_rxCur (s : State) (src : IrqSource) : (s.setPending src).rxCur = s.rxCur := by cases src <;> rfl
@[simp] theorem State.setPending_rxPrev (s : State) (src : IrqSource) : (s.setPending src).rxPrev = s.rxPrev := by cases src <;> rfl
@[simp] theorem State.setPending_recvShift (s : State) (src : IrqSource) : (s.setPending src).recvShift = s.recvShift := by cases src <;> rfl
@[simp] theorem State.setPending_recvBits (s : State) (src : IrqSource) : (s.setPending src).recvBits = s.recvBits := by cases src <;> rfl
@[simp] theorem State.setPending_available (s : State) (src : IrqSource) : (s.setPending src).available = s.available := by cases src <;> rfl
@[simp] theorem State.setPending_recvByte (s : State) (src : IrqSource) : (s.setPending src).recvByte = s.recvByte := by cases src <;> rfl
@[simp] theorem State.setPending_rxBuf (s : State) (src : IrqSource) : (s.setPending src).rxBuf = s.rxBuf := by cases src <;> rfl
@[simp] theorem State.setPending_rxHead (s : State) (src : IrqSource) : (s.setPending src).rxHead = s.rxHead := by cases src <;> rfl
@[simp] theorem State.setPending_rxTail (s : State) (src : IrqSource) : (s.setPending src).rxTail = s.rxTail := by cases src <;> rfl
@[simp] theorem State.setPending_hostWait (s : State) (src : IrqSource) : (s.setPending src).hostWait = s.hostWait := by cases src <;> rfl
@[simp] theorem State.setPending_initialized (s : State) (src : IrqSource) : (s.setPending src).initialized = s.initialized := by cases src <;> rfl
@[simp] theorem State.setPending_fault (s : State) (src : IrqSource) : (s.setPending src).fault = s.fault := by cases src <;> rfl
@[simp] theorem State.setPending_t (s : State) (src : IrqSource) : (s.setPending src).t = s.t := by cases src <;> rfl
@[simp] theorem State.setPending_response (s : State) (src : IrqSource) : (s.setPending src).response = s.response := by cases src <;> rfl
@[simp] theorem State.setPending_host (s : State) (src : IrqSource) : (s.setPending src).host = s.host := by cases src <;> rfl
@[simp] theorem State.setPending_lines (s : State) (src : IrqSource) : (s.setPending src).lines = s.lines := by cases src <;> rfl
@[simp] theorem State.setPending_turns (s : State) (src : IrqSource) : (s.setPending src).turns = s.turns := by cases src <;> rfl
@[simp] theorem State.setPending_draws (s : State) (src : IrqSource) : (s.setPending src).draws = s.draws := by cases src <;> rfl

/-! `State.enable` sets one enable. -/

@[simp] theorem State.enable_cfg (s : State) (src : IrqSource) : (s.enable src).cfg = s.cfg := by cases src <;> rfl
@[simp] theorem State.enable_tcnt (s : State) (src : IrqSource) : (s.enable src).tcnt = s.tcnt := by cases src <;> rfl
@[simp] theorem State.enable_period (s : State) (src : IrqSource) : (s.enable src).period = s.period := by cases src <;> rfl
@[simp] theorem State.enable_ocrTx (s : State) (src : IrqSource) : (s.enable src).ocrTx = s.ocrTx := by cases src <;> rfl
@[simp] theorem State.enable_ocrRx (s : State) (src : IrqSource) : (s.enable src).ocrRx = s.ocrRx := by cases src <;> rfl
@[simp] theorem State.enable_edge_txIe (s : State) : (s.enable .edge).txIe = s.txIe := (rfl)
@[simp] theorem State.enable_rx_txIe (s : State) : (s.enable .rx).txIe = s.txIe := (rfl)
@[simp] theorem State.enable_tx_txIe (s : State) : (s.enable .tx).txIe = true := (rfl)
@[simp] theorem State.enable_edge_rxIe (s : State) : (s.enable .edge).rxIe = s.rxIe := (rfl)
@[simp] theorem State.enable_rx_rxIe (s : State) : (s.enable .rx).rxIe = true := (rfl)
@[simp] theorem State.enable_tx_rxIe (s : State) : (s.enable .tx).rxIe = s.rxIe := (rfl)
@[simp] theorem State.enable_edge_edgeIe (s : State) : (s.enable .edge).edgeIe = true := (rfl)
@[simp] theorem State.enable_rx_edgeIe (s : State) : (s.enable .rx).edgeIe = s.edgeIe := (rfl)
@[simp] theorem State.enable_tx_edgeIe (s : State) : (s.enable .tx).edgeIe = s.edgeIe := (rfl)
@[simp] theorem State.enable_txPend (s : State) (src : IrqSource) : (s.enable src).txPend = s.txPend := by cases src <;> rfl
@[simp] theorem State.enable_rxPend (s : State) (src : IrqSource) : (s.enable src).rxPend = s.rxPend := by cases src <;> rfl
@[simp] theorem State.enable_edgePend (s : State) (src : IrqSource) : (s.enable src).edgePend = s.edgePend := by cases src <;> rfl
@[simp] theorem State.enable_txState (s : State) (src : IrqSource) : (s.enable src).txState = s.txState := by cases src <;> rfl
@[simp] theorem State.enable_sendReady (s : State) (src : IrqSource) : (s.enable src).sendReady = s.sendReady := by cases src <;> rfl
@[simp] theorem State.enable_sendByte (s : State) (src : IrqSource) : (s.enable src).sendByte = s.sendByte := by cases src <;> rfl
@[simp] theorem State.enable_sendBits (s : State) (src : IrqSource) : (s.enable src).sendBits = s.sendBits := by cases src <;> rfl
@[simp] theorem State.enable_delay (s : State) (src : IrqSource) : (s.enable src).delay = s.delay := by cases src <;> rfl
@[simp] theorem State.enable_txd (s : State) (src : IrqSource) : (s.enable src).txd = s.txd := by cases src <;> rfl
@[simp] theorem State.enable_rxState (s : State) (src : IrqSource) : (s.enable src).rxState = s.rxState := by cases src <;> rfl
@[simp] theorem State.enable_rxCur (s : State) (src : IrqSource) : (s.enable src).rxCur = s.rxCur := by cases src <;> rfl
@[simp] theorem State.enable_rxPrev (s : State) (src : IrqSource) : (s.enable src).rxPrev = s.rxPrev := by cases src <;> rfl
@[simp] theorem State.enable_recvShift (s : State) (src : IrqSource) : (s.enable src).recvShift = s.recvShift := by cases src <;> rfl
@[simp] theorem State.enable_recvBits (s : State) (src : IrqSource) : (s.enable src).recvBits = s.recvBits := by cases src <;> rfl
@[simp] theorem State.enable_available (s : State) (src : IrqSource) : (s.enable src).available = s.available := by cases src <;> rfl
@[simp] theorem State.enable_recvByte (s : State) (src : IrqSource) : (s.enable src).recvByte = s.recvByte := by cases src <;> rfl
@[simp] theorem State.enable_rxBuf (s : State) (src : IrqSource) : (s.enable src).rxBuf = s.rxBuf := by cases src <;> rfl
@[simp] theorem State.enable_rxHead (s : State) (src : IrqSource) : (s.enable src).rxHead = s.rxHead := by cases src <;> rfl
@[simp] theorem State.enable_rxTail (s : State) (src : IrqSource) : (s.enable src).rxTail = s.rxTail := by cases src <;> rfl
@[simp] theorem State.enable_hostWait (s : State) (src : IrqSource) : (s.enable src).hostWait = s.hostWait := by cases src <;> rfl
@[simp] theorem State.enable_initialized (s : State) (src : IrqSource) : (s.enable src).initialized = s.initialized := by cases src <;> rfl
@[simp] theorem State.enable_fault (s : State) (src : IrqSource) : (s.enable src).fault = s.fault := by cases src <;> rfl
@[simp] theorem State.enable_t (s : State) (src : IrqSource) : (s.enable src).t = s.t := by cases src <;> rfl
@[simp] theorem State.enable_response (s : State) (src : IrqSource) : (s.enable src).response = s.response := by cases src <;> rfl
@[simp] theorem State.enable_host (s : State) (src : IrqSource) : (s.enable src).host = s.host := by cases src <;> rfl
@[simp] theorem State.enable_lines (s : State) (src : IrqSource) : (s.enable src).lines = s.lines := by cases src <;> rfl
@[simp] theorem State.enable_turns (s : State) (src : IrqSource) : (s.enable src).turns = s.turns := by cases src <;> rfl
@[simp] theorem State.enable_draws (s : State) (src : IrqSource) : (s.enable src).draws = s.draws := by cases src <;> rfl

/-! `State.disable` clears one enable and its pending flag. -/

@[simp] theorem State.disable_cfg (s : State) (src : IrqSource) : (s.disable src).cfg = s.cfg := by cases src <;> rfl
@[simp] theorem State.disable_tcnt (s : State) (src : IrqSource) : (s.disable src).tcnt = s.tcnt := by cases src <;> rfl
@[simp] theorem State.disable_period (s : State) (src : IrqSource) : (s.disable src).period = s.period := by cases src <;> rfl
@[simp] theorem State.disable_ocrTx (s : State) (src : IrqSource) : (s.disable src).ocrTx = s.ocrTx := by cases src <;> rfl
@[simp] theorem State.disable_ocrRx (s : State) (src : IrqSource) : (s.disable src).ocrRx = s.ocrRx := by cases src <;> rfl
@[simp] theorem State.disable_edge_txIe (s : State) : (s.disable .edge).txIe = s.txIe := (rfl)
@[simp] theorem State.disable_rx_txIe (s : State) : (s.disable .rx).txIe = s.txIe := (rfl)
@[simp] theorem State.disable_tx_txIe (s : State) : (s.disable .tx).txIe = false := (rfl)
@[simp] theorem State.disable_edge_rxIe (s : State) : (s.disable .edge).rxIe = s.rxIe := (rfl)
@[simp] theorem State.disable_rx_rxIe (s : State) : (s.disable .rx).rxIe = false := (rfl)
@[simp] theorem State.disable_tx_rxIe (s : State) : (s.disable .tx).rxIe = s.rxIe := (rfl)
@[simp] theorem State.disable_edge_edgeIe (s : State) : (s.disable .edge).edgeIe = false := (rfl)
@[simp] theorem State.disable_rx_edgeIe (s : State) : (s.disable .rx).edgeIe = s.edgeIe := (rfl)
@[simp] theorem State.disable_tx_edgeIe (s : State) : (s.disable .tx).edgeIe = s.edgeIe := (rfl)
@[simp] theorem State.disable_edge_txPend (s : State) : (s.disable .edge).txPend = s.txPend := (rfl)
@[simp] theorem State.disable_rx_txPend (s : State) : (s.disable .rx).txPend = s.txPend := (rfl)
@[simp] theorem State.disable_tx_txPend (s : State) : (s.disable .tx).txPend = false := (rfl)
@[simp] theorem State.disable_edge_rxPend (s : State) : (s.disable .edge).rxPend = s.rxPend := (rfl)
@[simp] theorem State.disable_rx_rxPend (s : State) : (s.disable .rx).rxPend = false := (rfl)
@[simp] theorem State.disable_tx_rxPend (s : State) : (s.disable .tx).rxPend = s.rxPend := (rfl)
@[simp] theorem State.disable_edge_edgePend (s : State) : (s.disable .edge).edgePend = false := (rfl)
@[simp] theorem State.disable_rx_edgePend (s : State) : (s.disable .rx).edgePend = s.edgePend := (rfl)
@[simp] theorem State.disable_tx_edgePend (s : State) : (s.disable .tx).edgePend = s.edgePend := (rfl)
@[simp] theorem State.disable_txState (s : State) (src : IrqSource) : (s.disable src).txState = s.txState := by cases src <;> rfl
@[simp] theorem State.disable_sendReady (s : State) (src : IrqSource) : (s.disable src).sendReady = s.sendReady := by cases src <;> rfl
@[simp] theorem State.disable_sendByte (s : State) (src : IrqSource) : (s.disable src).sendByte = s.sendByte := by cases src <;> rfl
@[simp] theorem State.disable_sendBits (s : State) (src : IrqSource) : (s.disable src).sendBits = s.sendBits := by cases src <;> rfl
@[simp] theorem State.disable_delay (s : State) (src : IrqSource) : (s.disable src).delay = s.delay := by cases src <;> rfl
@[simp] theorem State.disable_txd (s : State) (src : IrqSource) : (s.disable src).txd = s.txd := by cases src <;> rfl
@[simp] theorem State.disable_rxState (s : State) (src : IrqSource) : (s.disable src).rxState = s.rxState := by cases src <;> rfl
@[simp] theorem State.disable_rxCur (s : State) (src : IrqSource) : (s.disable src).rxCur = s.rxCur := by cases src <;> rfl
@[simp] theorem State.disable_rxPrev (s : State) (src : IrqSource) : (s.disable src).rxPrev = s.rxPrev := by cases src <;> rfl
@[simp] theorem State.disable_recvShift (s : State) (src : IrqSource) : (s.disable src).recvShift = s.recvShift := by cases src <;> rfl
@[simp] theorem State.disable_recvBits (s : State) (src : IrqSource) : (s.disable src).recvBits = s.recvBits := by cases src <;> rfl
@[simp] theorem State.disable_available (s : State) (src : IrqSource) : (s.disable src).available = s.available := by cases src <;> rfl
@[simp] theorem State.disable_recvByte (s : State) (src : IrqSource) : (s.disable src).recvByte = s.recvByte := by cases src <;> rfl
@[simp] theorem State.disable_rxBuf (s : State) (src : IrqSource) : (s.disable src).rxBuf = s.rxBuf := by cases src <;> rfl
@[simp] theorem State.disable_rxHead (s : State) (src : IrqSource) : (s.disable src).rxHead = s.rxHead := by cases src <;> rfl
@[simp] theorem State.disable_rxTail (s : State) (src : IrqSource) : (s.disable src).rxTail = s.rxTail := by cases src <;> rfl
@[simp] theorem State.disable_hostWait (s : State) (src : IrqSource) : (s.disable src).hostWait = s.hostWait := by cases src <;> rfl
@[simp] theorem State.disable_initialized (s : State) (src : IrqSource) : (s.disable src).initialized = s.initialized := by cases src <;> rfl
@[simp] theorem State.disable_fault (s : State) (src : IrqSource) : (s.disable src).fault = s.fault := by cases src <;> rfl
@[simp] theorem State.disable_t (s : State) (src : IrqSource) : (s.disable src).t = s.t := by cases src <;> rfl
@[simp] theorem State.disable_response (s : State) (src : IrqSource) : (s.disable src).response = s.response := by cases src <;> rfl
@[simp] theorem State.disable_host (s : State) (src : IrqSource) : (s.disable src).host = s.host := by cases src <;> rfl
@[simp] theorem State.disable_lines (s : State) (src : IrqSource) : (s.disable src).lines = s.lines := by cases src <;> rfl
@[simp] theorem State.disable_turns (s : State) (src : IrqSource) : (s.disable src).turns = s.turns := by cases src <;> rfl
@[simp] theorem State.disable_draws (s : State) (src : IrqSource) : (s.disable src).draws = s.draws := by cases src <;> rfl

/-! `State.freeSender` leaves the transmit engine idle. -/

@[simp] theorem State.freeSender_cfg (s : State) : (s.freeSender).cfg = s.cfg := (rfl)
@[simp] theorem State.freeSender_tcnt (s : State) : (s.freeSender).tcnt = s.tcnt := (rfl)
@[simp] theorem State.freeSender_period (s : State) : (s.freeSender).period = s.period := (rfl)
@[simp] theorem State.freeSender_ocrTx (s : State) : (s.freeSender).ocrTx = s.ocrTx := (rfl)
@[simp] theorem State.freeSender_ocrRx (s : State) : (s.freeSender).ocrRx = s.ocrRx := (rfl)
@[simp] theorem State.freeSender_txIe (s : State) : (s.freeSender).txIe = false := (rfl)
@[simp] theorem State.freeSender_rxIe (s : State) : (s.freeSender).rxIe = s.rxIe := (rfl)
@[simp] theorem State.freeSender_edgeIe (s : State) : (s.freeSender).edgeIe = s.edgeIe := (rfl)
@[simp] theorem State.freeSender_txPend (s : State) : (s.freeSender).txPend = false := (rfl)
@[simp] theorem State.freeSender_rxPend (s : State) : (s.freeSender).rxPend = s.rxPend := (rfl)
@[simp] theorem State.freeSender_edgePend (s : State) : (s.freeSender).edgePend = s.edgePend := (rfl)
@[simp] theorem State.freeSender_txState (s : State) : (s.freeSender).txState = .idle := (rfl)
@[simp] theorem State.freeSender_sendReady (s : State) : (s.freeSender).sendReady = true := (rfl)
@[simp] theorem State.freeSender_sendByte (s : State) : (s.freeSender).sendByte = s.sendByte := (rfl)
@[simp] theorem State.freeSender_sendBits (s : State) : (s.freeSender).sendBits = s.sendBits := (rfl)
@[simp] theorem State.freeSender_delay (s : State) : (s.freeSender).delay = s.delay := (rfl)
@[simp] theorem State.freeSender_txd (s : State) : (s.freeSender).txd = s.txd := (rfl)
@[simp] theorem State.freeSender_rxState (s : State) : (s.freeSender).rxState = s.rxState := (rfl)
@[simp] theorem State.freeSender_rxCur (s : State) : (s.freeSender).rxCur = s.rxCur := (rfl)
@[simp] theorem State.freeSender_rxPrev (s : State) : (s.freeSender).rxPrev = s.rxPrev := (rfl)
@[simp] theorem State.freeSender_recvShift (s : State) : (s.freeSender).recvShift = s.recvShift := (rfl)
@[simp] theorem State.freeSender_recvBits (s : State) : (s.freeSender).recvBits = s.recvBits := (rfl)
@[simp] theorem State.freeSender_available (s : State) : (s.freeSender).available = s.available := (rfl)
@[simp] theorem State.freeSender_recvByte (s : State) : (s.freeSender).recvByte = s.recvByte := (rfl)
@[simp] theorem State.freeSender_rxBuf (s : State) : (s.freeSender).rxBuf = s.rxBuf := (rfl)
@[simp] theorem State.freeSender_rxHead (s : State) : (s.freeSender).rxHead = s.rxHead := (rfl)
@[simp] theorem State.freeSender_rxTail (s : State) : (s.freeSender).rxTail = s.rxTail := (rfl)
@[simp] theorem State.freeSender_hostWait (s : State) : (s.freeSender).hostWait = s.hostWait := (rfl)
@[simp] theorem State.freeSender_initialized (s : State) : (s.freeSender).initialized = s.initialized := (rfl)
@[simp] theorem State.freeSender_fault (s : State) : (s.freeSender).fault = s.fault := (rfl)
@[simp] theorem State.freeSender_t (s : State) : (s.freeSender).t = s.t := (rfl)
@[simp] theorem State.freeSender_response (s : State) : (s.freeSender).response = s.response := (rfl)
@[simp] theorem State.freeSender_host (s : State) : (s.freeSender).host = s.host := (rfl)
@[simp] theorem State.freeSender_lines (s : State) : (s.freeSender).lines = s.lines := (rfl)
@[simp] theorem State.freeSender_turns (s : State) : (s.freeSender).turns = s.turns := (rfl)
@[simp] theorem State.freeSender_draws (s : State) : (s.freeSender).draws = s.draws := (rfl)

/-! `State.takeSender` takes the transmit engine. -/

@[simp] theorem State.takeSender_cfg (s : State) (st : TxState) : (s.takeSender st).cfg = s.cfg := (rfl)
@[simp] theorem State.takeSender_tcnt (s : State) (st : TxState) : (s.takeSender st).tcnt = s.tcnt := (rfl)
@[simp] theorem State.takeSender_period (s : State) (st : TxState) : (s.takeSender st).period = s.period := (rfl)
@[simp] theorem State.takeSender_ocrTx (s : State) (st : TxState) : (s.takeSender st).ocrTx = s.ocrTx := (rfl)
@[simp] theorem State.takeSender_ocrRx (s : State) (st : TxState) : (s.takeSender st).ocrRx = s.ocrRx := (rfl)
@[simp] theorem State.takeSender_txIe (s : State) (st : TxState) : (s.takeSender st).txIe = true := (rfl)
@[simp] theorem State.takeSender_rxIe (s : State) (st : TxState) : (s.takeSender st).rxIe = s.rxIe := (rfl)
@[simp] theorem State.takeSender_edgeIe (s : State) (st : TxState) : (s.takeSender st).edgeIe = s.edgeIe := (rfl)
@[simp] theorem State.takeSender_txPend (s : State) (st : TxState) : (s.takeSender st).txPend = s.txPend := (rfl)
@[simp] theorem State.takeSender_rxPend (s : State) (st : TxState) : (s.takeSender st).rxPend = s.rxPend := (rfl)
@[simp] theorem State.takeSender_edgePend (s : State) (st : TxState) : (s.takeSender st).edgePend = s.edgePend := (rfl)
@[simp] theorem State.takeSender_txState (s : State) (st : TxState) : (s.takeSender st).txState = st := (rfl)
@[simp] theorem State.takeSender_sendReady (s : State) (st : TxState) : (s.takeSender st).sendReady = false := (rfl)
@[simp] theorem State.takeSender_sendByte (s : State) (st : TxState) : (s.takeSender st).sendByte = s.sendByte := (rfl)
@[simp] theorem State.takeSender_sendBits (s : State) (st : TxState) : (s.takeSender st).sendBits = s.sendBits := (rfl)
@[simp] theorem State.takeSender_delay (s : State) (st : TxState) : (s.takeSender st).delay = s.delay := (rfl)
@[simp] theorem State.takeSender_txd (s : State) (st : TxState) : (s.takeSender st).txd = s.txd := (rfl)
@[simp] theorem State.takeSender_rxState (s : State) (st : TxState) : (s.takeSender st).rxState = s.rxState := (rfl)
@[simp] theorem State.takeSender_rxCur (s : State) (st : TxState) : (s.takeSender st).rxCur = s.rxCur := (rfl)
@[simp] theorem State.takeSender_rxPrev (s : State) (st : TxState) : (s.takeSender st).rxPrev = s.rxPrev := (rfl)
@[simp] theorem State.takeSender_recvShift (s : State) (st : TxState) : (s.takeSender st).recvShift = s.recvShift := (rfl)
@[simp] theorem State.takeSender_recvBits (s : State) (st : TxState) : (s.takeSender st).recvBits = s.recvBits := (rfl)
@[simp] theorem State.takeSender_available (s : State) (st : TxState) : (s.takeSender st).available = s.available := (rfl)
@[simp] theorem State.takeSender_recvByte (s : State) (st : TxState) : (s.takeSender st).recvByte = s.recvByte := (rfl)
@[simp] theorem State.takeSender_rxBuf (s : State) (st : TxState) : (s.takeSender st).rxBuf = s.rxBuf := (rfl)
@[simp] theorem State.takeSender_rxHead (s : State) (st : TxState) : (s.takeSender st).rxHead = s.rxHead := (rfl)
@[simp] theorem State.takeSender_rxTail (s : State) (st : TxState) : (s.takeSender st).rxTail = s.rxTail := (rfl)
@[simp] theorem State.takeSender_hostWait (s : State) (st : TxState) : (s.takeSender st).hostWait = s.hostWait := (rfl)
@[simp] theorem State.takeSender_initialized (s : State) (st : TxState) : (s.takeSender st).initialized = s.initialized := (rfl)
@[simp] theorem State.takeSender_fault (s : State) (st : TxState) : (s.takeSender st).fault = s.fault := (rfl)
@[simp] theorem State.takeSender_t (s : State) (st : TxState) : (s.takeSender st).t = s.t := (rfl)
@[simp] theorem State.takeSender_response (s : State) (st : TxState) : (s.takeSender st).response = s.response := (rfl)
@[simp] theorem State.takeSender_host (s : State) (st : TxState) : (s.takeSender st).host = s.host := (rfl)
@[simp] theorem State.takeSender_lines (s : State) (st : TxState) : (s.takeSender st).lines = s.lines := (rfl)
@[simp] theorem State.takeSender_turns (s : State) (st : TxState) : (s.takeSender st).turns = s.turns := (rfl)
@[simp] theorem State.takeSender_draws (s : State) (st : TxState) : (s.takeSender st).draws = s.draws := (rfl)

/-! `State.shiftOutBit` sends one data bit. -/

@[simp] theorem State.shiftOutBit_cfg (s : State) : (s.shiftOutBit).cfg = s.cfg := (rfl)
@[simp] theorem State.shiftOutBit_tcnt (s : State) : (s.shiftOutBit).tcnt = s.tcnt := (rfl)
@[simp] theorem State.shiftOutBit_period (s : State) : (s.shiftOutBit).period = s.period := (rfl)
@[simp] theorem State.shiftOutBit_ocrTx (s : State) : (s.shiftOutBit).ocrTx = s.ocrTx := (rfl)
@[simp] theorem State.shiftOutBit_ocrRx (s : State) : (s.shiftOutBit).ocrRx = s.ocrRx := (rfl)
@[simp] theorem State.shiftOutBit_txIe (s : State) : (s.shiftOutBit).txIe = s.txIe := (rfl)
@[simp] theorem State.shiftOutBit_rxIe (s : State) : (s.shiftOutBit).rxIe = s.rxIe := (rfl)
@[simp] theorem State.shiftOutBit_edgeIe (s : State) : (s.shiftOutBit).edgeIe = s.edgeIe := (rfl)
@[simp] theorem State.shiftOutBit_txPend (s : State) : (s.shiftOutBit).txPend = s.txPend := (rfl)
@[simp] theorem State.shiftOutBit_rxPend (s : State) : (s.shiftOutBit).rxPend = s.rxPend := (rfl)
@[simp] theorem State.shiftOutBit_edgePend (s : State) : (s.shiftOutBit).edgePend = s.edgePend := (rfl)
@[simp] theorem State.shiftOutBit_txState (s : State) : (s.shiftOutBit).txState = s.txState := (rfl)
@[simp] theorem State.shiftOutBit_sendReady (s : State) : (s.shiftOutBit).sendReady = s.sendReady := (rfl)
@[simp] theorem State.shiftOutBit_sendByte (s : State) : (s.shiftOutBit).sendByte = shiftOut s.sendByte := (rfl)
@[simp] theorem State.shiftOutBit_sendBits (s : State) : (s.shiftOutBit).sendBits = s.sendBits - 1#4 := (rfl)
@[simp] theorem State.shiftOutBit_delay (s : State) : (s.shiftOutBit).delay = s.delay := (rfl)
@[simp] theorem State.shiftOutBit_txd (s : State) : (s.shiftOutBit).txd = bitAt s.sendByte 0 := (rfl)
@[simp] theorem State.shiftOutBit_rxState (s : State) : (s.shiftOutBit).rxState = s.rxState := (rfl)
@[simp] theorem State.shiftOutBit_rxCur (s : State) : (s.shiftOutBit).rxCur = s.rxCur := (rfl)
@[simp] theorem State.shiftOutBit_rxPrev (s : State) : (s.shiftOutBit).rxPrev = s.rxPrev := (rfl)
@[simp] theorem State.shiftOutBit_recvShift (s : State) : (s.shiftOutBit).recvShift = s.recvShift := (rfl)
@[simp] theorem State.shiftOutBit_recvBits (s : State) : (s.shiftOutBit).recvBits = s.recvBits := (rfl)
@[simp] theorem State.shiftOutBit_available (s : State) : (s.shiftOutBit).available = s.available := (rfl)
@[simp] theorem State.shiftOutBit_recvByte (s : State) : (s.shiftOutBit).recvByte = s.recvByte := (rfl)
@[simp] theorem State.shiftOutBit_rxBuf (s : State) : (s.shiftOutBit).rxBuf = s.rxBuf := (rfl)
@[simp] theorem State.shiftOutBit_rxHead (s : State) : (s.shiftOutBit).rxHead = s.rxHead := (rfl)
@[simp] theorem State.shiftOutBit_rxTail (s : State) : (s.shiftOutBit).rxTail = s.rxTail := (rfl)
@[simp] theorem State.shiftOutBit_hostWait (s : State) : (s.shiftOutBit).hostWait = s.hostWait := (rfl)
@[simp] theorem State.shiftOutBit_initialized (s : State) : (s.shiftOutBit).initialized = s.initialized := (rfl)
@[simp] theorem State.shiftOutBit_fault (s : State) : (s.shiftOutBit).fault = s.fault := (rfl)
@[simp] theorem State.shiftOutBit_t (s : State) : (s.shiftOutBit).t = s.t := (rfl)
@[simp] theorem State.shiftOutBit_response (s : State) : (s.shiftOutBit).response = s.response := (rfl)
@[simp] theorem State.shiftOutBit_host (s : State) : (s.shiftOutBit).host = s.host := (rfl)
@[simp] theorem State.shiftOutBit_lines (s : State) : (s.shiftOutBit).lines = s.lines := (rfl)
@[simp] theorem State.shiftOutBit_turns (s : State) : (s.shiftOutBit).turns = s.turns := (rfl)
@[simp] theorem State.shiftOutBit_draws (s : State) : (s.shiftOutBit).draws = s.draws := (rfl)

/-! `State.armFrame` is SEND's effect. -/

@[simp] theorem State.armFrame_cfg (s : State) (b : Byte) : (s.armFrame b).cfg = s.cfg := (rfl)
@[simp] theorem State.armFrame_tcnt (s : State) (b : Byte) : (s.armFrame b).tcnt = s.tcnt := (rfl)
@[simp] theorem State.armFrame_period (s : State) (b : Byte) : (s.armFrame b).period = s.period := (rfl)
@[simp] theorem State.armFrame_ocrTx (s : State) (b : Byte) : (s.armFrame b).ocrTx = s.tcnt := (rfl)
@[simp] theorem State.armFrame_ocrRx (s : State) (b : Byte) : (s.armFrame b).ocrRx = s.ocrRx := (rfl)
@[simp] theorem State.armFrame_txIe (s : State) (b : Byte) : (s.armFrame b).txIe = true := (rfl)
@[simp] theorem State.armFrame_rxIe (s : State) (b : Byte) : (s.armFrame b).rxIe = s.rxIe := (rfl)
@[simp] theorem State.armFrame_edgeIe (s : State) (b : Byte) : (s.armFrame b).edgeIe = s.edgeIe := (rfl)
@[simp] theorem State.armFrame_txPend (s : State) (b : Byte) : (s.armFrame b).txPend = s.txPend := (rfl)
@[simp] theorem State.armFrame_rxPend (s : State) (b : Byte) : (s.armFrame b).rxPend = s.rxPend := (rfl)
@[simp] theorem State.armFrame_edgePend (s : State) (b : Byte) : (s.armFrame b).edgePend = s.edgePend := (rfl)
@[simp] theorem State.armFrame_txState (s : State) (b : Byte) : (s.armFrame b).txState = .startBit := (rfl)
@[simp] theorem State.armFrame_sendReady (s : State) (b : Byte) : (s.armFrame b).sendReady = false := (rfl)
@[simp] theorem State.armFrame_sendByte (s : State) (b : Byte) : (s.armFrame b).sendByte = b := (rfl)
@[simp] theorem State.armFrame_sendBits (s : State) (b : Byte) : (s.armFrame b).sendBits = s.sendBits := (rfl)
@[simp] theorem State.armFrame_delay (s : State) (b : Byte) : (s.armFrame b).delay = s.delay := (rfl)
@[simp] theorem State.armFrame_txd (s : State) (b : Byte) : (s.armFrame b).txd = s.txd := (rfl)
@[simp] theorem State.armFrame_rxState (s : State) (b : Byte) : (s.armFrame b).rxState = s.rxState := (rfl)
@[simp] theorem State.armFrame_rxCur (s : State) (b : Byte) : (s.armFrame b).rxCur = s.rxCur := (rfl)
@[simp] theorem State.armFrame_rxPrev (s : State) (b : Byte) : (s.armFrame b).rxPrev = s.rxPrev := (rfl)
@[simp] theorem State.armFrame_recvShift (s : State) (b : Byte) : (s.armFrame b).recvShift = s.recvShift := (rfl)
@[simp] theorem State.armFrame_recvBits (s : State) (b : Byte) : (s.armFrame b).recvBits = s.recvBits := (rfl)
@[simp] theorem State.armFrame_available (s : State) (b : Byte) : (s.armFrame b).available = s.available := (rfl)
@[simp] theorem State.armFrame_recvByte (s : State) (b : Byte) : (s.armFrame b).recvByte = s.recvByte := (rfl)
@[simp] theorem State.armFrame_rxBuf (s : State) (b : Byte) : (s.armFrame b).rxBuf = s.rxBuf := (rfl)
@[simp] theorem State.armFrame_rxHead (s : State) (b : Byte) : (s.armFrame b).rxHead = s.rxHead := (rfl)
@[simp] theorem State.armFrame_rxTail (s : State) (b : Byte) : (s.armFrame b).rxTail = s.rxTail := (rfl)
@[simp] theorem State.armFrame_hostWait (s : State) (b : Byte) : (s.armFrame b).hostWait = s.hostWait := (rfl)
@[simp] theorem State.armFrame_initialized (s : State) (b : Byte) : (s.armFrame b).initialized = s.initialized := (rfl)
@[simp] theorem State.armFrame_fault (s : State) (b : Byte) : (s.armFrame b).fault = s.fault := (rfl)
@[simp] theorem State.armFrame_t (s : State) (b : Byte) : (s.armFrame b).t = s.t := (rfl)
@[simp] theorem State.armFrame_response (s : State) (b : Byte) : (s.armFrame b).response = s.response := (rfl)
@[simp] theorem State.armFrame_host (s : State) (b : Byte) : (s.armFrame b).host = s.host := (rfl)
@[simp] theorem State.armFrame_lines (s : State) (b : Byte) : (s.armFrame b).lines = s.lines := (rfl)
@[simp] theorem State.armFrame_turns (s : State) (b : Byte) : (s.armFrame b).turns = s.turns := (rfl)
@[simp] theorem State.armFrame_draws (s : State) (b : Byte) : (s.armFrame b).draws = s.draws := (rfl)

/-! `State.armAlarm` is ALARM's effect. -/

@[simp] theorem State.armAlarm_cfg (s : State) (ms : Half) : (s.armAlarm ms).cfg = s.cfg := (rfl)
@[simp] theorem State.armAlarm_tcnt (s : State) (ms : Half) : (s.armAlarm ms).tcnt = s.tcnt := (rfl)
@[simp] theorem State.armAlarm_period (s : State) (ms : Half) : (s.armAlarm ms).period = s.period := (rfl)
@[simp] theorem State.armAlarm_ocrTx (s : State) (ms : Half) : (s.armAlarm ms).ocrTx = s.ticksAhead (alarmRem s.cfg ms) := (rfl)
@[simp] theorem State.armAlarm_ocrRx (s : State) (ms : Half) : (s.armAlarm ms).ocrRx = s.ocrRx := (rfl)
@[simp] theorem State.armAlarm_txIe (s : State) (ms : Half) : (s.armAlarm ms).txIe = true := (rfl)
@[simp] theorem State.armAlarm_rxIe (s : State) (ms : Half) : (s.armAlarm ms).rxIe = s.rxIe := (rfl)
@[simp] theorem State.armAlarm_edgeIe (s : State) (ms : Half) : (s.armAlarm ms).edgeIe = s.edgeIe := (rfl)
@[simp] theorem State.armAlarm_txPend (s : State) (ms : Half) : (s.armAlarm ms).txPend = s.txPend := (rfl)
@[simp] theorem State.armAlarm_rxPend (s : State) (ms : Half) : (s.armAlarm ms).rxPend = s.rxPend := (rfl)
@[simp] theorem State.armAlarm_edgePend (s : State) (ms : Half) : (s.armAlarm ms).edgePend = s.edgePend := (rfl)
@[simp] theorem State.armAlarm_txState (s : State) (ms : Half) : (s.armAlarm ms).txState = .timedDelay := (rfl)
@[simp] theorem State.armAlarm_sendReady (s : State) (ms : Half) : (s.armAlarm ms).sendReady = false := (rfl)
@[simp] theorem State.armAlarm_sendByte (s : State) (ms : Half) : (s.armAlarm ms).sendByte = s.sendByte := (rfl)
@[simp] theorem State.armAlarm_sendBits (s : State) (ms : Half) : (s.armAlarm ms).sendBits = s.sendBits := (rfl)
@[simp] theorem State.armAlarm_delay (s : State) (ms : Half) : (s.armAlarm ms).delay = alarmWhole s.cfg ms := (rfl)
@[simp] theorem State.armAlarm_txd (s : State) (ms : Half) : (s.armAlarm ms).txd = s.txd := (rfl)
@[simp] theorem State.armAlarm_rxState (s : State) (ms : Half) : (s.armAlarm ms).rxState = s.rxState := (rfl)
@[simp] theorem State.armAlarm_rxCur (s : State) (ms : Half) : (s.armAlarm ms).rxCur = s.rxCur := (rfl)
@[simp] theorem State.armAlarm_rxPrev (s : State) (ms : Half) : (s.armAlarm ms).rxPrev = s.rxPrev := (rfl)
@[simp] theorem State.armAlarm_recvShift (s : State) (ms : Half) : (s.armAlarm ms).recvShift = s.recvShift := (rfl)
@[simp] theorem State.armAlarm_recvBits (s : State) (ms : Half) : (s.armAlarm ms).recvBits = s.recvBits := (rfl)
@[simp] theorem State.armAlarm_available (s : State) (ms : Half) : (s.armAlarm ms).available = s.available := (rfl)
@[simp] theorem State.armAlarm_recvByte (s : State) (ms : Half) : (s.armAlarm ms).recvByte = s.recvByte := (rfl)
@[simp] theorem State.armAlarm_rxBuf (s : State) (ms : Half) : (s.armAlarm ms).rxBuf = s.rxBuf := (rfl)
@[simp] theorem State.armAlarm_rxHead (s : State) (ms : Half) : (s.armAlarm ms).rxHead = s.rxHead := (rfl)
@[simp] theorem State.armAlarm_rxTail (s : State) (ms : Half) : (s.armAlarm ms).rxTail = s.rxTail := (rfl)
@[simp] theorem State.armAlarm_hostWait (s : State) (ms : Half) : (s.armAlarm ms).hostWait = s.hostWait := (rfl)
@[simp] theorem State.armAlarm_initialized (s : State) (ms : Half) : (s.armAlarm ms).initialized = s.initialized := (rfl)
@[simp] theorem State.armAlarm_fault (s : State) (ms : Half) : (s.armAlarm ms).fault = s.fault := (rfl)
@[simp] theorem State.armAlarm_t (s : State) (ms : Half) : (s.armAlarm ms).t = s.t := (rfl)
@[simp] theorem State.armAlarm_response (s : State) (ms : Half) : (s.armAlarm ms).response = s.response := (rfl)
@[simp] theorem State.armAlarm_host (s : State) (ms : Half) : (s.armAlarm ms).host = s.host := (rfl)
@[simp] theorem State.armAlarm_lines (s : State) (ms : Half) : (s.armAlarm ms).lines = s.lines := (rfl)
@[simp] theorem State.armAlarm_turns (s : State) (ms : Half) : (s.armAlarm ms).turns = s.turns := (rfl)
@[simp] theorem State.armAlarm_draws (s : State) (ms : Half) : (s.armAlarm ms).draws = s.draws := (rfl)

/-! `State.enterDelay` puts the host inside DELAY. -/

@[simp] theorem State.enterDelay_cfg (s : State) : (s.enterDelay).cfg = s.cfg := (rfl)
@[simp] theorem State.enterDelay_tcnt (s : State) : (s.enterDelay).tcnt = s.tcnt := (rfl)
@[simp] theorem State.enterDelay_period (s : State) : (s.enterDelay).period = s.period := (rfl)
@[simp] theorem State.enterDelay_ocrTx (s : State) : (s.enterDelay).ocrTx = s.ocrTx := (rfl)
@[simp] theorem State.enterDelay_ocrRx (s : State) : (s.enterDelay).ocrRx = s.ocrRx := (rfl)
@[simp] theorem State.enterDelay_txIe (s : State) : (s.enterDelay).txIe = s.txIe := (rfl)
@[simp] theorem State.enterDelay_rxIe (s : State) : (s.enterDelay).rxIe = s.rxIe := (rfl)
@[simp] theorem State.enterDelay_edgeIe (s : State) : (s.enterDelay).edgeIe = s.edgeIe := (rfl)
@[simp] theorem State.enterDelay_txPend (s : State) : (s.enterDelay).txPend = s.txPend := (rfl)
@[simp] theorem State.enterDelay_rxPend (s : State) : (s.enterDelay).rxPend = s.rxPend := (rfl)
@[simp] theorem State.enterDelay_edgePend (s : State) : (s.enterDelay).edgePend = s.edgePend := (rfl)
@[simp] theorem State.enterDelay_txState (s : State) : (s.enterDelay).txState = s.txState := (rfl)
@[simp] theorem State.enterDelay_sendReady (s : State) : (s.enterDelay).sendReady = s.sendReady := (rfl)
@[simp] theorem State.enterDelay_sendByte (s : State) : (s.enterDelay).sendByte = s.sendByte := (rfl)
@[simp] theorem State.enterDelay_sendBits (s : State) : (s.enterDelay).sendBits = s.sendBits := (rfl)
@[simp] theorem State.enterDelay_delay (s : State) : (s.enterDelay).delay = s.delay := (rfl)
@[simp] theorem State.enterDelay_txd (s : State) : (s.enterDelay).txd = s.txd := (rfl)
@[simp] theorem State.enterDelay_rxState (s : State) : (s.enterDelay).rxState = s.rxState := (rfl)
@[simp] theorem State.enterDelay_rxCur (s : State) : (s.enterDelay).rxCur = s.rxCur := (rfl)
@[simp] theorem State.enterDelay_rxPrev (s : State) : (s.enterDelay).rxPrev = s.rxPrev := (rfl)
@[simp] theorem State.enterDelay_recvShift (s : State) : (s.enterDelay).recvShift = s.recvShift := (rfl)
@[simp] theorem State.enterDelay_recvBits (s : State) : (s.enterDelay).recvBits = s.recvBits := (rfl)
@[simp] theorem State.enterDelay_available (s : State) : (s.enterDelay).available = s.available := (rfl)
@[simp] theorem State.enterDelay_recvByte (s : State) : (s.enterDelay).recvByte = s.recvByte := (rfl)
@[simp] theorem State.enterDelay_rxBuf (s : State) : (s.enterDelay).rxBuf = s.rxBuf := (rfl)
@[simp] theorem State.enterDelay_rxHead (s : State) : (s.enterDelay).rxHead = s.rxHead := (rfl)
@[simp] theorem State.enterDelay_rxTail (s : State) : (s.enterDelay).rxTail = s.rxTail := (rfl)
@[simp] theorem State.enterDelay_hostWait (s : State) : (s.enterDelay).hostWait = .delayWait := (rfl)
@[simp] theorem State.enterDelay_initialized (s : State) : (s.enterDelay).initialized = s.initialized := (rfl)
@[simp] theorem State.enterDelay_fault (s : State) : (s.enterDelay).fault = s.fault := (rfl)
@[simp] theorem State.enterDelay_t (s : State) : (s.enterDelay).t = s.t := (rfl)
@[simp] theorem State.enterDelay_response (s : State) : (s.enterDelay).response = s.response := (rfl)
@[simp] theorem State.enterDelay_host (s : State) : (s.enterDelay).host = s.host := (rfl)
@[simp] theorem State.enterDelay_lines (s : State) : (s.enterDelay).lines = s.lines := (rfl)
@[simp] theorem State.enterDelay_turns (s : State) : (s.enterDelay).turns = s.turns := (rfl)
@[simp] theorem State.enterDelay_draws (s : State) : (s.enterDelay).draws = s.draws := (rfl)

/-! `State.sampleLine` samples the line. -/

@[simp] theorem State.sampleLine_cfg (s : State) (line : Bit) : (s.sampleLine line).cfg = s.cfg := (rfl)
@[simp] theorem State.sampleLine_tcnt (s : State) (line : Bit) : (s.sampleLine line).tcnt = s.tcnt := (rfl)
@[simp] theorem State.sampleLine_period (s : State) (line : Bit) : (s.sampleLine line).period = s.period := (rfl)
@[simp] theorem State.sampleLine_ocrTx (s : State) (line : Bit) : (s.sampleLine line).ocrTx = s.ocrTx := (rfl)
@[simp] theorem State.sampleLine_ocrRx (s : State) (line : Bit) : (s.sampleLine line).ocrRx = s.ocrRx := (rfl)
@[simp] theorem State.sampleLine_txIe (s : State) (line : Bit) : (s.sampleLine line).txIe = s.txIe := (rfl)
@[simp] theorem State.sampleLine_rxIe (s : State) (line : Bit) : (s.sampleLine line).rxIe = s.rxIe := (rfl)
@[simp] theorem State.sampleLine_edgeIe (s : State) (line : Bit) : (s.sampleLine line).edgeIe = s.edgeIe := (rfl)
@[simp] theorem State.sampleLine_txPend (s : State) (line : Bit) : (s.sampleLine line).txPend = s.txPend := (rfl)
@[simp] theorem State.sampleLine_rxPend (s : State) (line : Bit) : (s.sampleLine line).rxPend = s.rxPend := (rfl)
@[simp] theorem State.sampleLine_edgePend (s : State) (line : Bit) : (s.sampleLine line).edgePend = s.edgePend := (rfl)
@[simp] theorem State.sampleLine_txState (s : State) (line : Bit) : (s.sampleLine line).txState = s.txState := (rfl)
@[simp] theorem State.sampleLine_sendReady (s : State) (line : Bit) : (s.sampleLine line).sendReady = s.sendReady := (rfl)
@[simp] theorem State.sampleLine_sendByte (s : State) (line : Bit) : (s.sampleLine line).sendByte = s.sendByte := (rfl)
@[simp] theorem State.sampleLine_sendBits (s : State) (line : Bit) : (s.sampleLine line).sendBits = s.sendBits := (rfl)
@[simp] theorem State.sampleLine_delay (s : State) (line : Bit) : (s.sampleLine line).delay = s.delay := (rfl)
@[simp] theorem State.sampleLine_txd (s : State) (line : Bit) : (s.sampleLine line).txd = s.txd := (rfl)
@[simp] theorem State.sampleLine_rxState (s : State) (line : Bit) : (s.sampleLine line).rxState = s.rxState := (rfl)
@[simp] theorem State.sampleLine_rxCur (s : State) (line : Bit) : (s.sampleLine line).rxCur = line := (rfl)
@[simp] theorem State.sampleLine_rxPrev (s : State) (line : Bit) : (s.sampleLine line).rxPrev = s.rxCur := (rfl)
@[simp] theorem State.sampleLine_recvShift (s : State) (line : Bit) : (s.sampleLine line).recvShift = s.recvShift := (rfl)
@[simp] theorem State.sampleLine_recvBits (s : State) (line : Bit) : (s.sampleLine line).recvBits = s.recvBits := (rfl)
@[simp] theorem State.sampleLine_available (s : State) (line : Bit) : (s.sampleLine line).available = s.available := (rfl)
@[simp] theorem State.sampleLine_recvByte (s : State) (line : Bit) : (s.sampleLine line).recvByte = s.recvByte := (rfl)
@[simp] theorem State.sampleLine_rxBuf (s : State) (line : Bit) : (s.sampleLine line).rxBuf = s.rxBuf := (rfl)
@[simp] theorem State.sampleLine_rxHead (s : State) (line : Bit) : (s.sampleLine line).rxHead = s.rxHead := (rfl)
@[simp] theorem State.sampleLine_rxTail (s : State) (line : Bit) : (s.sampleLine line).rxTail = s.rxTail := (rfl)
@[simp] theorem State.sampleLine_hostWait (s : State) (line : Bit) : (s.sampleLine line).hostWait = s.hostWait := (rfl)
@[simp] theorem State.sampleLine_initialized (s : State) (line : Bit) : (s.sampleLine line).initialized = s.initialized := (rfl)
@[simp] theorem State.sampleLine_fault (s : State) (line : Bit) : (s.sampleLine line).fault = s.fault := (rfl)
@[simp] theorem State.sampleLine_t (s : State) (line : Bit) : (s.sampleLine line).t = s.t + 1 := (rfl)
@[simp] theorem State.sampleLine_response (s : State) (line : Bit) : (s.sampleLine line).response = s.response := (rfl)
@[simp] theorem State.sampleLine_host (s : State) (line : Bit) : (s.sampleLine line).host = s.host := (rfl)
@[simp] theorem State.sampleLine_lines (s : State) (line : Bit) : (s.sampleLine line).lines = s.lines := (rfl)
@[simp] theorem State.sampleLine_turns (s : State) (line : Bit) : (s.sampleLine line).turns = s.turns := (rfl)
@[simp] theorem State.sampleLine_draws (s : State) (line : Bit) : (s.sampleLine line).draws = s.draws := (rfl)

/-! `State.countUp` counts one tick. -/

@[simp] theorem State.countUp_cfg (s : State) : (s.countUp).cfg = s.cfg := (rfl)
@[simp] theorem State.countUp_tcnt (s : State) : (s.countUp).tcnt = (s.tcnt + 1) % s.period := (rfl)
@[simp] theorem State.countUp_period (s : State) : (s.countUp).period = s.period := (rfl)
@[simp] theorem State.countUp_ocrTx (s : State) : (s.countUp).ocrTx = s.ocrTx := (rfl)
@[simp] theorem State.countUp_ocrRx (s : State) : (s.countUp).ocrRx = s.ocrRx := (rfl)
@[simp] theorem State.countUp_txIe (s : State) : (s.countUp).txIe = s.txIe := (rfl)
@[simp] theorem State.countUp_rxIe (s : State) : (s.countUp).rxIe = s.rxIe := (rfl)
@[simp] theorem State.countUp_edgeIe (s : State) : (s.countUp).edgeIe = s.edgeIe := (rfl)
@[simp] theorem State.countUp_txPend (s : State) : (s.countUp).txPend = s.txPend := (rfl)
@[simp] theorem State.countUp_rxPend (s : State) : (s.countUp).rxPend = s.rxPend := (rfl)
@[simp] theorem State.countUp_edgePend (s : State) : (s.countUp).edgePend = s.edgePend := (rfl)
@[simp] theorem State.countUp_txState (s : State) : (s.countUp).txState = s.txState := (rfl)
@[simp] theorem State.countUp_sendReady (s : State) : (s.countUp).sendReady = s.sendReady := (rfl)
@[simp] theorem State.countUp_sendByte (s : State) : (s.countUp).sendByte = s.sendByte := (rfl)
@[simp] theorem State.countUp_sendBits (s : State) : (s.countUp).sendBits = s.sendBits := (rfl)
@[simp] theorem State.countUp_delay (s : State) : (s.countUp).delay = s.delay := (rfl)
@[simp] theorem State.countUp_txd (s : State) : (s.countUp).txd = s.txd := (rfl)
@[simp] theorem State.countUp_rxState (s : State) : (s.countUp).rxState = s.rxState := (rfl)
@[simp] theorem State.countUp_rxCur (s : State) : (s.countUp).rxCur = s.rxCur := (rfl)
@[simp] theorem State.countUp_rxPrev (s : State) : (s.countUp).rxPrev = s.rxPrev := (rfl)
@[simp] theorem State.countUp_recvShift (s : State) : (s.countUp).recvShift = s.recvShift := (rfl)
@[simp] theorem State.countUp_recvBits (s : State) : (s.countUp).recvBits = s.recvBits := (rfl)
@[simp] theorem State.countUp_available (s : State) : (s.countUp).available = s.available := (rfl)
@[simp] theorem State.countUp_recvByte (s : State) : (s.countUp).recvByte = s.recvByte := (rfl)
@[simp] theorem State.countUp_rxBuf (s : State) : (s.countUp).rxBuf = s.rxBuf := (rfl)
@[simp] theorem State.countUp_rxHead (s : State) : (s.countUp).rxHead = s.rxHead := (rfl)
@[simp] theorem State.countUp_rxTail (s : State) : (s.countUp).rxTail = s.rxTail := (rfl)
@[simp] theorem State.countUp_hostWait (s : State) : (s.countUp).hostWait = s.hostWait := (rfl)
@[simp] theorem State.countUp_initialized (s : State) : (s.countUp).initialized = s.initialized := (rfl)
@[simp] theorem State.countUp_fault (s : State) : (s.countUp).fault = s.fault := (rfl)
@[simp] theorem State.countUp_t (s : State) : (s.countUp).t = s.t := (rfl)
@[simp] theorem State.countUp_response (s : State) : (s.countUp).response = s.response := (rfl)
@[simp] theorem State.countUp_host (s : State) : (s.countUp).host = s.host := (rfl)
@[simp] theorem State.countUp_lines (s : State) : (s.countUp).lines = s.lines := (rfl)
@[simp] theorem State.countUp_turns (s : State) : (s.countUp).turns = s.turns := (rfl)
@[simp] theorem State.countUp_draws (s : State) : (s.countUp).draws = s.draws := (rfl)

/-! `State.slotPut` fills the single slot. -/

@[simp] theorem State.slotPut_cfg (s : State) (v : Byte) : (s.slotPut v).cfg = s.cfg := (rfl)
@[simp] theorem State.slotPut_tcnt (s : State) (v : Byte) : (s.slotPut v).tcnt = s.tcnt := (rfl)
@[simp] theorem State.slotPut_period (s : State) (v : Byte) : (s.slotPut v).period = s.period := (rfl)
@[simp] theorem State.slotPut_ocrTx (s : State) (v : Byte) : (s.slotPut v).ocrTx = s.ocrTx := (rfl)
@[simp] theorem State.slotPut_ocrRx (s : State) (v : Byte) : (s.slotPut v).ocrRx = s.ocrRx := (rfl)
@[simp] theorem State.slotPut_txIe (s : State) (v : Byte) : (s.slotPut v).txIe = s.txIe := (rfl)
@[simp] theorem State.slotPut_rxIe (s : State) (v : Byte) : (s.slotPut v).rxIe = s.rxIe := (rfl)
@[simp] theorem State.slotPut_edgeIe (s : State) (v : Byte) : (s.slotPut v).edgeIe = s.edgeIe := (rfl)
@[simp] theorem State.slotPut_txPend (s : State) (v : Byte) : (s.slotPut v).txPend = s.txPend := (rfl)
@[simp] theorem State.slotPut_rxPend (s : State) (v : Byte) : (s.slotPut v).rxPend = s.rxPend := (rfl)
@[simp] theorem State.slotPut_edgePend (s : State) (v : Byte) : (s.slotPut v).edgePend = s.edgePend := (rfl)
@[simp] theorem State.slotPut_txState (s : State) (v : Byte) : (s.slotPut v).txState = s.txState := (rfl)
@[simp] theorem State.slotPut_sendReady (s : State) (v : Byte) : (s.slotPut v).sendReady = s.sendReady := (rfl)
@[simp] theorem State.slotPut_sendByte (s : State) (v : Byte) : (s.slotPut v).sendByte = s.sendByte := (rfl)
@[simp] theorem State.slotPut_sendBits (s : State) (v : Byte) : (s.slotPut v).sendBits = s.sendBits := (rfl)
@[simp] theorem State.slotPut_delay (s : State) (v : Byte) : (s.slotPut v).delay = s.delay := (rfl)
@[simp] theorem State.slotPut_txd (s : State) (v : Byte) : (s.slotPut v).txd = s.txd := (rfl)
@[simp] theorem State.slotPut_rxState (s : State) (v : Byte) : (s.slotPut v).rxState = s.rxState := (rfl)
@[simp] theorem State.slotPut_rxCur (s : State) (v : Byte) : (s.slotPut v).rxCur = s.rxCur := (rfl)
@[simp] theorem State.slotPut_rxPrev (s : State) (v : Byte) : (s.slotPut v).rxPrev = s.rxPrev := (rfl)
@[simp] theorem State.slotPut_recvShift (s : State) (v : Byte) : (s.slotPut v).recvShift = s.recvShift := (rfl)
@[simp] theorem State.slotPut_recvBits (s : State) (v : Byte) : (s.slotPut v).recvBits = s.recvBits := (rfl)
@[simp] theorem State.slotPut_available (s : State) (v : Byte) : (s.slotPut v).available = true := (rfl)
@[simp] theorem State.slotPut_recvByte (s : State) (v : Byte) : (s.slotPut v).recvByte = v := (rfl)
@[simp] theorem State.slotPut_rxBuf (s : State) (v : Byte) : (s.slotPut v).rxBuf = s.rxBuf := (rfl)
@[simp] theorem State.slotPut_rxHead (s : State) (v : Byte) : (s.slotPut v).rxHead = s.rxHead := (rfl)
@[simp] theorem State.slotPut_rxTail (s : State) (v : Byte) : (s.slotPut v).rxTail = s.rxTail := (rfl)
@[simp] theorem State.slotPut_hostWait (s : State) (v : Byte) : (s.slotPut v).hostWait = s.hostWait := (rfl)
@[simp] theorem State.slotPut_initialized (s : State) (v : Byte) : (s.slotPut v).initialized = s.initialized := (rfl)
@[simp] theorem State.slotPut_fault (s : State) (v : Byte) : (s.slotPut v).fault = s.fault := (rfl)
@[simp] theorem State.slotPut_t (s : State) (v : Byte) : (s.slotPut v).t = s.t := (rfl)
@[simp] theorem State.slotPut_response (s : State) (v : Byte) : (s.slotPut v).response = s.response := (rfl)
@[simp] theorem State.slotPut_host (s : State) (v : Byte) : (s.slotPut v).host = s.host := (rfl)
@[simp] theorem State.slotPut_lines (s : State) (v : Byte) : (s.slotPut v).lines = s.lines := (rfl)
@[simp] theorem State.slotPut_turns (s : State) (v : Byte) : (s.slotPut v).turns = s.turns := (rfl)
@[simp] theorem State.slotPut_draws (s : State) (v : Byte) : (s.slotPut v).draws = s.draws := (rfl)

/-! `State.shiftInBit` takes one sampled bit. -/

@[simp] theorem State.shiftInBit_cfg (s : State) (x : Bit) : (s.shiftInBit x).cfg = s.cfg := (rfl)
@[simp] theorem State.shiftInBit_tcnt (s : State) (x : Bit) : (s.shiftInBit x).tcnt = s.tcnt := (rfl)
@[simp] theorem State.shiftInBit_period (s : State) (x : Bit) : (s.shiftInBit x).period = s.period := (rfl)
@[simp] theorem State.shiftInBit_ocrTx (s : State) (x : Bit) : (s.shiftInBit x).ocrTx = s.ocrTx := (rfl)
@[simp] theorem State.shiftInBit_ocrRx (s : State) (x : Bit) : (s.shiftInBit x).ocrRx = s.ocrRx := (rfl)
@[simp] theorem State.shiftInBit_txIe (s : State) (x : Bit) : (s.shiftInBit x).txIe = s.txIe := (rfl)
@[simp] theorem State.shiftInBit_rxIe (s : State) (x : Bit) : (s.shiftInBit x).rxIe = s.rxIe := (rfl)
@[simp] theorem State.shiftInBit_edgeIe (s : State) (x : Bit) : (s.shiftInBit x).edgeIe = s.edgeIe := (rfl)
@[simp] theorem State.shiftInBit_txPend (s : State) (x : Bit) : (s.shiftInBit x).txPend = s.txPend := (rfl)
@[simp] theorem State.shiftInBit_rxPend (s : State) (x : Bit) : (s.shiftInBit x).rxPend = s.rxPend := (rfl)
@[simp] theorem State.shiftInBit_edgePend (s : State) (x : Bit) : (s.shiftInBit x).edgePend = s.edgePend := (rfl)
@[simp] theorem State.shiftInBit_txState (s : State) (x : Bit) : (s.shiftInBit x).txState = s.txState := (rfl)
@[simp] theorem State.shiftInBit_sendReady (s : State) (x : Bit) : (s.shiftInBit x).sendReady = s.sendReady := (rfl)
@[simp] theorem State.shiftInBit_sendByte (s : State) (x : Bit) : (s.shiftInBit x).sendByte = s.sendByte := (rfl)
@[simp] theorem State.shiftInBit_sendBits (s : State) (x : Bit) : (s.shiftInBit x).sendBits = s.sendBits := (rfl)
@[simp] theorem State.shiftInBit_delay (s : State) (x : Bit) : (s.shiftInBit x).delay = s.delay := (rfl)
@[simp] theorem State.shiftInBit_txd (s : State) (x : Bit) : (s.shiftInBit x).txd = s.txd := (rfl)
@[simp] theorem State.shiftInBit_rxState (s : State) (x : Bit) : (s.shiftInBit x).rxState = s.rxState := (rfl)
@[simp] theorem State.shiftInBit_rxCur (s : State) (x : Bit) : (s.shiftInBit x).rxCur = s.rxCur := (rfl)
@[simp] theorem State.shiftInBit_rxPrev (s : State) (x : Bit) : (s.shiftInBit x).rxPrev = s.rxPrev := (rfl)
@[simp] theorem State.shiftInBit_recvShift (s : State) (x : Bit) : (s.shiftInBit x).recvShift = shiftIn x s.recvShift := (rfl)
@[simp] theorem State.shiftInBit_recvBits (s : State) (x : Bit) : (s.shiftInBit x).recvBits = s.recvBits - 1#4 := (rfl)
@[simp] theorem State.shiftInBit_available (s : State) (x : Bit) : (s.shiftInBit x).available = s.available := (rfl)
@[simp] theorem State.shiftInBit_recvByte (s : State) (x : Bit) : (s.shiftInBit x).recvByte = s.recvByte := (rfl)
@[simp] theorem State.shiftInBit_rxBuf (s : State) (x : Bit) : (s.shiftInBit x).rxBuf = s.rxBuf := (rfl)
@[simp] theorem State.shiftInBit_rxHead (s : State) (x : Bit) : (s.shiftInBit x).rxHead = s.rxHead := (rfl)
@[simp] theorem State.shiftInBit_rxTail (s : State) (x : Bit) : (s.shiftInBit x).rxTail = s.rxTail := (rfl)
@[simp] theorem State.shiftInBit_hostWait (s : State) (x : Bit) : (s.shiftInBit x).hostWait = s.hostWait := (rfl)
@[simp] theorem State.shiftInBit_initialized (s : State) (x : Bit) : (s.shiftInBit x).initialized = s.initialized := (rfl)
@[simp] theorem State.shiftInBit_fault (s : State) (x : Bit) : (s.shiftInBit x).fault = s.fault := (rfl)
@[simp] theorem State.shiftInBit_t (s : State) (x : Bit) : (s.shiftInBit x).t = s.t := (rfl)
@[simp] theorem State.shiftInBit_response (s : State) (x : Bit) : (s.shiftInBit x).response = s.response := (rfl)
@[simp] theorem State.shiftInBit_host (s : State) (x : Bit) : (s.shiftInBit x).host = s.host := (rfl)
@[simp] theorem State.shiftInBit_lines (s : State) (x : Bit) : (s.shiftInBit x).lines = s.lines := (rfl)
@[simp] theorem State.shiftInBit_turns (s : State) (x : Bit) : (s.shiftInBit x).turns = s.turns := (rfl)
@[simp] theorem State.shiftInBit_draws (s : State) (x : Bit) : (s.shiftInBit x).draws = s.draws := (rfl)

/-! `State.awaitEdge` leaves the receiver awaiting an edge. -/

@[simp] theorem State.awaitEdge_cfg (s : State) : (s.awaitEdge).cfg = s.cfg := (rfl)
@[simp] theorem State.awaitEdge_tcnt (s : State) : (s.awaitEdge).tcnt = s.tcnt := (rfl)
@[simp] theorem State.awaitEdge_period (s : State) : (s.awaitEdge).period = s.period := (rfl)
@[simp] theorem State.awaitEdge_ocrTx (s : State) : (s.awaitEdge).ocrTx = s.ocrTx := (rfl)
@[simp] theorem State.awaitEdge_ocrRx (s : State) : (s.awaitEdge).ocrRx = s.ocrRx := (rfl)
@[simp] theorem State.awaitEdge_txIe (s : State) : (s.awaitEdge).txIe = s.txIe := (rfl)
@[simp] theorem State.awaitEdge_rxIe (s : State) : (s.awaitEdge).rxIe = false := (rfl)
@[simp] theorem State.awaitEdge_edgeIe (s : State) : (s.awaitEdge).edgeIe = true := (rfl)
@[simp] theorem State.awaitEdge_txPend (s : State) : (s.awaitEdge).txPend = s.txPend := (rfl)
@[simp] theorem State.awaitEdge_rxPend (s : State) : (s.awaitEdge).rxPend = false := (rfl)
@[simp] theorem State.awaitEdge_edgePend (s : State) : (s.awaitEdge).edgePend = s.edgePend := (rfl)
@[simp] theorem State.awaitEdge_txState (s : State) : (s.awaitEdge).txState = s.txState := (rfl)
@[simp] theorem State.awaitEdge_sendReady (s : State) : (s.awaitEdge).sendReady = s.sendReady := (rfl)
@[simp] theorem State.awaitEdge_sendByte (s : State) : (s.awaitEdge).sendByte = s.sendByte := (rfl)
@[simp] theorem State.awaitEdge_sendBits (s : State) : (s.awaitEdge).sendBits = s.sendBits := (rfl)
@[simp] theorem State.awaitEdge_delay (s : State) : (s.awaitEdge).delay = s.delay := (rfl)
@[simp] theorem State.awaitEdge_txd (s : State) : (s.awaitEdge).txd = s.txd := (rfl)
@[simp] theorem State.awaitEdge_rxState (s : State) : (s.awaitEdge).rxState = .waitStart := (rfl)
@[simp] theorem State.awaitEdge_rxCur (s : State) : (s.awaitEdge).rxCur = s.rxCur := (rfl)
@[simp] theorem State.awaitEdge_rxPrev (s : State) : (s.awaitEdge).rxPrev = s.rxPrev := (rfl)
@[simp] theorem State.awaitEdge_recvShift (s : State) : (s.awaitEdge).recvShift = s.recvShift := (rfl)
@[simp] theorem State.awaitEdge_recvBits (s : State) : (s.awaitEdge).recvBits = s.recvBits := (rfl)
@[simp] theorem State.awaitEdge_available (s : State) : (s.awaitEdge).available = s.available := (rfl)
@[simp] theorem State.awaitEdge_recvByte (s : State) : (s.awaitEdge).recvByte = s.recvByte := (rfl)
@[simp] theorem State.awaitEdge_rxBuf (s : State) : (s.awaitEdge).rxBuf = s.rxBuf := (rfl)
@[simp] theorem State.awaitEdge_rxHead (s : State) : (s.awaitEdge).rxHead = s.rxHead := (rfl)
@[simp] theorem State.awaitEdge_rxTail (s : State) : (s.awaitEdge).rxTail = s.rxTail := (rfl)
@[simp] theorem State.awaitEdge_hostWait (s : State) : (s.awaitEdge).hostWait = s.hostWait := (rfl)
@[simp] theorem State.awaitEdge_initialized (s : State) : (s.awaitEdge).initialized = s.initialized := (rfl)
@[simp] theorem State.awaitEdge_fault (s : State) : (s.awaitEdge).fault = s.fault := (rfl)
@[simp] theorem State.awaitEdge_t (s : State) : (s.awaitEdge).t = s.t := (rfl)
@[simp] theorem State.awaitEdge_response (s : State) : (s.awaitEdge).response = s.response := (rfl)
@[simp] theorem State.awaitEdge_host (s : State) : (s.awaitEdge).host = s.host := (rfl)
@[simp] theorem State.awaitEdge_lines (s : State) : (s.awaitEdge).lines = s.lines := (rfl)
@[simp] theorem State.awaitEdge_turns (s : State) : (s.awaitEdge).turns = s.turns := (rfl)
@[simp] theorem State.awaitEdge_draws (s : State) : (s.awaitEdge).draws = s.draws := (rfl)

/-! `State.quieted` clears what keeps HOST and TIMER from stepping. -/

@[simp] theorem State.quieted_cfg (s : State) : (s.quieted).cfg = s.cfg := (rfl)
@[simp] theorem State.quieted_tcnt (s : State) : (s.quieted).tcnt = s.tcnt := (rfl)
@[simp] theorem State.quieted_period (s : State) : (s.quieted).period = s.period := (rfl)
@[simp] theorem State.quieted_ocrTx (s : State) : (s.quieted).ocrTx = s.ocrTx := (rfl)
@[simp] theorem State.quieted_ocrRx (s : State) : (s.quieted).ocrRx = s.ocrRx := (rfl)
@[simp] theorem State.quieted_txIe (s : State) : (s.quieted).txIe = s.txIe := (rfl)
@[simp] theorem State.quieted_rxIe (s : State) : (s.quieted).rxIe = s.rxIe := (rfl)
@[simp] theorem State.quieted_edgeIe (s : State) : (s.quieted).edgeIe = s.edgeIe := (rfl)
@[simp] theorem State.quieted_txPend (s : State) : (s.quieted).txPend = false := (rfl)
@[simp] theorem State.quieted_rxPend (s : State) : (s.quieted).rxPend = false := (rfl)
@[simp] theorem State.quieted_edgePend (s : State) : (s.quieted).edgePend = false := (rfl)
@[simp] theorem State.quieted_txState (s : State) : (s.quieted).txState = s.txState := (rfl)
@[simp] theorem State.quieted_sendReady (s : State) : (s.quieted).sendReady = s.sendReady := (rfl)
@[simp] theorem State.quieted_sendByte (s : State) : (s.quieted).sendByte = s.sendByte := (rfl)
@[simp] theorem State.quieted_sendBits (s : State) : (s.quieted).sendBits = s.sendBits := (rfl)
@[simp] theorem State.quieted_delay (s : State) : (s.quieted).delay = s.delay := (rfl)
@[simp] theorem State.quieted_txd (s : State) : (s.quieted).txd = s.txd := (rfl)
@[simp] theorem State.quieted_rxState (s : State) : (s.quieted).rxState = s.rxState := (rfl)
@[simp] theorem State.quieted_rxCur (s : State) : (s.quieted).rxCur = s.rxCur := (rfl)
@[simp] theorem State.quieted_rxPrev (s : State) : (s.quieted).rxPrev = s.rxPrev := (rfl)
@[simp] theorem State.quieted_recvShift (s : State) : (s.quieted).recvShift = s.recvShift := (rfl)
@[simp] theorem State.quieted_recvBits (s : State) : (s.quieted).recvBits = s.recvBits := (rfl)
@[simp] theorem State.quieted_available (s : State) : (s.quieted).available = s.available := (rfl)
@[simp] theorem State.quieted_recvByte (s : State) : (s.quieted).recvByte = s.recvByte := (rfl)
@[simp] theorem State.quieted_rxBuf (s : State) : (s.quieted).rxBuf = s.rxBuf := (rfl)
@[simp] theorem State.quieted_rxHead (s : State) : (s.quieted).rxHead = s.rxHead := (rfl)
@[simp] theorem State.quieted_rxTail (s : State) : (s.quieted).rxTail = s.rxTail := (rfl)
@[simp] theorem State.quieted_hostWait (s : State) : (s.quieted).hostWait = s.hostWait := (rfl)
@[simp] theorem State.quieted_initialized (s : State) : (s.quieted).initialized = s.initialized := (rfl)
@[simp] theorem State.quieted_fault (s : State) : (s.quieted).fault = none := (rfl)
@[simp] theorem State.quieted_t (s : State) : (s.quieted).t = s.t := (rfl)
@[simp] theorem State.quieted_response (s : State) : (s.quieted).response = s.response := (rfl)
@[simp] theorem State.quieted_host (s : State) : (s.quieted).host = s.host := (rfl)
@[simp] theorem State.quieted_lines (s : State) : (s.quieted).lines = s.lines := (rfl)
@[simp] theorem State.quieted_turns (s : State) : (s.quieted).turns = s.turns := (rfl)
@[simp] theorem State.quieted_draws (s : State) : (s.quieted).draws = s.draws := (rfl)

/-! `State.latchIrq` may set one pending flag. -/

@[simp] theorem State.latchIrq_cfg (s : State) (src : IrqSource) : (s.latchIrq src).cfg = s.cfg := by
  unfold State.latchIrq; split <;> simp
@[simp] theorem State.latchIrq_tcnt (s : State) (src : IrqSource) : (s.latchIrq src).tcnt = s.tcnt := by
  unfold State.latchIrq; split <;> simp
@[simp] theorem State.latchIrq_period (s : State) (src : IrqSource) : (s.latchIrq src).period = s.period := by
  unfold State.latchIrq; split <;> simp
@[simp] theorem State.latchIrq_ocrTx (s : State) (src : IrqSource) : (s.latchIrq src).ocrTx = s.ocrTx := by
  unfold State.latchIrq; split <;> simp
@[simp] theorem State.latchIrq_ocrRx (s : State) (src : IrqSource) : (s.latchIrq src).ocrRx = s.ocrRx := by
  unfold State.latchIrq; split <;> simp
@[simp] theorem State.latchIrq_txIe (s : State) (src : IrqSource) : (s.latchIrq src).txIe = s.txIe := by
  unfold State.latchIrq; split <;> simp
@[simp] theorem State.latchIrq_rxIe (s : State) (src : IrqSource) : (s.latchIrq src).rxIe = s.rxIe := by
  unfold State.latchIrq; split <;> simp
@[simp] theorem State.latchIrq_edgeIe (s : State) (src : IrqSource) : (s.latchIrq src).edgeIe = s.edgeIe := by
  unfold State.latchIrq; split <;> simp
@[simp] theorem State.latchIrq_edge_txPend (s : State) : (s.latchIrq .edge).txPend = s.txPend := by
  unfold State.latchIrq; split <;> simp_all [State.enabled, State.irqEvent]
@[simp] theorem State.latchIrq_rx_txPend (s : State) : (s.latchIrq .rx).txPend = s.txPend := by
  unfold State.latchIrq; split <;> simp_all [State.enabled, State.irqEvent]
@[simp] theorem State.latchIrq_tx_txPend (s : State) : (s.latchIrq .tx).txPend = (s.txPend || (s.txIe && decide (s.tcnt = s.ocrTx))) := by
  unfold State.latchIrq; split <;> simp_all [State.enabled, State.irqEvent]
@[simp] theorem State.latchIrq_edge_rxPend (s : State) : (s.latchIrq .edge).rxPend = s.rxPend := by
  unfold State.latchIrq; split <;> simp_all [State.enabled, State.irqEvent]
@[simp] theorem State.latchIrq_rx_rxPend (s : State) : (s.latchIrq .rx).rxPend = (s.rxPend || (s.rxIe && decide (s.tcnt = s.ocrRx))) := by
  unfold State.latchIrq; split <;> simp_all [State.enabled, State.irqEvent]
@[simp] theorem State.latchIrq_tx_rxPend (s : State) : (s.latchIrq .tx).rxPend = s.rxPend := by
  unfold State.latchIrq; split <;> simp_all [State.enabled, State.irqEvent]
@[simp] theorem State.latchIrq_edge_edgePend (s : State) : (s.latchIrq .edge).edgePend = (s.edgePend || (s.edgeIe && s.fallingEdge)) := by
  unfold State.latchIrq; split <;> simp_all [State.enabled, State.irqEvent]
@[simp] theorem State.latchIrq_rx_edgePend (s : State) : (s.latchIrq .rx).edgePend = s.edgePend := by
  unfold State.latchIrq; split <;> simp_all [State.enabled, State.irqEvent]
@[simp] theorem State.latchIrq_tx_edgePend (s : State) : (s.latchIrq .tx).edgePend = s.edgePend := by
  unfold State.latchIrq; split <;> simp_all [State.enabled, State.irqEvent]
@[simp] theorem State.latchIrq_txState (s : State) (src : IrqSource) : (s.latchIrq src).txState = s.txState := by
  unfold State.latchIrq; split <;> simp
@[simp] theorem State.latchIrq_sendReady (s : State) (src : IrqSource) : (s.latchIrq src).sendReady = s.sendReady := by
  unfold State.latchIrq; split <;> simp
@[simp] theorem State.latchIrq_sendByte (s : State) (src : IrqSource) : (s.latchIrq src).sendByte = s.sendByte := by
  unfold State.latchIrq; split <;> simp
@[simp] theorem State.latchIrq_sendBits (s : State) (src : IrqSource) : (s.latchIrq src).sendBits = s.sendBits := by
  unfold State.latchIrq; split <;> simp
@[simp] theorem State.latchIrq_delay (s : State) (src : IrqSource) : (s.latchIrq src).delay = s.delay := by
  unfold State.latchIrq; split <;> simp
@[simp] theorem State.latchIrq_txd (s : State) (src : IrqSource) : (s.latchIrq src).txd = s.txd := by
  unfold State.latchIrq; split <;> simp
@[simp] theorem State.latchIrq_rxState (s : State) (src : IrqSource) : (s.latchIrq src).rxState = s.rxState := by
  unfold State.latchIrq; split <;> simp
@[simp] theorem State.latchIrq_rxCur (s : State) (src : IrqSource) : (s.latchIrq src).rxCur = s.rxCur := by
  unfold State.latchIrq; split <;> simp
@[simp] theorem State.latchIrq_rxPrev (s : State) (src : IrqSource) : (s.latchIrq src).rxPrev = s.rxPrev := by
  unfold State.latchIrq; split <;> simp
@[simp] theorem State.latchIrq_recvShift (s : State) (src : IrqSource) : (s.latchIrq src).recvShift = s.recvShift := by
  unfold State.latchIrq; split <;> simp
@[simp] theorem State.latchIrq_recvBits (s : State) (src : IrqSource) : (s.latchIrq src).recvBits = s.recvBits := by
  unfold State.latchIrq; split <;> simp
@[simp] theorem State.latchIrq_available (s : State) (src : IrqSource) : (s.latchIrq src).available = s.available := by
  unfold State.latchIrq; split <;> simp
@[simp] theorem State.latchIrq_recvByte (s : State) (src : IrqSource) : (s.latchIrq src).recvByte = s.recvByte := by
  unfold State.latchIrq; split <;> simp
@[simp] theorem State.latchIrq_rxBuf (s : State) (src : IrqSource) : (s.latchIrq src).rxBuf = s.rxBuf := by
  unfold State.latchIrq; split <;> simp
@[simp] theorem State.latchIrq_rxHead (s : State) (src : IrqSource) : (s.latchIrq src).rxHead = s.rxHead := by
  unfold State.latchIrq; split <;> simp
@[simp] theorem State.latchIrq_rxTail (s : State) (src : IrqSource) : (s.latchIrq src).rxTail = s.rxTail := by
  unfold State.latchIrq; split <;> simp
@[simp] theorem State.latchIrq_hostWait (s : State) (src : IrqSource) : (s.latchIrq src).hostWait = s.hostWait := by
  unfold State.latchIrq; split <;> simp
@[simp] theorem State.latchIrq_initialized (s : State) (src : IrqSource) : (s.latchIrq src).initialized = s.initialized := by
  unfold State.latchIrq; split <;> simp
@[simp] theorem State.latchIrq_fault (s : State) (src : IrqSource) : (s.latchIrq src).fault = s.fault := by
  unfold State.latchIrq; split <;> simp
@[simp] theorem State.latchIrq_t (s : State) (src : IrqSource) : (s.latchIrq src).t = s.t := by
  unfold State.latchIrq; split <;> simp
@[simp] theorem State.latchIrq_response (s : State) (src : IrqSource) : (s.latchIrq src).response = s.response := by
  unfold State.latchIrq; split <;> simp
@[simp] theorem State.latchIrq_host (s : State) (src : IrqSource) : (s.latchIrq src).host = s.host := by
  unfold State.latchIrq; split <;> simp
@[simp] theorem State.latchIrq_lines (s : State) (src : IrqSource) : (s.latchIrq src).lines = s.lines := by
  unfold State.latchIrq; split <;> simp
@[simp] theorem State.latchIrq_turns (s : State) (src : IrqSource) : (s.latchIrq src).turns = s.turns := by
  unfold State.latchIrq; split <;> simp
@[simp] theorem State.latchIrq_draws (s : State) (src : IrqSource) : (s.latchIrq src).draws = s.draws := by
  unfold State.latchIrq; split <;> simp

/-! `State.dropOldest` may advance the tail. -/

@[simp] theorem State.dropOldest_cfg (s : State) : (s.dropOldest).cfg = s.cfg := by
  unfold State.dropOldest; split <;> rfl
@[simp] theorem State.dropOldest_tcnt (s : State) : (s.dropOldest).tcnt = s.tcnt := by
  unfold State.dropOldest; split <;> rfl
@[simp] theorem State.dropOldest_period (s : State) : (s.dropOldest).period = s.period := by
  unfold State.dropOldest; split <;> rfl
@[simp] theorem State.dropOldest_ocrTx (s : State) : (s.dropOldest).ocrTx = s.ocrTx := by
  unfold State.dropOldest; split <;> rfl
@[simp] theorem State.dropOldest_ocrRx (s : State) : (s.dropOldest).ocrRx = s.ocrRx := by
  unfold State.dropOldest; split <;> rfl
@[simp] theorem State.dropOldest_txIe (s : State) : (s.dropOldest).txIe = s.txIe := by
  unfold State.dropOldest; split <;> rfl
@[simp] theorem State.dropOldest_rxIe (s : State) : (s.dropOldest).rxIe = s.rxIe := by
  unfold State.dropOldest; split <;> rfl
@[simp] theorem State.dropOldest_edgeIe (s : State) : (s.dropOldest).edgeIe = s.edgeIe := by
  unfold State.dropOldest; split <;> rfl
@[simp] theorem State.dropOldest_txPend (s : State) : (s.dropOldest).txPend = s.txPend := by
  unfold State.dropOldest; split <;> rfl
@[simp] theorem State.dropOldest_rxPend (s : State) : (s.dropOldest).rxPend = s.rxPend := by
  unfold State.dropOldest; split <;> rfl
@[simp] theorem State.dropOldest_edgePend (s : State) : (s.dropOldest).edgePend = s.edgePend := by
  unfold State.dropOldest; split <;> rfl
@[simp] theorem State.dropOldest_txState (s : State) : (s.dropOldest).txState = s.txState := by
  unfold State.dropOldest; split <;> rfl
@[simp] theorem State.dropOldest_sendReady (s : State) : (s.dropOldest).sendReady = s.sendReady := by
  unfold State.dropOldest; split <;> rfl
@[simp] theorem State.dropOldest_sendByte (s : State) : (s.dropOldest).sendByte = s.sendByte := by
  unfold State.dropOldest; split <;> rfl
@[simp] theorem State.dropOldest_sendBits (s : State) : (s.dropOldest).sendBits = s.sendBits := by
  unfold State.dropOldest; split <;> rfl
@[simp] theorem State.dropOldest_delay (s : State) : (s.dropOldest).delay = s.delay := by
  unfold State.dropOldest; split <;> rfl
@[simp] theorem State.dropOldest_txd (s : State) : (s.dropOldest).txd = s.txd := by
  unfold State.dropOldest; split <;> rfl
@[simp] theorem State.dropOldest_rxState (s : State) : (s.dropOldest).rxState = s.rxState := by
  unfold State.dropOldest; split <;> rfl
@[simp] theorem State.dropOldest_rxCur (s : State) : (s.dropOldest).rxCur = s.rxCur := by
  unfold State.dropOldest; split <;> rfl
@[simp] theorem State.dropOldest_rxPrev (s : State) : (s.dropOldest).rxPrev = s.rxPrev := by
  unfold State.dropOldest; split <;> rfl
@[simp] theorem State.dropOldest_recvShift (s : State) : (s.dropOldest).recvShift = s.recvShift := by
  unfold State.dropOldest; split <;> rfl
@[simp] theorem State.dropOldest_recvBits (s : State) : (s.dropOldest).recvBits = s.recvBits := by
  unfold State.dropOldest; split <;> rfl
@[simp] theorem State.dropOldest_available (s : State) : (s.dropOldest).available = s.available := by
  unfold State.dropOldest; split <;> rfl
@[simp] theorem State.dropOldest_recvByte (s : State) : (s.dropOldest).recvByte = s.recvByte := by
  unfold State.dropOldest; split <;> rfl
@[simp] theorem State.dropOldest_rxBuf (s : State) : (s.dropOldest).rxBuf = s.rxBuf := by
  unfold State.dropOldest; split <;> rfl
@[simp] theorem State.dropOldest_rxHead (s : State) : (s.dropOldest).rxHead = s.rxHead := by
  unfold State.dropOldest; split <;> rfl
@[simp] theorem State.dropOldest_hostWait (s : State) : (s.dropOldest).hostWait = s.hostWait := by
  unfold State.dropOldest; split <;> rfl
@[simp] theorem State.dropOldest_initialized (s : State) : (s.dropOldest).initialized = s.initialized := by
  unfold State.dropOldest; split <;> rfl
@[simp] theorem State.dropOldest_fault (s : State) : (s.dropOldest).fault = s.fault := by
  unfold State.dropOldest; split <;> rfl
@[simp] theorem State.dropOldest_t (s : State) : (s.dropOldest).t = s.t := by
  unfold State.dropOldest; split <;> rfl
@[simp] theorem State.dropOldest_response (s : State) : (s.dropOldest).response = s.response := by
  unfold State.dropOldest; split <;> rfl
@[simp] theorem State.dropOldest_host (s : State) : (s.dropOldest).host = s.host := by
  unfold State.dropOldest; split <;> rfl
@[simp] theorem State.dropOldest_lines (s : State) : (s.dropOldest).lines = s.lines := by
  unfold State.dropOldest; split <;> rfl
@[simp] theorem State.dropOldest_turns (s : State) : (s.dropOldest).turns = s.turns := by
  unfold State.dropOldest; split <;> rfl
@[simp] theorem State.dropOldest_draws (s : State) : (s.dropOldest).draws = s.draws := by
  unfold State.dropOldest; split <;> rfl

theorem State.dropOldest_rxTail (s : State) :
    s.dropOldest.rxTail = if s.rxHead = s.rxTail then s.nextSlot s.rxTail else s.rxTail := by
  unfold State.dropOldest; split <;> rfl

/-! `State.bufPush` is the buffered commit. -/

@[simp] theorem State.bufPush_cfg (s : State) (v : Byte) : (s.bufPush v).cfg = s.cfg := by
  unfold State.bufPush State.dropOldest; split <;> rfl
@[simp] theorem State.bufPush_tcnt (s : State) (v : Byte) : (s.bufPush v).tcnt = s.tcnt := by
  unfold State.bufPush State.dropOldest; split <;> rfl
@[simp] theorem State.bufPush_period (s : State) (v : Byte) : (s.bufPush v).period = s.period := by
  unfold State.bufPush State.dropOldest; split <;> rfl
@[simp] theorem State.bufPush_ocrTx (s : State) (v : Byte) : (s.bufPush v).ocrTx = s.ocrTx := by
  unfold State.bufPush State.dropOldest; split <;> rfl
@[simp] theorem State.bufPush_ocrRx (s : State) (v : Byte) : (s.bufPush v).ocrRx = s.ocrRx := by
  unfold State.bufPush State.dropOldest; split <;> rfl
@[simp] theorem State.bufPush_txIe (s : State) (v : Byte) : (s.bufPush v).txIe = s.txIe := by
  unfold State.bufPush State.dropOldest; split <;> rfl
@[simp] theorem State.bufPush_rxIe (s : State) (v : Byte) : (s.bufPush v).rxIe = s.rxIe := by
  unfold State.bufPush State.dropOldest; split <;> rfl
@[simp] theorem State.bufPush_edgeIe (s : State) (v : Byte) : (s.bufPush v).edgeIe = s.edgeIe := by
  unfold State.bufPush State.dropOldest; split <;> rfl
@[simp] theorem State.bufPush_txPend (s : State) (v : Byte) : (s.bufPush v).txPend = s.txPend := by
  unfold State.bufPush State.dropOldest; split <;> rfl
@[simp] theorem State.bufPush_rxPend (s : State) (v : Byte) : (s.bufPush v).rxPend = s.rxPend := by
  unfold State.bufPush State.dropOldest; split <;> rfl
@[simp] theorem State.bufPush_edgePend (s : State) (v : Byte) : (s.bufPush v).edgePend = s.edgePend := by
  unfold State.bufPush State.dropOldest; split <;> rfl
@[simp] theorem State.bufPush_txState (s : State) (v : Byte) : (s.bufPush v).txState = s.txState := by
  unfold State.bufPush State.dropOldest; split <;> rfl
@[simp] theorem State.bufPush_sendReady (s : State) (v : Byte) : (s.bufPush v).sendReady = s.sendReady := by
  unfold State.bufPush State.dropOldest; split <;> rfl
@[simp] theorem State.bufPush_sendByte (s : State) (v : Byte) : (s.bufPush v).sendByte = s.sendByte := by
  unfold State.bufPush State.dropOldest; split <;> rfl
@[simp] theorem State.bufPush_sendBits (s : State) (v : Byte) : (s.bufPush v).sendBits = s.sendBits := by
  unfold State.bufPush State.dropOldest; split <;> rfl
@[simp] theorem State.bufPush_delay (s : State) (v : Byte) : (s.bufPush v).delay = s.delay := by
  unfold State.bufPush State.dropOldest; split <;> rfl
@[simp] theorem State.bufPush_txd (s : State) (v : Byte) : (s.bufPush v).txd = s.txd := by
  unfold State.bufPush State.dropOldest; split <;> rfl
@[simp] theorem State.bufPush_rxState (s : State) (v : Byte) : (s.bufPush v).rxState = s.rxState := by
  unfold State.bufPush State.dropOldest; split <;> rfl
@[simp] theorem State.bufPush_rxCur (s : State) (v : Byte) : (s.bufPush v).rxCur = s.rxCur := by
  unfold State.bufPush State.dropOldest; split <;> rfl
@[simp] theorem State.bufPush_rxPrev (s : State) (v : Byte) : (s.bufPush v).rxPrev = s.rxPrev := by
  unfold State.bufPush State.dropOldest; split <;> rfl
@[simp] theorem State.bufPush_recvShift (s : State) (v : Byte) : (s.bufPush v).recvShift = s.recvShift := by
  unfold State.bufPush State.dropOldest; split <;> rfl
@[simp] theorem State.bufPush_recvBits (s : State) (v : Byte) : (s.bufPush v).recvBits = s.recvBits := by
  unfold State.bufPush State.dropOldest; split <;> rfl
@[simp] theorem State.bufPush_available (s : State) (v : Byte) : (s.bufPush v).available = s.available := by
  unfold State.bufPush State.dropOldest; split <;> rfl
@[simp] theorem State.bufPush_recvByte (s : State) (v : Byte) : (s.bufPush v).recvByte = s.recvByte := by
  unfold State.bufPush State.dropOldest; split <;> rfl
@[simp] theorem State.bufPush_rxBuf (s : State) (v : Byte) : (s.bufPush v).rxBuf = s.rxBuf.write s.rxHead v := by
  unfold State.bufPush State.dropOldest; split <;> rfl
@[simp] theorem State.bufPush_rxHead (s : State) (v : Byte) : (s.bufPush v).rxHead = s.nextSlot s.rxHead := by
  unfold State.bufPush State.dropOldest; split <;> rfl
@[simp] theorem State.bufPush_hostWait (s : State) (v : Byte) : (s.bufPush v).hostWait = s.hostWait := by
  unfold State.bufPush State.dropOldest; split <;> rfl
@[simp] theorem State.bufPush_initialized (s : State) (v : Byte) : (s.bufPush v).initialized = s.initialized := by
  unfold State.bufPush State.dropOldest; split <;> rfl
@[simp] theorem State.bufPush_fault (s : State) (v : Byte) : (s.bufPush v).fault = s.fault := by
  unfold State.bufPush State.dropOldest; split <;> rfl
@[simp] theorem State.bufPush_t (s : State) (v : Byte) : (s.bufPush v).t = s.t := by
  unfold State.bufPush State.dropOldest; split <;> rfl
@[simp] theorem State.bufPush_response (s : State) (v : Byte) : (s.bufPush v).response = s.response := by
  unfold State.bufPush State.dropOldest; split <;> rfl
@[simp] theorem State.bufPush_host (s : State) (v : Byte) : (s.bufPush v).host = s.host := by
  unfold State.bufPush State.dropOldest; split <;> rfl
@[simp] theorem State.bufPush_lines (s : State) (v : Byte) : (s.bufPush v).lines = s.lines := by
  unfold State.bufPush State.dropOldest; split <;> rfl
@[simp] theorem State.bufPush_turns (s : State) (v : Byte) : (s.bufPush v).turns = s.turns := by
  unfold State.bufPush State.dropOldest; split <;> rfl
@[simp] theorem State.bufPush_draws (s : State) (v : Byte) : (s.bufPush v).draws = s.draws := by
  unfold State.bufPush State.dropOldest; split <;> rfl

theorem State.bufPush_rxTail (s : State) (v : Byte) :
    (s.bufPush v).rxTail = if s.nextSlot s.rxHead = s.rxTail then s.nextSlot s.rxTail else s.rxTail := by
  unfold State.bufPush; rw [State.dropOldest_rxTail]; rfl

/-! `State.programTimer` is INIT's part for the timer. -/

@[simp] theorem State.programTimer_cfg (s : State) : (s.programTimer).cfg = s.cfg := (rfl)
@[simp] theorem State.programTimer_tcnt (s : State) : (s.programTimer).tcnt = s.draw 0 s.cfg.bitPeriod := (rfl)
@[simp] theorem State.programTimer_period (s : State) : (s.programTimer).period = s.cfg.bitPeriod := (rfl)
@[simp] theorem State.programTimer_ocrTx (s : State) : (s.programTimer).ocrTx = s.draw 1 s.cfg.bitPeriod := (rfl)
@[simp] theorem State.programTimer_ocrRx (s : State) : (s.programTimer).ocrRx = s.draw 2 s.cfg.bitPeriod := (rfl)
@[simp] theorem State.programTimer_txIe (s : State) : (s.programTimer).txIe = s.txIe := (rfl)
@[simp] theorem State.programTimer_rxIe (s : State) : (s.programTimer).rxIe = s.rxIe := (rfl)
@[simp] theorem State.programTimer_edgeIe (s : State) : (s.programTimer).edgeIe = s.edgeIe := (rfl)
@[simp] theorem State.programTimer_txPend (s : State) : (s.programTimer).txPend = s.txPend := (rfl)
@[simp] theorem State.programTimer_rxPend (s : State) : (s.programTimer).rxPend = s.rxPend := (rfl)
@[simp] theorem State.programTimer_edgePend (s : State) : (s.programTimer).edgePend = s.edgePend := (rfl)
@[simp] theorem State.programTimer_txState (s : State) : (s.programTimer).txState = s.txState := (rfl)
@[simp] theorem State.programTimer_sendReady (s : State) : (s.programTimer).sendReady = s.sendReady := (rfl)
@[simp] theorem State.programTimer_sendByte (s : State) : (s.programTimer).sendByte = s.sendByte := (rfl)
@[simp] theorem State.programTimer_sendBits (s : State) : (s.programTimer).sendBits = s.sendBits := (rfl)
@[simp] theorem State.programTimer_delay (s : State) : (s.programTimer).delay = s.delay := (rfl)
@[simp] theorem State.programTimer_txd (s : State) : (s.programTimer).txd = s.txd := (rfl)
@[simp] theorem State.programTimer_rxState (s : State) : (s.programTimer).rxState = s.rxState := (rfl)
@[simp] theorem State.programTimer_rxCur (s : State) : (s.programTimer).rxCur = s.rxCur := (rfl)
@[simp] theorem State.programTimer_rxPrev (s : State) : (s.programTimer).rxPrev = s.rxPrev := (rfl)
@[simp] theorem State.programTimer_recvShift (s : State) : (s.programTimer).recvShift = s.recvShift := (rfl)
@[simp] theorem State.programTimer_recvBits (s : State) : (s.programTimer).recvBits = s.recvBits := (rfl)
@[simp] theorem State.programTimer_available (s : State) : (s.programTimer).available = s.available := (rfl)
@[simp] theorem State.programTimer_recvByte (s : State) : (s.programTimer).recvByte = s.recvByte := (rfl)
@[simp] theorem State.programTimer_rxBuf (s : State) : (s.programTimer).rxBuf = s.rxBuf := (rfl)
@[simp] theorem State.programTimer_rxHead (s : State) : (s.programTimer).rxHead = s.rxHead := (rfl)
@[simp] theorem State.programTimer_rxTail (s : State) : (s.programTimer).rxTail = s.rxTail := (rfl)
@[simp] theorem State.programTimer_hostWait (s : State) : (s.programTimer).hostWait = s.hostWait := (rfl)
@[simp] theorem State.programTimer_initialized (s : State) : (s.programTimer).initialized = s.initialized := (rfl)
@[simp] theorem State.programTimer_fault (s : State) : (s.programTimer).fault = s.fault := (rfl)
@[simp] theorem State.programTimer_t (s : State) : (s.programTimer).t = s.t := (rfl)
@[simp] theorem State.programTimer_response (s : State) : (s.programTimer).response = s.response := (rfl)
@[simp] theorem State.programTimer_host (s : State) : (s.programTimer).host = s.host := (rfl)
@[simp] theorem State.programTimer_lines (s : State) : (s.programTimer).lines = s.lines := (rfl)
@[simp] theorem State.programTimer_turns (s : State) : (s.programTimer).turns = s.turns := (rfl)
@[simp] theorem State.programTimer_draws (s : State) : (s.programTimer).draws = s.draws + 3 := (rfl)

/-! `State.setupTransmit` is INIT's part for the transmit engine. -/

@[simp] theorem State.setupTransmit_cfg (s : State) : (s.setupTransmit).cfg = s.cfg := (rfl)
@[simp] theorem State.setupTransmit_tcnt (s : State) : (s.setupTransmit).tcnt = s.tcnt := (rfl)
@[simp] theorem State.setupTransmit_period (s : State) : (s.setupTransmit).period = s.period := (rfl)
@[simp] theorem State.setupTransmit_ocrTx (s : State) : (s.setupTransmit).ocrTx = s.ocrTx := (rfl)
@[simp] theorem State.setupTransmit_ocrRx (s : State) : (s.setupTransmit).ocrRx = s.ocrRx := (rfl)
@[simp] theorem State.setupTransmit_txIe (s : State) : (s.setupTransmit).txIe = false := (rfl)
@[simp] theorem State.setupTransmit_rxIe (s : State) : (s.setupTransmit).rxIe = s.rxIe := (rfl)
@[simp] theorem State.setupTransmit_edgeIe (s : State) : (s.setupTransmit).edgeIe = s.edgeIe := (rfl)
@[simp] theorem State.setupTransmit_txPend (s : State) : (s.setupTransmit).txPend = false := (rfl)
@[simp] theorem State.setupTransmit_rxPend (s : State) : (s.setupTransmit).rxPend = s.rxPend := (rfl)
@[simp] theorem State.setupTransmit_edgePend (s : State) : (s.setupTransmit).edgePend = s.edgePend := (rfl)
@[simp] theorem State.setupTransmit_txState (s : State) : (s.setupTransmit).txState = .idle := (rfl)
@[simp] theorem State.setupTransmit_sendReady (s : State) : (s.setupTransmit).sendReady = true := (rfl)
@[simp] theorem State.setupTransmit_sendByte (s : State) : (s.setupTransmit).sendByte = 0#8 := (rfl)
@[simp] theorem State.setupTransmit_sendBits (s : State) : (s.setupTransmit).sendBits = 0#4 := (rfl)
@[simp] theorem State.setupTransmit_delay (s : State) : (s.setupTransmit).delay = 0 := (rfl)
@[simp] theorem State.setupTransmit_txd (s : State) : (s.setupTransmit).txd = 1#1 := (rfl)
@[simp] theorem State.setupTransmit_rxState (s : State) : (s.setupTransmit).rxState = s.rxState := (rfl)
@[simp] theorem State.setupTransmit_rxCur (s : State) : (s.setupTransmit).rxCur = s.rxCur := (rfl)
@[simp] theorem State.setupTransmit_rxPrev (s : State) : (s.setupTransmit).rxPrev = s.rxPrev := (rfl)
@[simp] theorem State.setupTransmit_recvShift (s : State) : (s.setupTransmit).recvShift = s.recvShift := (rfl)
@[simp] theorem State.setupTransmit_recvBits (s : State) : (s.setupTransmit).recvBits = s.recvBits := (rfl)
@[simp] theorem State.setupTransmit_available (s : State) : (s.setupTransmit).available = s.available := (rfl)
@[simp] theorem State.setupTransmit_recvByte (s : State) : (s.setupTransmit).recvByte = s.recvByte := (rfl)
@[simp] theorem State.setupTransmit_rxBuf (s : State) : (s.setupTransmit).rxBuf = s.rxBuf := (rfl)
@[simp] theorem State.setupTransmit_rxHead (s : State) : (s.setupTransmit).rxHead = s.rxHead := (rfl)
@[simp] theorem State.setupTransmit_rxTail (s : State) : (s.setupTransmit).rxTail = s.rxTail := (rfl)
@[simp] theorem State.setupTransmit_hostWait (s : State) : (s.setupTransmit).hostWait = s.hostWait := (rfl)
@[simp] theorem State.setupTransmit_initialized (s : State) : (s.setupTransmit).initialized = s.initialized := (rfl)
@[simp] theorem State.setupTransmit_fault (s : State) : (s.setupTransmit).fault = s.fault := (rfl)
@[simp] theorem State.setupTransmit_t (s : State) : (s.setupTransmit).t = s.t := (rfl)
@[simp] theorem State.setupTransmit_response (s : State) : (s.setupTransmit).response = s.response := (rfl)
@[simp] theorem State.setupTransmit_host (s : State) : (s.setupTransmit).host = s.host := (rfl)
@[simp] theorem State.setupTransmit_lines (s : State) : (s.setupTransmit).lines = s.lines := (rfl)
@[simp] theorem State.setupTransmit_turns (s : State) : (s.setupTransmit).turns = s.turns := (rfl)
@[simp] theorem State.setupTransmit_draws (s : State) : (s.setupTransmit).draws = s.draws := (rfl)

/-! `State.setupReceive` is INIT's part for the receive engine. -/

@[simp] theorem State.setupReceive_cfg (s : State) : (s.setupReceive).cfg = s.cfg := (rfl)
@[simp] theorem State.setupReceive_tcnt (s : State) : (s.setupReceive).tcnt = s.tcnt := (rfl)
@[simp] theorem State.setupReceive_period (s : State) : (s.setupReceive).period = s.period := (rfl)
@[simp] theorem State.setupReceive_ocrTx (s : State) : (s.setupReceive).ocrTx = s.ocrTx := (rfl)
@[simp] theorem State.setupReceive_ocrRx (s : State) : (s.setupReceive).ocrRx = s.ocrRx := (rfl)
@[simp] theorem State.setupReceive_txIe (s : State) : (s.setupReceive).txIe = s.txIe := (rfl)
@[simp] theorem State.setupReceive_rxIe (s : State) : (s.setupReceive).rxIe = false := (rfl)
@[simp] theorem State.setupReceive_edgeIe (s : State) : (s.setupReceive).edgeIe = true := (rfl)
@[simp] theorem State.setupReceive_txPend (s : State) : (s.setupReceive).txPend = s.txPend := (rfl)
@[simp] theorem State.setupReceive_rxPend (s : State) : (s.setupReceive).rxPend = false := (rfl)
@[simp] theorem State.setupReceive_edgePend (s : State) : (s.setupReceive).edgePend = false := (rfl)
@[simp] theorem State.setupReceive_txState (s : State) : (s.setupReceive).txState = s.txState := (rfl)
@[simp] theorem State.setupReceive_sendReady (s : State) : (s.setupReceive).sendReady = s.sendReady := (rfl)
@[simp] theorem State.setupReceive_sendByte (s : State) : (s.setupReceive).sendByte = s.sendByte := (rfl)
@[simp] theorem State.setupReceive_sendBits (s : State) : (s.setupReceive).sendBits = s.sendBits := (rfl)
@[simp] theorem State.setupReceive_delay (s : State) : (s.setupReceive).delay = s.delay := (rfl)
@[simp] theorem State.setupReceive_txd (s : State) : (s.setupReceive).txd = s.txd := (rfl)
@[simp] theorem State.setupReceive_rxState (s : State) : (s.setupReceive).rxState = .waitStart := (rfl)
@[simp] theorem State.setupReceive_rxCur (s : State) : (s.setupReceive).rxCur = s.rxCur := (rfl)
@[simp] theorem State.setupReceive_rxPrev (s : State) : (s.setupReceive).rxPrev = s.rxPrev := (rfl)
@[simp] theorem State.setupReceive_recvShift (s : State) : (s.setupReceive).recvShift = 0#8 := (rfl)
@[simp] theorem State.setupReceive_recvBits (s : State) : (s.setupReceive).recvBits = 0#4 := (rfl)
@[simp] theorem State.setupReceive_available (s : State) : (s.setupReceive).available = s.available := (rfl)
@[simp] theorem State.setupReceive_recvByte (s : State) : (s.setupReceive).recvByte = s.recvByte := (rfl)
@[simp] theorem State.setupReceive_rxBuf (s : State) : (s.setupReceive).rxBuf = s.rxBuf := (rfl)
@[simp] theorem State.setupReceive_rxHead (s : State) : (s.setupReceive).rxHead = s.rxHead := (rfl)
@[simp] theorem State.setupReceive_rxTail (s : State) : (s.setupReceive).rxTail = s.rxTail := (rfl)
@[simp] theorem State.setupReceive_hostWait (s : State) : (s.setupReceive).hostWait = s.hostWait := (rfl)
@[simp] theorem State.setupReceive_initialized (s : State) : (s.setupReceive).initialized = s.initialized := (rfl)
@[simp] theorem State.setupReceive_fault (s : State) : (s.setupReceive).fault = s.fault := (rfl)
@[simp] theorem State.setupReceive_t (s : State) : (s.setupReceive).t = s.t := (rfl)
@[simp] theorem State.setupReceive_response (s : State) : (s.setupReceive).response = s.response := (rfl)
@[simp] theorem State.setupReceive_host (s : State) : (s.setupReceive).host = s.host := (rfl)
@[simp] theorem State.setupReceive_lines (s : State) : (s.setupReceive).lines = s.lines := (rfl)
@[simp] theorem State.setupReceive_turns (s : State) : (s.setupReceive).turns = s.turns := (rfl)
@[simp] theorem State.setupReceive_draws (s : State) : (s.setupReceive).draws = s.draws := (rfl)

/-! `State.setupBuffer` is INIT's part for the receive buffer. -/

@[simp] theorem State.setupBuffer_cfg (s : State) : (s.setupBuffer).cfg = s.cfg := by
  unfold State.setupBuffer; split <;> rfl
@[simp] theorem State.setupBuffer_tcnt (s : State) : (s.setupBuffer).tcnt = s.tcnt := by
  unfold State.setupBuffer; split <;> rfl
@[simp] theorem State.setupBuffer_period (s : State) : (s.setupBuffer).period = s.period := by
  unfold State.setupBuffer; split <;> rfl
@[simp] theorem State.setupBuffer_ocrTx (s : State) : (s.setupBuffer).ocrTx = s.ocrTx := by
  unfold State.setupBuffer; split <;> rfl
@[simp] theorem State.setupBuffer_ocrRx (s : State) : (s.setupBuffer).ocrRx = s.ocrRx := by
  unfold State.setupBuffer; split <;> rfl
@[simp] theorem State.setupBuffer_txIe (s : State) : (s.setupBuffer).txIe = s.txIe := by
  unfold State.setupBuffer; split <;> rfl
@[simp] theorem State.setupBuffer_rxIe (s : State) : (s.setupBuffer).rxIe = s.rxIe := by
  unfold State.setupBuffer; split <;> rfl
@[simp] theorem State.setupBuffer_edgeIe (s : State) : (s.setupBuffer).edgeIe = s.edgeIe := by
  unfold State.setupBuffer; split <;> rfl
@[simp] theorem State.setupBuffer_txPend (s : State) : (s.setupBuffer).txPend = s.txPend := by
  unfold State.setupBuffer; split <;> rfl
@[simp] theorem State.setupBuffer_rxPend (s : State) : (s.setupBuffer).rxPend = s.rxPend := by
  unfold State.setupBuffer; split <;> rfl
@[simp] theorem State.setupBuffer_edgePend (s : State) : (s.setupBuffer).edgePend = s.edgePend := by
  unfold State.setupBuffer; split <;> rfl
@[simp] theorem State.setupBuffer_txState (s : State) : (s.setupBuffer).txState = s.txState := by
  unfold State.setupBuffer; split <;> rfl
@[simp] theorem State.setupBuffer_sendReady (s : State) : (s.setupBuffer).sendReady = s.sendReady := by
  unfold State.setupBuffer; split <;> rfl
@[simp] theorem State.setupBuffer_sendByte (s : State) : (s.setupBuffer).sendByte = s.sendByte := by
  unfold State.setupBuffer; split <;> rfl
@[simp] theorem State.setupBuffer_sendBits (s : State) : (s.setupBuffer).sendBits = s.sendBits := by
  unfold State.setupBuffer; split <;> rfl
@[simp] theorem State.setupBuffer_delay (s : State) : (s.setupBuffer).delay = s.delay := by
  unfold State.setupBuffer; split <;> rfl
@[simp] theorem State.setupBuffer_txd (s : State) : (s.setupBuffer).txd = s.txd := by
  unfold State.setupBuffer; split <;> rfl
@[simp] theorem State.setupBuffer_rxState (s : State) : (s.setupBuffer).rxState = s.rxState := by
  unfold State.setupBuffer; split <;> rfl
@[simp] theorem State.setupBuffer_rxCur (s : State) : (s.setupBuffer).rxCur = s.rxCur := by
  unfold State.setupBuffer; split <;> rfl
@[simp] theorem State.setupBuffer_rxPrev (s : State) : (s.setupBuffer).rxPrev = s.rxPrev := by
  unfold State.setupBuffer; split <;> rfl
@[simp] theorem State.setupBuffer_recvShift (s : State) : (s.setupBuffer).recvShift = s.recvShift := by
  unfold State.setupBuffer; split <;> rfl
@[simp] theorem State.setupBuffer_recvBits (s : State) : (s.setupBuffer).recvBits = s.recvBits := by
  unfold State.setupBuffer; split <;> rfl
@[simp] theorem State.setupBuffer_rxBuf (s : State) : (s.setupBuffer).rxBuf = s.rxBuf := by
  unfold State.setupBuffer; split <;> rfl
@[simp] theorem State.setupBuffer_hostWait (s : State) : (s.setupBuffer).hostWait = s.hostWait := by
  unfold State.setupBuffer; split <;> rfl
@[simp] theorem State.setupBuffer_initialized (s : State) : (s.setupBuffer).initialized = s.initialized := by
  unfold State.setupBuffer; split <;> rfl
@[simp] theorem State.setupBuffer_fault (s : State) : (s.setupBuffer).fault = s.fault := by
  unfold State.setupBuffer; split <;> rfl
@[simp] theorem State.setupBuffer_t (s : State) : (s.setupBuffer).t = s.t := by
  unfold State.setupBuffer; split <;> rfl
@[simp] theorem State.setupBuffer_response (s : State) : (s.setupBuffer).response = s.response := by
  unfold State.setupBuffer; split <;> rfl
@[simp] theorem State.setupBuffer_host (s : State) : (s.setupBuffer).host = s.host := by
  unfold State.setupBuffer; split <;> rfl
@[simp] theorem State.setupBuffer_lines (s : State) : (s.setupBuffer).lines = s.lines := by
  unfold State.setupBuffer; split <;> rfl
@[simp] theorem State.setupBuffer_turns (s : State) : (s.setupBuffer).turns = s.turns := by
  unfold State.setupBuffer; split <;> rfl
@[simp] theorem State.setupBuffer_draws (s : State) : (s.setupBuffer).draws = s.draws := by
  unfold State.setupBuffer; split <;> rfl

theorem State.setupBuffer_available (s : State) : s.setupBuffer.available = if s.cfg.rxMode = .unbuffered then false else s.available := by
  unfold State.setupBuffer; cases hm : s.cfg.rxMode <;> rfl

theorem State.setupBuffer_recvByte (s : State) : s.setupBuffer.recvByte = if s.cfg.rxMode = .unbuffered then 0#8 else s.recvByte := by
  unfold State.setupBuffer; cases hm : s.cfg.rxMode <;> rfl

theorem State.setupBuffer_rxHead (s : State) : s.setupBuffer.rxHead = if s.cfg.rxMode = .buffered then 0 else s.rxHead := by
  unfold State.setupBuffer; cases hm : s.cfg.rxMode <;> rfl

theorem State.setupBuffer_rxTail (s : State) : s.setupBuffer.rxTail = if s.cfg.rxMode = .buffered then 0 else s.rxTail := by
  unfold State.setupBuffer; cases hm : s.cfg.rxMode <;> rfl

/-! `State.setup` is INIT's effect. -/

@[simp] theorem State.setup_cfg (s : State) : s.setup.cfg = s.cfg := by simp [State.setup]
@[simp] theorem State.setup_tcnt (s : State) : s.setup.tcnt = s.draw 0 s.cfg.bitPeriod := by simp [State.setup]
@[simp] theorem State.setup_period (s : State) : s.setup.period = s.cfg.bitPeriod := by simp [State.setup]
@[simp] theorem State.setup_ocrTx (s : State) : s.setup.ocrTx = s.draw 1 s.cfg.bitPeriod := by simp [State.setup]
@[simp] theorem State.setup_ocrRx (s : State) : s.setup.ocrRx = s.draw 2 s.cfg.bitPeriod := by simp [State.setup]
@[simp] theorem State.setup_txIe (s : State) : s.setup.txIe = false := by simp [State.setup]
@[simp] theorem State.setup_rxIe (s : State) : s.setup.rxIe = false := by simp [State.setup]
@[simp] theorem State.setup_edgeIe (s : State) : s.setup.edgeIe = true := by simp [State.setup]
@[simp] theorem State.setup_txPend (s : State) : s.setup.txPend = false := by simp [State.setup]
@[simp] theorem State.setup_rxPend (s : State) : s.setup.rxPend = false := by simp [State.setup]
@[simp] theorem State.setup_edgePend (s : State) : s.setup.edgePend = false := by simp [State.setup]
@[simp] theorem State.setup_txState (s : State) : s.setup.txState = .idle := by simp [State.setup]
@[simp] theorem State.setup_sendReady (s : State) : s.setup.sendReady = true := by simp [State.setup]
@[simp] theorem State.setup_sendByte (s : State) : s.setup.sendByte = 0#8 := by simp [State.setup]
@[simp] theorem State.setup_sendBits (s : State) : s.setup.sendBits = 0#4 := by simp [State.setup]
@[simp] theorem State.setup_delay (s : State) : s.setup.delay = 0 := by simp [State.setup]
@[simp] theorem State.setup_txd (s : State) : s.setup.txd = 1#1 := by simp [State.setup]
@[simp] theorem State.setup_rxState (s : State) : s.setup.rxState = .waitStart := by simp [State.setup]
@[simp] theorem State.setup_rxCur (s : State) : s.setup.rxCur = s.rxCur := by simp [State.setup]
@[simp] theorem State.setup_rxPrev (s : State) : s.setup.rxPrev = s.rxPrev := by simp [State.setup]
@[simp] theorem State.setup_recvShift (s : State) : s.setup.recvShift = 0#8 := by simp [State.setup]
@[simp] theorem State.setup_recvBits (s : State) : s.setup.recvBits = 0#4 := by simp [State.setup]
theorem State.setup_available (s : State) : s.setup.available = if s.cfg.rxMode = .unbuffered then false else s.available := by
  simp only [State.setup, State.setupBuffer_available]; cases h : s.cfg.rxMode <;> simp [h]
theorem State.setup_recvByte (s : State) : s.setup.recvByte = if s.cfg.rxMode = .unbuffered then 0#8 else s.recvByte := by
  simp only [State.setup, State.setupBuffer_recvByte]; cases h : s.cfg.rxMode <;> simp [h]
@[simp] theorem State.setup_rxBuf (s : State) : s.setup.rxBuf = s.rxBuf := by simp [State.setup]
theorem State.setup_rxHead (s : State) : s.setup.rxHead = if s.cfg.rxMode = .buffered then 0 else s.rxHead := by
  simp only [State.setup, State.setupBuffer_rxHead]; cases h : s.cfg.rxMode <;> simp [h]
theorem State.setup_rxTail (s : State) : s.setup.rxTail = if s.cfg.rxMode = .buffered then 0 else s.rxTail := by
  simp only [State.setup, State.setupBuffer_rxTail]; cases h : s.cfg.rxMode <;> simp [h]
@[simp] theorem State.setup_hostWait (s : State) : s.setup.hostWait = .none := by simp [State.setup]
@[simp] theorem State.setup_initialized (s : State) : s.setup.initialized = true := by simp [State.setup]
@[simp] theorem State.setup_fault (s : State) : s.setup.fault = s.fault := by simp [State.setup]
@[simp] theorem State.setup_t (s : State) : s.setup.t = s.t := by simp [State.setup]
@[simp] theorem State.setup_response (s : State) : s.setup.response = s.response := by simp [State.setup]
@[simp] theorem State.setup_host (s : State) : s.setup.host = s.host := by simp [State.setup]
@[simp] theorem State.setup_lines (s : State) : s.setup.lines = s.lines := by simp [State.setup]
@[simp] theorem State.setup_turns (s : State) : s.setup.turns = s.turns := by simp [State.setup]
@[simp] theorem State.setup_draws (s : State) : s.setup.draws = s.draws + 3 := by simp [State.setup]

end Sys2Proof.Machine
end

