-- ==== Sys2Proof/Laws/Ops.lean ====
section
/-! SUPPORT. One lemma per shared operation, saying once everything it can do: memory, answers, faults, interrupt
selection, slot indices. -/

namespace Sys2Proof.Machine

/-! Answers -/

@[simp] theorem andThen_next (s : State) (k : State → Answer) : andThen (.next s) k = k s := rfl

@[simp] theorem andThen_fault (f : Fault) (k : State → Answer) : andThen (.fault f) k = .fault f := rfl

@[simp] theorem andThen_refused (r : Refusal) (k : State → Answer) : andThen (.refused r) k = .refused r := rfl

theorem andThen_eq_next {a : Answer} {k : State → Answer} {t : State} :
    andThen a k = .next t ↔ ∃ s, a = .next s ∧ k s = .next t := by
  cases a <;> simp

theorem andThen_assoc (a : Answer) (k l : State → Answer) :
    andThen (andThen a k) l = andThen a (fun s => andThen (k s) l) := by
  cases a <;> rfl

@[simp] theorem raise_eq_next {k : FaultKind} {s t : State} :
    raise k s = .next t ↔ { s with fault := some k } = t := by
  simp [raise]

@[simp] theorem raiseInCommand_eq_next {k : FaultKind} {s t : State} :
    raiseInCommand k s = .next t ↔ { s with response := none, fault := some k } = t := by
  simp [raiseInCommand, State.respondNothing]

@[simp] theorem hold_eq_next {s t : State} : hold s = .next t ↔ s = t := by simp [hold]

/-- What a command that needs INIT can answer. -/
theorem needsInit_eq_next {i : Instr} {s t : State} {k : Answer} :
    needsInit i s k = .next t ↔
      (s.initialized = true ∧ k = .next t) ∨
      (s.initialized = false ∧ { s with response := none, fault := some (.notInitialized i.opcode) } = t) := by
  unfold needsInit; split <;> simp_all

/-- What an access to a slot can answer. -/
theorem atSlot_eq_next {i : Nat} {s t : State} {k : Answer} :
    atSlot i s k = .next t ↔ i < s.cfg.rxBufSlots ∧ k = .next t := by
  unfold atSlot; split <;> simp_all

/-- What ALARM's and DELAY's body can answer. -/
theorem alarmBody_eq_next {ms : Half} {s t : State} {after : State → State} :
    alarmBody ms s after = .next t ↔
      (alarmOverflows s.cfg ms = true ∧
        { s with response := none, fault := some (.alarmOverflow (alarmWhole s.cfg ms)) } = t) ∨
      (alarmOverflows s.cfg ms = false ∧ s.sendReady = true ∧ after (s.armAlarm ms).respondNothing = t) ∨
      (alarmOverflows s.cfg ms = false ∧ s.sendReady = false ∧ s = t) := by
  unfold alarmBody
  split
  · simp_all
  · split <;> simp_all

/-! Memory -/

@[simp] theorem memory_read_nil (a : Nat) : Memory.read [] a = none := rfl

/-- A slot reads back what was written to it. -/
@[simp] theorem memory_read_write_same (m : Memory) (a : Nat) (v : Byte) : (Memory.write m a v).read a = some v := by
  induction m with
  | nil => simp [Memory.write, Memory.read]
  | cons c rest ih =>
    obtain ⟨b, w⟩ := c
    unfold Memory.write
    split
    · simp [Memory.read]
    · split
      · simp [Memory.read]
      · simp [Memory.read, ih]; omega

/-- A write leaves every other slot alone. -/
theorem memory_read_write_other (m : Memory) (a b : Nat) (v : Byte) (h : a ≠ b) :
    (Memory.write m b v).read a = m.read a := by
  induction m with
  | nil => simp [Memory.write, Memory.read, h]
  | cons c rest ih =>
    obtain ⟨x, w⟩ := c
    unfold Memory.write
    split
    · simp [Memory.read, h]
    · split
      · subst_vars; simp [Memory.read, h]
      · simp [Memory.read, ih]

theorem memory_above_write (m : Memory) (a b : Nat) (v : Byte) (h : Memory.above a m = true) (hab : a < b) :
    Memory.above a (m.write b v) = true := by
  induction m with
  | nil => simp [Memory.write, Memory.above, hab]
  | cons c rest ih =>
    obtain ⟨x, w⟩ := c
    simp only [Memory.above, List.all_cons, Bool.and_eq_true, decide_eq_true_eq] at h ih
    unfold Memory.write
    split
    · simp only [Memory.above, List.all_cons, Bool.and_eq_true, decide_eq_true_eq]; exact ⟨hab, h⟩
    · split
      · simp only [Memory.above, List.all_cons, Bool.and_eq_true, decide_eq_true_eq]; exact ⟨hab, h.2⟩
      · simp only [Memory.above, List.all_cons, Bool.and_eq_true, decide_eq_true_eq]; exact ⟨h.1, ih h.2⟩

theorem memory_above_of_above (m : Memory) (a b : Nat) (h : Memory.above b m = true) (hab : a ≤ b) :
    Memory.above a m = true := by
  simp only [Memory.above, List.all_eq_true, decide_eq_true_eq] at h ⊢
  exact fun c hc => Nat.lt_of_le_of_lt hab (h c hc)

/-- A write keeps the canonical form. -/
theorem memory_wf_write (m : Memory) (a : Nat) (v : Byte) (h : m.wf = true) : (m.write a v).wf = true := by
  induction m with
  | nil => simp [Memory.write, Memory.wf, Memory.above]
  | cons c rest ih =>
    obtain ⟨x, w⟩ := c
    simp only [Memory.wf, Bool.and_eq_true] at h
    unfold Memory.write
    split
    · rename_i hlt
      simp only [Memory.wf, Bool.and_eq_true]
      refine ⟨?_, h.1, h.2⟩
      simp only [Memory.above, List.all_cons, Bool.and_eq_true, decide_eq_true_eq]
      exact ⟨hlt, memory_above_of_above rest a x h.1 hlt.le⟩
    · split
      · rename_i heq
        simp only [Memory.wf, Bool.and_eq_true]
        exact ⟨heq ▸ h.1, h.2⟩
      · simp only [Memory.wf, Bool.and_eq_true]
        exact ⟨memory_above_write rest x a v h.1 (by omega), ih h.2⟩

theorem memory_wf_nil : Memory.wf [] = true := rfl

theorem reset_memory_wf : State.reset.rxBuf.wf = true := rfl

/-- A slot read after a write to a slot: the byte written there, else what was there before. -/
theorem state_memRead_memWrite (s : State) (i j : Nat) (v : Byte) :
    (s.memWrite i v).memRead j = if j = i then v else s.memRead j := by
  unfold State.memRead
  by_cases h : j = i
  · subst h; simp
  · simp [h, memory_read_write_other _ _ _ _ h]

/-! Interrupt selection -/

theorem nextIrq_eq_none {s : State} :
    s.nextIrq = none ↔ s.edgePend = false ∧ s.rxPend = false ∧ s.txPend = false := by
  unfold State.nextIrq
  cases s.edgePend <;> cases s.rxPend <;> cases s.txPend <;> simp

theorem nextIrq_eq_some {s : State} {src : IrqSource} (h : s.nextIrq = some src) : s.pending src = true := by
  unfold State.nextIrq at h
  unfold State.pending
  split at h
  · simp_all [← Option.some.inj h]
  · split at h
    · simp_all [← Option.some.inj h]
    · split at h
      · simp_all [← Option.some.inj h]
      · simp at h

/-! Slot indices -/

/-- The count of queued bytes, for indices that are slots. -/
theorem queued_eq (s : State) (hh : s.rxHead < s.cfg.rxBufSlots) (ht : s.rxTail < s.cfg.rxBufSlots) :
    s.queued = if s.rxTail ≤ s.rxHead then s.rxHead - s.rxTail else s.rxHead + s.cfg.rxBufSlots - s.rxTail := by
  unfold State.queued
  split
  · rw [Int.emod_eq_of_lt (by omega) (by omega)]; omega
  · rw [← Int.add_emod_right, Int.emod_eq_of_lt (by omega) (by omega)]; omega

/-- The next slot: one further, or back to slot 0 from the last one. -/
theorem nextSlot_eq (s : State) (k : Nat) (h : k < s.cfg.rxBufSlots) :
    s.nextSlot k = if k + 1 = s.cfg.rxBufSlots then 0 else k + 1 := by
  unfold State.nextSlot
  split
  · rename_i he; rw [he, Nat.mod_self]
  · exact Nat.mod_eq_of_lt (by omega)

theorem nextSlot_lt (s : State) (k : Nat) (h : k < s.cfg.rxBufSlots) : s.nextSlot k < s.cfg.rxBufSlots :=
  Nat.mod_lt _ (by omega)

end Sys2Proof.Machine
end

