-- ==== Sys2Proof/Laws/Exec.lean ====
section
/-! SUPPORT. One inversion lemma per instruction: everything its meaning can do when it answers a next state, in the
named updates of the state. Frames and invariants follow by cases on it. -/

namespace Sys2Proof.Machine
open Sys2Proof

theorem execInit_cases {s t : State} (h : exec .init s = .next t) :
    (s.initialized = true ∧ t = { s with response := none, fault := some .reInit }) ∨
    (s.initialized = false ∧ t = s.setup.respondNothing) := by
  replace h : execInit s = .next t := h
  unfold execInit at h
  split at h
  · exact .inl ⟨‹_›, (raiseInCommand_eq_next.mp h).symm⟩
  · exact .inr ⟨Bool.eq_false_of_not_eq_true ‹_›, (Host.Outcome.next.inj h).symm⟩

theorem execAvailable_cases {s t : State} (h : exec .available s = .next t) :
    (s.initialized = true ∧ t = s.respond (zextCount s.availableCount)) ∨
    (s.initialized = false ∧ t = { s with response := none, fault := some (.notInitialized 0x02#8) }) := by
  obtain ⟨hi, h⟩ | ⟨hi, h⟩ := needsInit_eq_next.mp h
  · exact .inl ⟨hi, (Host.Outcome.next.inj h).symm⟩
  · exact .inr ⟨hi, h.symm⟩

theorem execSendReady_cases {s t : State} (h : exec .sendReady s = .next t) :
    (s.initialized = true ∧ t = s.respond (zextFlag s.sendReady)) ∨
    (s.initialized = false ∧ t = { s with response := none, fault := some (.notInitialized 0x03#8) }) := by
  obtain ⟨hi, h⟩ | ⟨hi, h⟩ := needsInit_eq_next.mp h
  · exact .inl ⟨hi, (Host.Outcome.next.inj h).symm⟩
  · exact .inr ⟨hi, h.symm⟩

theorem execSend_cases {b : Byte} {s t : State} (h : exec (.send b) s = .next t) :
    (s.initialized = true ∧ s.sendReady = true ∧ t = (s.armFrame b).respondNothing) ∨
    (s.initialized = true ∧ s.sendReady = false ∧ t = s) ∨
    (s.initialized = false ∧ t = { s with response := none, fault := some (.notInitialized 0x04#8) }) := by
  obtain ⟨hi, h⟩ | ⟨hi, h⟩ := needsInit_eq_next.mp h
  · split at h
    · exact .inl ⟨hi, ‹_›, (Host.Outcome.next.inj h).symm⟩
    · exact .inr (.inl ⟨hi, Bool.eq_false_of_not_eq_true ‹_›, (hold_eq_next.mp h).symm⟩)
  · exact .inr (.inr ⟨hi, h.symm⟩)

theorem execRecv_cases {s t : State} (h : exec .recv s = .next t) :
    (s.initialized = true ∧ s.receiveEmpty = true ∧ t = s) ∨
    (s.initialized = true ∧ s.receiveEmpty = false ∧ s.cfg.rxMode = .unbuffered ∧
      t = s.slotTake.2.respond (zextByte s.recvByte)) ∨
    (s.initialized = true ∧ s.receiveEmpty = false ∧ s.cfg.rxMode = .buffered ∧ s.rxTail < s.cfg.rxBufSlots ∧
      t = s.bufPop.2.respond (zextByte (s.memRead s.rxTail))) ∨
    (s.initialized = false ∧ t = { s with response := none, fault := some (.notInitialized 0x05#8) }) := by
  obtain ⟨hi, h⟩ | ⟨hi, h⟩ := needsInit_eq_next.mp h
  · split at h
    · exact .inl ⟨hi, ‹_›, (hold_eq_next.mp h).symm⟩
    · have he : s.receiveEmpty = false := Bool.eq_false_of_not_eq_true ‹_›
      unfold takeByte at h
      split at h
      · exact .inr (.inl ⟨hi, he, ‹_›, (Host.Outcome.next.inj h).symm⟩)
      · obtain ⟨hlt, h⟩ := atSlot_eq_next.mp h
        exact .inr (.inr (.inl ⟨hi, he, ‹_›, hlt, (Host.Outcome.next.inj h).symm⟩))
  · exact .inr (.inr (.inr ⟨hi, h.symm⟩))

theorem execAlarm_cases {ms : Half} {s t : State} (h : exec (.alarm ms) s = .next t) :
    (s.initialized = true ∧ alarmOverflows s.cfg ms = true ∧
      t = { s with response := none, fault := some (.alarmOverflow (alarmWhole s.cfg ms)) }) ∨
    (s.initialized = true ∧ alarmOverflows s.cfg ms = false ∧ s.sendReady = true ∧
      t = (s.armAlarm ms).respondNothing) ∨
    (s.initialized = true ∧ alarmOverflows s.cfg ms = false ∧ s.sendReady = false ∧ t = s) ∨
    (s.initialized = false ∧ t = { s with response := none, fault := some (.notInitialized 0x06#8) }) := by
  obtain ⟨hi, h⟩ | ⟨hi, h⟩ := needsInit_eq_next.mp h
  · obtain ⟨ho, h⟩ | ⟨ho, hr, h⟩ | ⟨ho, hr, h⟩ := alarmBody_eq_next.mp h
    · exact .inl ⟨hi, ho, h.symm⟩
    · exact .inr (.inl ⟨hi, ho, hr, h.symm⟩)
    · exact .inr (.inr (.inl ⟨hi, ho, hr, h.symm⟩))
  · exact .inr (.inr (.inr ⟨hi, h.symm⟩))

theorem execDelay_cases {ms : Half} {s t : State} (h : exec (.delay ms) s = .next t) :
    (s.initialized = true ∧ alarmOverflows s.cfg ms = true ∧
      t = { s with response := none, fault := some (.alarmOverflow (alarmWhole s.cfg ms)) }) ∨
    (s.initialized = true ∧ alarmOverflows s.cfg ms = false ∧ s.sendReady = true ∧
      t = (s.armAlarm ms).respondNothing.enterDelay) ∨
    (s.initialized = true ∧ alarmOverflows s.cfg ms = false ∧ s.sendReady = false ∧ t = s) ∨
    (s.initialized = false ∧ t = { s with response := none, fault := some (.notInitialized 0x07#8) }) := by
  obtain ⟨hi, h⟩ | ⟨hi, h⟩ := needsInit_eq_next.mp h
  · obtain ⟨ho, h⟩ | ⟨ho, hr, h⟩ | ⟨ho, hr, h⟩ := alarmBody_eq_next.mp h
    · exact .inl ⟨hi, ho, h.symm⟩
    · exact .inr (.inl ⟨hi, ho, hr, h.symm⟩)
    · exact .inr (.inr (.inl ⟨hi, ho, hr, h.symm⟩))
  · exact .inr (.inr (.inr ⟨hi, h.symm⟩))

theorem execTick_cases {line : Bit} {s t : State} (h : exec (.tick line) s = .next t) :
    (s.initialized = true ∧ t = (s.sampleLine line).runTimer) ∨
    (s.initialized = false ∧ t = s.sampleLine line) := by
  have h := Host.Outcome.next.inj h
  split at h
  · exact .inl ⟨‹_›, h.symm⟩
  · exact .inr ⟨Bool.eq_false_of_not_eq_true ‹_›, h.symm⟩

/-- EDGE always answers a next state. -/
theorem execEdge_eq (s : State) :
    exec .edge s = .next ((({ s.clearPending .edge with ocrRx := s.ticksAhead s.cfg.halfBit } : State).disable
      .edge).enable .rx) := rfl

theorem execRxcmp_cases {s t : State} (h : exec .rxcmp s = .next t) :
    ((s.rxState = .waitStart ∨ s.rxState = .startBit) ∧
      t = { s.clearPending .rx with rxState := .dataBits, recvBits := 8#4 }) ∨
    (s.rxState = .dataBits ∧ s.recvBits = 0#4 ∧
      t = { s.clearPending .rx with fault := some (.unreachable .rxDataBitsZero) }) ∨
    (s.rxState = .dataBits ∧ s.recvBits ≠ 0#4 ∧ s.recvBits - 1#4 ≠ 0#4 ∧
      t = (s.clearPending .rx).shiftInBit s.rxCur) ∨
    (s.rxState = .dataBits ∧ s.recvBits ≠ 0#4 ∧ s.recvBits - 1#4 = 0#4 ∧
      t = { (s.clearPending .rx).shiftInBit s.rxCur with rxState := .waitStopHigh }) ∨
    (s.rxState = .waitStopHigh ∧ s.rxCur ≠ 1#1 ∧ t = s.clearPending .rx) ∨
    (s.rxState = .waitStopHigh ∧ s.rxCur = 1#1 ∧ s.cfg.rxMode = .unbuffered ∧
      t = ((s.clearPending .rx).slotPut s.recvShift).awaitEdge) ∨
    (s.rxState = .waitStopHigh ∧ s.rxCur = 1#1 ∧ s.cfg.rxMode = .buffered ∧ s.rxHead < s.cfg.rxBufSlots ∧
      t = ((s.clearPending .rx).bufPush s.recvShift).awaitEdge) := by
  replace h : rxHandler (s.clearPending .rx) = .next t := h
  unfold rxHandler at h
  simp only [State.clearPending_rxState, State.clearPending_rxCur] at h
  cases hst : s.rxState <;> rw [hst] at h
  · exact .inl ⟨.inl rfl, (Host.Outcome.next.inj h).symm⟩
  · exact .inl ⟨.inr rfl, (Host.Outcome.next.inj h).symm⟩
  · simp only [rxDataBits, State.clearPending_recvBits, State.shiftInBit_recvBits] at h
    split at h
    · exact .inr (.inl ⟨rfl, ‹_›, (raise_eq_next.mp h).symm⟩)
    · have h := Host.Outcome.next.inj h
      split at h
      · exact .inr (.inr (.inr (.inl ⟨rfl, ‹_›, ‹_›, h.symm⟩)))
      · exact .inr (.inr (.inl ⟨rfl, ‹_›, ‹_›, h.symm⟩))
  · simp only [rxWaitStopHigh] at h
    split at h
    · obtain ⟨u, hc, hu⟩ := andThen_eq_next.mp h
      simp only [commit, State.clearPending_cfg, State.clearPending_recvShift] at hc
      cases hm : s.cfg.rxMode <;> rw [hm] at hc
      · simp only [Host.Outcome.next.injEq] at hc hu
        exact .inr (.inr (.inr (.inr (.inr (.inl ⟨rfl, ‹_›, rfl, by rw [← hu, ← hc]⟩)))))
      · obtain ⟨hlt, hc⟩ := atSlot_eq_next.mp hc
        simp only [Host.Outcome.next.injEq] at hc hu
        exact .inr (.inr (.inr (.inr (.inr (.inr ⟨rfl, ‹_›, rfl, by simpa using hlt, by rw [← hu, ← hc]⟩)))))
    · exact .inr (.inr (.inr (.inr (.inl ⟨rfl, ‹_›, (Host.Outcome.next.inj h).symm⟩))))

theorem execTxcmp_cases {s t : State} (h : exec .txcmp s = .next t) :
    (s.txState = .idle ∧ t = s.clearPending .tx) ∨
    (s.txState = .startBit ∧ t = { s.clearPending .tx with txd := 0#1, sendBits := 8#4, txState := .dataBits }) ∨
    (s.txState = .dataBits ∧ s.sendBits = 0#4 ∧
      t = { s.clearPending .tx with fault := some (.unreachable .txDataBitsZero) }) ∨
    (s.txState = .dataBits ∧ s.sendBits ≠ 0#4 ∧ s.sendBits - 1#4 ≠ 0#4 ∧ t = (s.clearPending .tx).shiftOutBit) ∨
    (s.txState = .dataBits ∧ s.sendBits ≠ 0#4 ∧ s.sendBits - 1#4 = 0#4 ∧
      t = { (s.clearPending .tx).shiftOutBit with txState := .stopBit }) ∨
    (s.txState = .stopBit ∧ t = { s.clearPending .tx with txd := 1#1, txState := .returnIdle }) ∨
    ((s.txState = .returnIdle ∨ (s.txState = .timedDelay ∧ s.delay = 0)) ∧ t = (s.clearPending .tx).freeSender) ∨
    (s.txState = .timedDelay ∧ s.delay ≠ 0 ∧ t = { s.clearPending .tx with delay := s.delay - 1 }) := by
  replace h : txHandler (s.clearPending .tx) = .next t := h
  unfold txHandler at h
  simp only [State.clearPending_txState] at h
  cases hst : s.txState <;> rw [hst] at h
  · exact .inl ⟨rfl, (Host.Outcome.next.inj h).symm⟩
  · exact .inr (.inl ⟨rfl, (Host.Outcome.next.inj h).symm⟩)
  · simp only [txDataBits, State.clearPending_sendBits, State.shiftOutBit_sendBits] at h
    split at h
    · exact .inr (.inr (.inl ⟨rfl, ‹_›, (raise_eq_next.mp h).symm⟩))
    · have h := Host.Outcome.next.inj h
      split at h
      · exact .inr (.inr (.inr (.inr (.inl ⟨rfl, ‹_›, ‹_›, h.symm⟩))))
      · exact .inr (.inr (.inr (.inl ⟨rfl, ‹_›, ‹_›, h.symm⟩)))
  · exact .inr (.inr (.inr (.inr (.inr (.inl ⟨rfl, (Host.Outcome.next.inj h).symm⟩)))))
  · exact .inr (.inr (.inr (.inr (.inr (.inr (.inl ⟨.inl rfl, (Host.Outcome.next.inj h).symm⟩))))))
  · simp only [txTimedDelay, State.clearPending_delay] at h
    split at h
    · exact .inr (.inr (.inr (.inr (.inr (.inr (.inl ⟨.inr ⟨rfl, ‹_›⟩, (Host.Outcome.next.inj h).symm⟩))))))
    · exact .inr (.inr (.inr (.inr (.inr (.inr (.inr ⟨rfl, ‹_›, (Host.Outcome.next.inj h).symm⟩))))))

/-- The fields TICK leaves alone, and what it does to the others, in one place. -/
theorem runTimer_fields (s : State) :
    s.runTimer.cfg = s.cfg ∧ s.runTimer.period = s.period ∧ s.runTimer.tcnt = (s.tcnt + 1) % s.period ∧
    s.runTimer.edgePend = (s.edgePend || (s.edgeIe && s.fallingEdge)) ∧
    s.runTimer.rxPend = (s.rxPend || (s.rxIe && decide ((s.tcnt + 1) % s.period = s.ocrRx))) ∧
    s.runTimer.txPend = (s.txPend || (s.txIe && decide ((s.tcnt + 1) % s.period = s.ocrTx))) := by
  refine ⟨by simp [State.runTimer], by simp [State.runTimer], by simp [State.runTimer], ?_, by simp [State.runTimer],
    by simp [State.runTimer]⟩
  simp only [State.runTimer, State.latchIrq_tx_edgePend, State.latchIrq_rx_edgePend, State.latchIrq_edge_edgePend,
    State.countUp_edgePend, State.countUp_edgeIe]
  rfl

end Sys2Proof.Machine
end

