-- ==== Sys2Proof/Laws/PerInstr.lean ====
section
/-! SUPPORT. Per instruction: its word carries its opcode, a zero reserved byte and its operand in the three fields of
30_encoding.md R70. -/

namespace Sys2Proof.Laws.Fields

/-- The fields of the instruction's word (30_encoding.md R70 to R73). -/
def Statement (i : Instr) : Prop :=
  opField (encode i) = i.opcode ∧ rsvField (encode i) = 0#8 ∧ operandField (encode i) = i.operand

theorem fields_of_encode (i : Instr) : Statement i := by
  refine ⟨?_, ?_, ?_⟩ <;> ext j <;>
    simp [opField, rsvField, operandField, encode] <;> grind

theorem init : Statement .init := fields_of_encode _

theorem available : Statement .available := fields_of_encode _

theorem sendReady : Statement .sendReady := fields_of_encode _

theorem send (b : Byte) : Statement (.send b) := fields_of_encode _

theorem recv : Statement .recv := fields_of_encode _

theorem alarm (ms : Half) : Statement (.alarm ms) := fields_of_encode _

theorem delay (ms : Half) : Statement (.delay ms) := fields_of_encode _

theorem tick (line : Bit) : Statement (.tick line) := fields_of_encode _

theorem edge : Statement .edge := fields_of_encode _

theorem rxcmp : Statement .rxcmp := fields_of_encode _

theorem txcmp : Statement .txcmp := fields_of_encode _

end Sys2Proof.Laws.Fields
end

