-- ==== Sys2Proof/Laws/Step.lean ====
section
/-! SUPPORT. What a step can be: one inversion lemma for the fetch and one for the step, so that no proof unfolds
them. -/

namespace Sys2Proof.Machine
open Sys2Proof

/-- The line's supply changes only the list of given values and the count of draws. -/
theorem takeLine_eq (s : State) : ∃ ls d, s.takeLine.2 = { s with lines := ls, draws := d } := by
  unfold State.takeLine
  split
  · exact ⟨s.lines, s.draws, rfl⟩
  · split
    · exact ⟨_, s.draws, rfl⟩
    · exact ⟨s.lines, _, rfl⟩

/-- The choice of a turn changes only the list of given turns and the count of draws. -/
theorem takeTurn_eq (s : State) : ∃ ts d, s.takeTurn.2 = { s with turns := ts, draws := d } := by
  unfold State.takeTurn
  split
  · exact ⟨_, s.draws, rfl⟩
  · exact ⟨s.turns, _, rfl⟩

/-- Everything TIMER's fetch can be. -/
theorem fetchTick_eq (s : State) :
    ∃ ls d, fetchTick s = .run (.tick s.takeLine.1) { s with lines := ls, draws := d } := by
  obtain ⟨ls, d, h⟩ := takeLine_eq s
  exact ⟨ls, d, by unfold fetchTick; rw [h]⟩

/-- What an enabled HOST step is. -/
theorem hostEnabled_cases {s : State} (h : s.hostEnabled = true) :
    (s.hostWait = .delayWait ∧ s.sendReady = true) ∨
    (s.hostWait = .none ∧ ∃ w rest, s.host = w :: rest ∧
      ((∃ i, decodeHost w = .instr i ∧ s.holds i = false) ∨ ∃ r, decodeHost w = .reject r)) := by
  unfold State.hostEnabled at h
  split at h
  · exact .inl ⟨‹_›, h⟩
  · split at h
    · cases h
    · refine .inr ⟨‹_›, _, _, ‹_›, ?_⟩
      unfold State.wordEnabled at h
      split at h
      · exact .inl ⟨_, ‹_›, by simpa using h⟩
      · exact .inr ⟨_, ‹_›⟩

/-- Everything the step of HOST or TIMER can be. -/
theorem fetchIdle_cases (s : State) :
    (∃ line ls ts d, fetchIdle s = .run (.tick line) { s with lines := ls, turns := ts, draws := d }) ∨
    (s.hostWait = .delayWait ∧ s.sendReady = true ∧ ∃ ts d,
      fetchIdle s = .leaveDelay { s with turns := ts, draws := d }) ∨
    (s.hostWait = .none ∧ ∃ w rest ts d, s.host = w :: rest ∧
      ((∃ i, decodeHost w = .instr i ∧ s.holds i = false ∧
          fetchIdle s = .run i { s with host := rest, turns := ts, draws := d }) ∨
       (∃ r, decodeHost w = .reject r ∧
          fetchIdle s = .illegal w { s with host := rest, turns := ts, draws := d }))) := by
  unfold fetchIdle
  split
  · rename_i hen
    obtain ⟨ts, d, ht⟩ := takeTurn_eq s
    rw [ht]
    split
    · obtain ⟨hw, hr⟩ | ⟨hw, w, rest, hh, hd⟩ := hostEnabled_cases hen
      · exact .inr (.inl ⟨hw, hr, ts, d, by simp [fetchHost, hw]⟩)
      · refine .inr (.inr ⟨hw, w, rest, ts, d, hh, ?_⟩)
        obtain ⟨i, hi, hn⟩ | ⟨r, hr⟩ := hd
        · exact .inl ⟨i, hi, hn, by simp [fetchHost, hw, hh, hi]⟩
        · exact .inr ⟨r, hr, by simp [fetchHost, hw, hh, hr]⟩
    · obtain ⟨ls, d', hf⟩ := fetchTick_eq { s with turns := ts, draws := d }
      exact .inl ⟨_, ls, ts, d', hf⟩
  · obtain ⟨ls, d, hf⟩ := fetchTick_eq s
    exact .inl ⟨_, ls, s.turns, d, hf⟩

/-- Everything a step that answers a next state can be: a handler, a TICK, DELAY's return, a host command, or an
illegal host word. -/
theorem step_cases {s t : State} (h : step s = .next t) :
    s.cfg.valid = true ∧ s.fault = none ∧
    ((∃ src, s.nextIrq = some src ∧ exec src.handler s = .next t) ∨
     (s.nextIrq = none ∧
      ((∃ line ls ts d, exec (.tick line) { s with lines := ls, turns := ts, draws := d } = .next t) ∨
       (s.hostWait = .delayWait ∧ s.sendReady = true ∧ ∃ ts d,
          t = { s with turns := ts, draws := d, hostWait := .none }) ∨
       (s.hostWait = .none ∧ ∃ w rest ts d, s.host = w :: rest ∧
          ((∃ i, decodeHost w = .instr i ∧ s.holds i = false ∧
              exec i { s with host := rest, turns := ts, draws := d } = .next t) ∨
           (∃ r, decodeHost w = .reject r ∧
              t = { s with
                host := rest, turns := ts, draws := d, response := none, fault := some (.illegalCommand w) })))))) := by
  unfold step fetch at h
  by_cases hv : s.cfg.valid = true
  · rw [if_pos hv] at h
    obtain ⟨k, hf⟩ | hf : (∃ k, s.fault = some k) ∨ s.fault = none := by
      rcases s.fault with _ | k
      · exact .inr rfl
      · exact .inl ⟨k, rfl⟩
    · rw [hf] at h; cases h
    · rw [hf] at h
      refine ⟨hv, hf, ?_⟩
      cases hi : s.nextIrq with
      | some src => rw [hi] at h; exact .inl ⟨src, rfl, h⟩
      | none =>
        rw [hi] at h
        refine .inr ⟨rfl, ?_⟩
        obtain ⟨line, ls, ts, d, he⟩ | ⟨hw, hr, ts, d, he⟩ | ⟨hw, w, rest, ts, d, hh, he⟩ := fetchIdle_cases s
        · simp only [he] at h; exact .inl ⟨line, ls, ts, d, h⟩
        · simp only [he, delayReturn, Host.Outcome.next.injEq] at h
          exact .inr (.inl ⟨hw, hr, ts, d, h.symm⟩)
        · refine .inr (.inr ⟨hw, w, rest, ts, d, hh, ?_⟩)
          obtain ⟨i, hi, hn, he⟩ | ⟨r, hr, he⟩ := he
          · simp only [he] at h; exact .inl ⟨i, hi, hn, h⟩
          · simp only [he, raiseInCommand_eq_next] at h; exact .inr ⟨r, hr, h.symm⟩
  · rw [if_neg hv] at h; cases h

end Sys2Proof.Machine
end

