-- ==== Sys2Proof/Machine/Observe.lean ====
section
/-! DEFINITION. What a run shows (60_exceptions.md R220): the sequence of steps with, for each TICK, the value of
`txd` when it was taken, and for each host word its response; and when a host program is finished. -/

namespace Sys2Proof.Machine

/-- What one step shows. -/
inductive Observation where
  /-- A TICK, with its line value (30_encoding.md R73) and `txd` as it stood when the TICK was taken. -/
  | tick (line : Bit) (txd : Bit)
  /-- A handler's run. -/
  | handler (src : IrqSource)
  /-- A host word, with its response: none where it returns no value or raises a fault (30_encoding.md R76). -/
  | hostWord (w : Word) (response : Option Half)
  /-- The host left DELAY. -/
  | leftDelay
  deriving DecidableEq, Repr

/-- What a step of instruction `i` taken in `s` with next state `t` shows. -/
def shown (i : Instr) (s t : State) : Observation :=
  match i with
  | .tick line => .tick line s.txd
  | .edge => .handler .edge
  | .rxcmp => .handler .rx
  | .txcmp => .handler .tx
  | .init | .available | .sendReady | .send _ | .recv | .alarm _ | .delay _ => .hostWord (encode i) t.response

/-- What the step from `s` to `t` shows (60_exceptions.md R220). -/
def observe (s t : State) : Option Observation :=
  match fetch s with
  | .run i s' => some (shown i s' t)
  | .illegal w _ => some (.hostWord w t.response)
  | .leaveDelay _ => some .leftDelay
  | .stopped _ => none
  | .misconfigured => none

/-- What the first `n` steps from `s` show, up to the first step the machine does not take. -/
def observations (n : Nat) (s : State) : List Observation :=
  match n with
  | 0 => []
  | k + 1 =>
    match step s with
    | .next t => (observe s t).toList ++ observations k t
    | .fault _ => []
    | .refused _ => []

/-- A host program is finished when its last word has stepped and `host_wait = None` (60_exceptions.md R220). -/
def State.programFinished (s : State) : Bool := s.host.isEmpty && decide (s.hostWait = .none)

end Sys2Proof.Machine
end

