-- ==== Sys2Proof/Tests/Slice0.lean ====
section
/-! SUPPORT. The model's own tests: expected values from spec/95_test_vectors.md (named in each comment), and one
witness theorem for the hypotheses of each statement of Certificates/Slice0/Obligations.lean. -/

namespace Sys2Proof.Tests

open Sys2Proof.Machine Sys2Proof.Safety

/-! Helpers -/

/-- The next state of an answer. -/
def nextOf (a : Answer) : Option State :=
  match a with
  | .next s => some s
  | .fault _ => none
  | .refused _ => none

/-- The fault of an answer. -/
def faultOf (a : Answer) : Option Fault :=
  match a with
  | .fault f => some f
  | .next _ => none
  | .refused _ => none

/-- A test block: `P`, the mode, `N`, LOOPBACK, and `ms_to_ticks(ms) = ms`. -/
def block (p : Nat) (m : RxMode) (n : Nat) (loop : Bool) : Params where
  bitPeriod := p
  rxMode := m
  rxBufSlots := n
  msToTicks := .suggested 1000 1
  delayWidth := 16
  timerWidth := 8
  loopback := loop

/-- The post-INIT state with the draws `(tcnt, 0, 0)` (95_test_vectors.md section 0). -/
def ready (c : Params) (tcnt : Nat) : State :=
  { State.powerUp c with
    period := c.bitPeriod, tcnt := tcnt, sendReady := true, edgeIe := true, initialized := true }

/-- An Unbuffered block of `P = 4` after INIT. -/
def unbuf : State := ready (block 4 .unbuffered 4 false) 1

/-- A Buffered block of `P = 4`, `N = 4` after INIT. -/
def buf : State := ready (block 4 .buffered 4 false) 1

/-- A loopback block of `P = 4` after INIT. -/
def loop : State := ready (block 4 .unbuffered 4 true) 0

theorem unbuf_invariant : Invariant unbuf :=
  ⟨by decide, by decide, by decide, by decide, by decide, by decide, by decide⟩

theorem buf_invariant : Invariant buf :=
  ⟨by decide, by decide, by decide, by decide, by decide, by decide, by decide⟩

theorem loop_invariant : Invariant loop :=
  ⟨by decide, by decide, by decide, by decide, by decide, by decide, by decide⟩

/-! Well-formedness: a term that each check refuses (00_scope.md R11, 30_encoding.md R78, 60_exceptions.md R213) -/

theorem test_period_of_one_is_invalid : (block 1 .unbuffered 4 false).valid = false := by decide

theorem test_period_wider_than_the_timer_is_invalid : (block 257 .unbuffered 4 false).valid = false := by decide

theorem test_delay_without_a_bit_is_invalid : { block 4 .unbuffered 4 false with delayWidth := 0 }.valid = false := by
  decide

theorem test_buffer_of_one_slot_is_invalid :
    (block 4 .buffered 1 false).valid = false ∧ (block 4 .unbuffered 1 false).valid = true := by decide

theorem test_smallest_blocks_are_valid :
    { block 2 .buffered 2 false with timerWidth := 1, delayWidth := 1 }.valid = true ∧
    (block 256 .unbuffered 0 false).valid = true := by decide

theorem test_send_256_is_ill_formed : (Source.send 256).wellFormed = false ∧ (Source.send 255).wellFormed = true := by
  decide

theorem test_alarm_65536_is_ill_formed :
    (Source.alarm 65536).wellFormed = false ∧ (Source.alarm 65535).wellFormed = true := by decide

theorem test_delay_65536_is_ill_formed :
    (Source.delay 65536).wellFormed = false ∧ (Source.delay 65535).wellFormed = true := by decide

theorem test_event_words_are_no_host_program :
    wellFormedProgram [.init, .tick 1#1] = false ∧ wellFormedProgram [.edge] = false ∧
    wellFormedProgram [.init, .send 0x41#8, .recv] = true := by decide

/-! Decoding: words written out from 30_encoding.md R70 to R73 as op, reserved byte, operand -/

theorem test_decode_init : decodeWord 0b00000001000000000000000000000000#32 = .instr .init := by decide

theorem test_decode_available : decodeWord 0b00000010000000000000000000000000#32 = .instr .available := by decide

theorem test_decode_sendReady : decodeWord 0b00000011000000000000000000000000#32 = .instr .sendReady := by decide

theorem test_decode_send : decodeWord 0b00000100000000000000000001000001#32 = .instr (.send 0x41#8) := by decide

theorem test_decode_recv : decodeWord 0b00000101000000000000000000000000#32 = .instr .recv := by decide

theorem test_decode_alarm : decodeWord 0b00000110000000000000001111101000#32 = .instr (.alarm 1000#16) := by decide

theorem test_decode_delay : decodeWord 0b00000111000000001111111111111111#32 = .instr (.delay 65535#16) := by decide

theorem test_decode_tick :
    decodeWord 0b11110000000000000000000000000001#32 = .instr (.tick 1#1) ∧
    decodeWord 0b11110000000000000000000000000000#32 = .instr (.tick 0#1) ∧
    decodeWord 0b11110000000000000000000000000010#32 = .reject .operand := by decide

theorem test_decode_edge : decodeWord 0b11110001000000000000000000000000#32 = .instr .edge := by decide

theorem test_decode_rxcmp : decodeWord 0b11110010000000000000000000000000#32 = .instr .rxcmp := by decide

theorem test_decode_txcmp : decodeWord 0b11110011000000000000000000000000#32 = .instr .txcmp := by decide

/-- ENC-4, ENC-5, ENC-6, ENC-7, ENC-9, ENC-12, ENC-13, ENC-16: illegal host words. -/
theorem test_illegal_host_words :
    decodeHost 0x01010000#32 = .reject .reserved ∧ decodeHost 0x00000000#32 = .reject .opcode ∧
    decodeHost 0x08000000#32 = .reject .opcode ∧ decodeHost 0xF0000001#32 = .reject .opcode ∧
    decodeHost 0x04000141#32 = .reject .operand ∧ decodeHost 0x06FF0001#32 = .reject .reserved ∧
    decodeHost 0x02000001#32 = .reject .operand ∧ decodeHost 0xFF000000#32 = .reject .opcode := by decide

theorem test_decode_table_word :
    decodeTableWord 32 0xF3000000 = some .txcmp ∧ decodeTableWord 32 0xF3000001 = none ∧
    decodeTableWord 32 (2 ^ 32 + 0x01000000) = none := by decide

/-- The assembly lines of 95_test_vectors.md section 2.1. -/
theorem test_assembly_lines :
    assembleLine "send_ready".toList = some 0x03000000#32 ∧ assembleLine "send 0x41".toList = some 0x04000041#32 ∧
    assembleLine "alarm 1000".toList = some 0x060003E8#32 ∧ assembleLine "delay 65535".toList = some 0x0700FFFF#32 ∧
    assembleLine "send 256".toList = none := by decide

/-! Memory -/

theorem test_reset_memory_is_canonical : Memory.wf State.reset.rxBuf = true := by decide

theorem test_memory_write_keeps_order :
    Memory.write (Memory.write [] 3 0x44#8) 0 0x11#8 = [(0, 0x11#8), (3, 0x44#8)] ∧
    Memory.wf [(3, 0x44#8), (0, 0x11#8)] = false := by decide

/-! One step of each instruction -/

/-- RST-3, in part. -/
theorem test_init :
    (nextOf (exec .init State.reset)).map (fun t => (t.sendReady, t.txd, t.edgeIe, t.initialized, t.period)) =
      some (true, 1#1, true, true, 4) := by decide

/-- ENC-2; the faulting INIT returns no value (30_encoding.md R76). -/
theorem test_second_init_faults :
    (nextOf (exec .init { unbuf with response := some 1#16 })).map (fun t => (t.fault, t.response)) =
      some (some .reInit, none) := by decide

/-- BUF-5 and BUF-6. -/
theorem test_available :
    (nextOf (exec .available { buf with rxHead := 1, rxTail := 3 })).map (fun t => t.response) = some (some 2#16) ∧
    (nextOf (exec .available { buf with rxHead := 2, rxTail := 2 })).map (fun t => t.response) = some (some 0#16) := by
  decide

/-- RST-4, and ENC-3's fault for this command. -/
theorem test_sendReady :
    (nextOf (exec .sendReady unbuf)).map (fun t => t.response) = some (some 1#16) ∧
    (nextOf (exec .sendReady State.reset)).map (fun t => t.fault) = some (some (.notInitialized 3#8)) := by decide

/-- TXH-1. -/
theorem test_send :
    (nextOf (exec (.send 0x41#8) (ready (block 10 .unbuffered 4 false) 5))).map
      (fun t => (t.ocrTx, t.sendReady, t.sendByte, t.txState, t.txIe)) = some (5, false, 0x41#8, .startBit, true) := by
  decide

/-- TXH-2. -/
theorem test_send_holds :
    nextOf (exec (.send 0x42#8) { unbuf with sendReady := false }) = some { unbuf with sendReady := false } := by decide

/-- BUF-7: the tail wraps. -/
theorem test_recv_buffered :
    (nextOf (exec .recv { buf with rxHead := 2, rxTail := 3, rxBuf := [(3, 0x9C#8)] })).map
      (fun t => (t.response, t.rxTail, t.rxBuf)) = some (some 0x9C#16, 0, [(3, 0x9C#8)]) := by decide

/-- BUF-11: the byte is not cleared. -/
theorem test_recv_unbuffered :
    (nextOf (exec .recv { unbuf with available := true, recvByte := 0x41#8 })).map
      (fun t => (t.response, t.available, t.recvByte)) = some (some 0x41#16, false, 0x41#8) := by decide

/-- TXH-5: `P = 10`, `ms_to_ticks(3) = 25`, `tcnt = 8`. -/
theorem test_alarm :
    (nextOf (exec (.alarm 3#16)
      (ready { block 10 .unbuffered 4 false with msToTicks := .suggested 25000 3 } 8))).map
      (fun t => (t.ocrTx, t.delay, t.sendReady, t.txState, t.txIe)) = some (3, 2, false, .timedDelay, true) := by decide

/-- TXH-9: the overflow test comes before the hold; no response (41_transmit.md R130). -/
theorem test_alarm_overflow :
    (nextOf (exec (.alarm 6554#16)
      { ready { block 100 .unbuffered 4 false with msToTicks := .suggested 1000000 1 } 0 with
        sendReady := false, response := some 1#16 })).map (fun t => (t.fault, t.response)) =
      some (some (.alarmOverflow 65540), none) := by decide

/-- TXH-11. -/
theorem test_delay :
    (nextOf (exec (.delay 0#16) unbuf)).map (fun t => (t.hostWait, t.txState, t.delay, t.ocrTx)) =
      some (.delayWait, .timedDelay, 0, 1) := by decide

/-- Program P2 at its `t = 9`. -/
theorem test_delay_of_two_periods :
    (nextOf (exec (.delay 8#16) { unbuf with tcnt := 2 })).map (fun t => (t.hostWait, t.delay, t.ocrTx)) =
      some (.delayWait, 2, 2) := by decide

/-- TMR-4 and TMR-9: the old value does not match; an edge on a disabled source is lost. -/
theorem test_tick :
    (nextOf (exec (.tick 0#1) { unbuf with tcnt := 3, ocrTx := 3, txIe := true, edgeIe := false, rxIe := true })).map
      (fun t => (t.tcnt, t.txPend, t.rxPend, t.edgePend, t.rxCur)) = some (0, false, true, false, 0#1) := by decide

/-- TMR-11. -/
theorem test_tick_before_init :
    nextOf (exec (.tick 0#1) State.reset) = some { State.reset with t := 1, rxPrev := 1#1, rxCur := 0#1 } := by decide

/-- RX-2: `P = 10`, `H = 5`, `tcnt = 7`. -/
theorem test_edge :
    (nextOf (exec .edge { ready (block 10 .unbuffered 4 false) 7 with edgePend := true })).map
      (fun t => (t.ocrRx, t.edgeIe, t.edgePend, t.rxIe, t.rxState)) = some (2, false, false, true, .waitStart) := by
  decide

/-- RX-7. -/
theorem test_rxcmp_last_data_bit :
    (nextOf (exec .rxcmp { unbuf with rxState := .dataBits, recvShift := 0x82#8, recvBits := 1#4, rxCur := 0#1 })).map
      (fun t => (t.recvShift, t.recvBits, t.rxState)) = some (0x41#8, 0#4, .waitStopHigh) := by decide

/-- BUF-2: the commit that drops the oldest byte. -/
theorem test_rxcmp_commit :
    (nextOf (exec .rxcmp
      { buf with rxState := .waitStopHigh, rxIe := true, edgeIe := false, recvShift := 0x44#8, rxHead := 3 })).map
      (fun t => (t.rxBuf, t.rxHead, t.rxTail, t.rxState, t.rxIe, t.edgeIe)) =
      some ([(3, 0x44#8)], 0, 1, .waitStart, false, true) := by decide

/-- TX-6: the last data bit of 0x80. -/
theorem test_txcmp_last_data_bit :
    (nextOf (exec .txcmp { unbuf with txState := .dataBits, sendByte := 0x01#8, sendBits := 1#4, txd := 0#1 })).map
      (fun t => (t.txd, t.sendByte, t.sendBits, t.txState)) = some (1#1, 0#8, 0#4, .stopBit) := by decide

/-- TX-12: test `delay`, then decrement; the pin is not driven. -/
theorem test_txcmp_delay :
    (nextOf (exec .txcmp { unbuf with txState := .timedDelay, delay := 1, sendReady := false, txIe := true })).map
      (fun t => (t.delay, t.txd, t.sendReady, t.txState)) = some (0, 1#1, false, .timedDelay) := by decide

/-! Whole steps -/

/-- ENC-16: IllegalCommand, not NotInitialized. -/
theorem test_step_illegal_before_init :
    (nextOf (step { State.reset with host := [0xFF000000#32], turns := [.host] })).map (fun t => t.fault) =
      some (some (.illegalCommand 0xFF000000#32)) := by decide

/-- INT-3: the handler runs and the host's word waits. -/
theorem test_step_dispatch_first :
    (nextOf (step { unbuf with rxIe := true, rxPend := true, edgeIe := false, host := [0x03000000#32] })).map
      (fun t => (t.rxState, t.rxPend, t.host)) = some (.dataBits, false, [0x03000000#32]) := by decide

/-- INT-6: no step after a fault. -/
theorem test_step_after_fault :
    faultOf (step { unbuf with fault := some (.alarmOverflow 65540) }) =
      some (.recorded (.alarmOverflow 65540)) := by decide

/-- TXH-13: DELAY-RETURN. -/
theorem test_step_delay_return :
    (nextOf (step { unbuf with hostWait := .delayWait, host := [0x03000000#32], turns := [.host] })).map
      (fun t => (t.hostWait, t.host, t.t)) = some (.none, [0x03000000#32], 0) := by decide

/-- TXH-12: inside DELAY no word is taken and time goes on. -/
theorem test_step_delay_waits :
    (nextOf (step { unbuf with
      hostWait := .delayWait, sendReady := false, host := [0x03000000#32], lines := [1#1] })).map
      (fun t => (t.hostWait, t.host, t.t)) = some (.delayWait, [0x03000000#32], 1) := by decide

/-- What a step shows (60_exceptions.md R220): RECV's response. -/
theorem test_observe_response :
    observations 1 { unbuf with available := true, recvByte := 0xA5#8, host := [0x05000000#32], turns := [.host] } =
      [.hostWord 0x05000000#32 (some 0x00A5#16)] := by decide

/-- A TICK shows its line value and the pin (30_encoding.md R73); a faulting INIT after SEND_READY shows no response
(30_encoding.md R76). -/
theorem test_observe_tick_and_fault :
    observations 1 { unbuf with txd := 1#1, lines := [0#1] } = [.tick 0#1 1#1] ∧
    observations 2 { unbuf with host := [0x03000000#32, 0x01000000#32], turns := [.host, .host] } =
      [.hostWord 0x03000000#32 (some 1#16), .hostWord 0x01000000#32 none] := by decide

/-- A placed word is fetched next, for a handler, a TICK and a host command. -/
theorem test_withFetchWord :
    fetch (State.reset.withFetchWord 32 0xF1000000) = .run .edge { State.reset with edgePend := true } ∧
    fetch (State.reset.withFetchWord 32 0xF0000001) = .run (.tick 1#1) State.reset ∧
    fetch (State.reset.withFetchWord 32 0x04000041) = .run (.send 0x41#8) State.reset := by decide

/-- A word that is no instruction goes to the host; a number that is no word places nothing (notes/assumptions/21.md). -/
theorem test_withFetchWord_of_no_instruction :
    fetch (State.reset.withFetchWord 32 0xF3000001) = .illegal 0xF3000001#32 State.reset ∧
    State.reset.withFetchWord 32 (2 ^ 32 + 0x01000000) = State.reset ∧
    State.reset.withFetchWord 24 0x01000000 = State.reset := by decide

/-! Witnesses: concrete states and operands that meet the hypotheses of each statement, clause by clause -/

/-- A block that INIT has not reached, with one host word to take next. -/
def freshWith (w : Word) : State := { State.reset with host := [w], turns := [.host] }

/-- An Unbuffered block after INIT with one host word to take next. -/
def unbufWith (w : Word) : State := { unbuf with host := [w], turns := [.host] }

/-- Bytes queued in every slot but one: head 3, tail 0, 10, 20 and 30. -/
def full : State := { buf with rxHead := 3, rxBuf := [(0, 10#8), (1, 20#8), (2, 30#8)] }

theorem full_invariant : Invariant full :=
  ⟨by decide, by decide, by decide, by decide, by decide, by decide, by decide⟩

theorem witness_InvalidConfigurationIsRefused :
    { unbuf with cfg := block 1 .unbuffered 4 false }.cfg.valid = false := by decide

theorem witness_ParametersNeverChange : ∃ t, step { unbuf with lines := [1#1] } = .next t := ⟨_, rfl⟩

theorem witness_HostStepRunsDecodedWord :
    HostWordNext (unbufWith 0x04000041#32) 0x04000041#32 [] ∧
    decodeHost 0x04000041#32 = .instr (.send 0x41#8) ∧
    (unbufWith 0x04000041#32).holds (.send 0x41#8) = false := by decide

theorem witness_PlacedWordIsRunNext :
    unbuf.cfg.valid = true ∧ decodeWord 0x04000041#32 = .instr (.send 0x41#8) ∧
    (unbuf.withFetchWord 32 (0x04000041#32 : Word).toNat).holds (.send 0x41#8) = false ∧
    decodeWord 0xF3000000#32 = .instr .txcmp ∧
    (unbuf.withFetchWord 32 (0xF3000000#32 : Word).toNat).holds .txcmp = false ∧
    loop.cfg.valid = true ∧ decodeWord 0xF0000000#32 = .instr (.tick 0#1) ∧
    (loop.withFetchWord 32 (0xF0000000#32 : Word).toNat).holds (.tick 0#1) = false := by decide

theorem witness_TimerStepTakesTheEnvironmentsLine :
    (loop.cfg.valid = true ∧ Settled loop ∧ loop.hostEnabled = false ∧ loop.cfg.loopback = true) ∧
    (unbuf.cfg.valid = true ∧ Settled unbuf ∧ unbuf.hostEnabled = false ∧ unbuf.cfg.loopback = false ∧
      unbuf.lines = []) ∧
    ({ unbuf with lines := [0#1] }.lines = 0#1 :: [] ∧ { unbuf with lines := [0#1] }.hostEnabled = false) := by
  decide

/-- TIMER's turn in loopback, with a given line value and with a free one; and a state where no turn is given. -/
theorem witness_TimerMayGoBeforeTheHost :
    let l := { loop with host := [0x02000000#32], turns := [.timer] }
    let g := { unbuf with host := [0x02000000#32], turns := [.timer], lines := [0#1] }
    let f := { unbuf with host := [0x02000000#32], turns := [.timer] }
    (l.cfg.valid = true ∧ Settled l ∧ l.hostEnabled = true ∧ l.cfg.loopback = true ∧
      l.takeTurn = (.timer, { l with turns := [] })) ∧
    (g.cfg.valid = true ∧ Settled g ∧ g.hostEnabled = true ∧ g.cfg.loopback = false ∧ g.lines = 0#1 :: [] ∧
      g.takeTurn = (.timer, { g with turns := [] })) ∧
    (f.cfg.valid = true ∧ Settled f ∧ f.hostEnabled = true ∧ f.cfg.loopback = false ∧ f.lines = [] ∧
      f.takeTurn = (.timer, { f with turns := [] })) ∧
    f.turns = .timer :: [] ∧ unbuf.turns = [] := ⟨by decide, by decide, by decide, by decide, by decide⟩

theorem witness_EveryStepTicksOrUsesUpWork :
    (∃ t, step { unbuf with lines := [1#1] } = .next t) ∧ ∃ t, step (unbufWith 0x02000000#32) = .next t :=
  ⟨⟨_, rfl⟩, ⟨_, rfl⟩⟩

theorem witness_OnlyItsEncodingDecodesToAnInstruction : decodeWord 0xF0000001#32 = .instr (.tick 1#1) := by decide

theorem witness_HostInterfaceTakesExactlyTheHostCommands :
    decodeHost 0x0700FFFF#32 = .instr (.delay 65535#16) ∧ Instr.isHostCommand (.delay 65535#16) = true ∧
    0x0700FFFF#32 = encode (.delay 65535#16) := by decide

/-- Each clause's first and last opcodes; the overflow at its smallest count, `2^DELAY_WIDTH`. -/
theorem witness_HostWordChecksInOrder :
    (HostWordNext (freshWith 0x00000000#32) 0x00000000#32 [] ∧ IllegalFields 0x00000000#32) ∧
    (HostWordNext (freshWith 0x08000000#32) 0x08000000#32 [] ∧ IllegalFields 0x08000000#32) ∧
    (HostWordNext (freshWith 0x02000000#32) 0x02000000#32 [] ∧ ¬ IllegalFields 0x02000000#32 ∧
      (freshWith 0x02000000#32).initialized = false ∧ opField 0x02000000#32 ≠ 1#8) ∧
    (HostWordNext (unbufWith 0x01000000#32) 0x01000000#32 [] ∧ ¬ IllegalFields 0x01000000#32 ∧
      (unbufWith 0x01000000#32).initialized = true ∧ opField 0x01000000#32 = 1#8) :=
  ⟨by decide, by decide, by decide, by decide⟩

theorem witness_HostWordChecksInOrder_legal :
    (HostWordNext (freshWith 0x01000000#32) 0x01000000#32 [] ∧ ¬ IllegalFields 0x01000000#32 ∧
      ((freshWith 0x01000000#32).initialized = true ↔ opField 0x01000000#32 ≠ 1#8) ∧
      (freshWith 0x01000000#32).holds .init = false) ∧
    (HostWordNext (unbufWith 0x0700FFFF#32) 0x0700FFFF#32 [] ∧ ¬ IllegalFields 0x0700FFFF#32 ∧
      ((unbufWith 0x0700FFFF#32).initialized = true ↔ opField 0x0700FFFF#32 ≠ 1#8) ∧
      (unbufWith 0x0700FFFF#32).holds (.delay 65535#16) = false) := ⟨by decide, by decide⟩

/-- The smallest count that overflows a one-bit `delay`. -/
theorem witness_HostWordChecksInOrder_overflow :
    let c := { block 4 .unbuffered 4 false with delayWidth := 1, msToTicks := .suggested 2000 1 }
    let s := { unbufWith 0x06000004#32 with cfg := c }
    HostWordNext s 0x06000004#32 [] ∧ ¬ IllegalFields 0x06000004#32 ∧ s.initialized = true ∧
    opField 0x06000004#32 = 6#8 ∧
    2 ^ s.cfg.delayWidth ≤ ticksOfMs s.cfg (operandField 0x06000004#32).toNat / s.cfg.bitPeriod := by decide

theorem witness_TickMovesSamplesCounterAndPendingFlags :
    State.reset.initialized = false ∧ unbuf.initialized = true := by decide

theorem witness_FirstMatchAfterAWrite :
    unbuf.initialized = true ∧ unbuf.period = unbuf.cfg.bitPeriod ∧ unbuf.tcnt < unbuf.cfg.bitPeriod ∧
    0 < unbuf.cfg.bitPeriod ∧ 3 < unbuf.cfg.bitPeriod ∧ 1 ≤ [1#1, 1#1, 1#1, 1#1].length ∧
    [1#1, 1#1, 1#1, 1#1].length ≤ unbuf.cfg.bitPeriod ∧ [1#1, 1#1, 1#1].length ≤ unbuf.cfg.bitPeriod := by decide

theorem witness_OneMatchEveryPeriod :
    unbuf.initialized = true ∧ unbuf.period = unbuf.cfg.bitPeriod ∧ unbuf.tcnt < unbuf.cfg.bitPeriod ∧
    0 < unbuf.cfg.bitPeriod ∧ 3 < unbuf.cfg.bitPeriod := by decide

theorem witness_TxcmpOutsideTheDataBits :
    unbuf.txState = .idle ∧ { unbuf with txState := .startBit }.txState = .startBit ∧
    { unbuf with txState := .stopBit }.txState = .stopBit ∧
    { unbuf with txState := .returnIdle }.txState = .returnIdle := by decide

theorem witness_TxcmpSendsOneDataBit :
    ({ unbuf with txState := .dataBits }.txState = .dataBits ∧ { unbuf with txState := .dataBits }.sendBits = 0#4) ∧
    { unbuf with txState := .dataBits, sendBits := 1#4 }.sendBits ≠ 0#4 := by decide

theorem witness_TxcmpCountsTheDelay :
    ({ unbuf with txState := .timedDelay }.txState = .timedDelay ∧ { unbuf with txState := .timedDelay }.delay = 0) ∧
    { unbuf with txState := .timedDelay, delay := 1 }.delay ≠ 0 := by decide

theorem witness_SendArmsTheFrame :
    State.reset.initialized = false ∧ (unbuf.initialized = true ∧ unbuf.sendReady = true) ∧
    { unbuf with sendReady := false }.sendReady = false := by decide

theorem witness_SendReadyResponds : State.reset.initialized = false ∧ unbuf.initialized = true := by decide

/-- The overflow's boundary: `whole` is 65535 and 65536. -/
theorem witness_AlarmArmsTheDelay :
    let c := { block 4 .unbuffered 4 false with msToTicks := .suggested 4000 1 }
    let d := { block 4 .unbuffered 4 false with msToTicks := .suggested 8000 1 }
    State.reset.initialized = false ∧
    ((ready d 1).initialized = true ∧ 2 ^ d.delayWidth ≤ ticksOfMs d (32768#16 : Half).toNat / d.bitPeriod) ∧
    (ticksOfMs c (65535#16 : Half).toNat / c.bitPeriod < 2 ^ c.delayWidth ∧ (ready c 1).sendReady = true ∧
      { ready c 1 with sendReady := false }.sendReady = false) := by decide

theorem witness_DelayArmsAndWaits :
    let c := { block 4 .unbuffered 4 false with msToTicks := .suggested 4000 1 }
    let d := { block 4 .unbuffered 4 false with msToTicks := .suggested 8000 1 }
    State.reset.initialized = false ∧
    ((ready d 1).initialized = true ∧ 2 ^ d.delayWidth ≤ ticksOfMs d (32768#16 : Half).toNat / d.bitPeriod) ∧
    (ticksOfMs c (65535#16 : Half).toNat / c.bitPeriod < 2 ^ c.delayWidth ∧ (ready c 1).sendReady = true ∧
      { ready c 1 with sendReady := false }.sendReady = false) := by decide

theorem witness_DelayReturnIsTheOnlyHostStep :
    let s := { unbuf with hostWait := .delayWait, turns := [.host] }
    (s.cfg.valid = true ∧ Settled s ∧ s.hostWait = .delayWait ∧ s.sendReady = true ∧ s.takeTurn.1 = .host) ∧
    { s with sendReady := false }.sendReady = false := by decide

theorem witness_HeldCommandWaitsWhileTimeRuns :
    let s := unbufWith 0x05000000#32
    s.cfg.valid = true ∧ Settled s ∧ s.hostWait = .none ∧ s.host = 0x05000000#32 :: [] ∧
    decodeHost 0x05000000#32 = .instr .recv ∧ s.holds .recv = true := by decide

theorem witness_FrameTakesElevenBitPeriods :
    Invariant unbuf ∧ unbuf.initialized = true ∧ Settled unbuf ∧ unbuf.sendReady = true ∧
    (∃ s0, exec (.send 0x41#8) unbuf = .next s0) ∧ (List.replicate 44 1#1).length ≤ 11 * unbuf.cfg.bitPeriod :=
  ⟨unbuf_invariant, by decide, by decide, by decide, ⟨_, rfl⟩, by decide⟩

/-- `D = 9`, not a whole number of periods, and `D = 8`, two whole periods. -/
theorem witness_AlarmLastsItsTicks :
    Invariant unbuf ∧ unbuf.initialized = true ∧ Settled unbuf ∧ unbuf.sendReady = true ∧
    ticksOfMs unbuf.cfg (9#16 : Half).toNat = 9 ∧ ticksOfMs unbuf.cfg (8#16 : Half).toNat = 8 ∧
    9 / unbuf.cfg.bitPeriod < 2 ^ unbuf.cfg.delayWidth ∧ 8 / unbuf.cfg.bitPeriod < 2 ^ unbuf.cfg.delayWidth ∧
    (∃ s0, exec (.alarm 9#16) unbuf = .next s0) ∧ (∃ s0, exec (.delay 8#16) unbuf = .next s0) ∧
    (List.replicate 9 1#1).length ≤ 9 ∧ (List.replicate 12 1#1).length ≤ 8 + unbuf.cfg.bitPeriod :=
  ⟨unbuf_invariant, by decide, by decide, by decide, by decide, by decide, by decide, by decide, ⟨_, rfl⟩, ⟨_, rfl⟩,
    by decide, by decide⟩

theorem witness_PinChangesOnlyInAFrame :
    (nextOf (exec .txcmp { unbuf with txState := .startBit })).map (fun t => t.txd) = some 0#1 ∧ unbuf.txd ≠ 0#1 := by
  decide

theorem witness_RxcmpTakesStartAndDataBits :
    unbuf.rxState = .waitStart ∧ { unbuf with rxState := .startBit }.rxState = .startBit ∧
    ({ unbuf with rxState := .dataBits }.rxState = .dataBits ∧ { unbuf with rxState := .dataBits }.recvBits = 0#4) ∧
    { unbuf with rxState := .dataBits, recvBits := 1#4 }.recvBits ≠ 0#4 := by decide

/-- In Buffered mode the last slot, 3. -/
theorem witness_RxcmpTakesTheStopBit :
    let u := { unbuf with rxState := .waitStopHigh }
    let s := { buf with rxState := .waitStopHigh }
    (u.rxState = .waitStopHigh ∧ u.cfg.rxMode = .unbuffered ∧ u.rxCur = 1#1 ∧ { u with rxCur := 0#1 }.rxCur = 0#1) ∧
    (s.rxState = .waitStopHigh ∧ s.cfg.rxMode = .buffered ∧ s.rxCur = 1#1 ∧
      { s with rxHead := 3 }.rxHead < s.cfg.rxBufSlots) := by decide

theorem witness_QueuedCountIsHeadMinusTail :
    buf.rxHead < buf.cfg.rxBufSlots ∧ { buf with rxTail := 3 }.rxTail < buf.cfg.rxBufSlots := by decide

/-- A full buffer, and an empty one. -/
theorem witness_PushKeepsTheNewestBytes :
    (2 ≤ full.cfg.rxBufSlots ∧ full.rxHead < full.cfg.rxBufSlots ∧ full.rxTail < full.cfg.rxBufSlots ∧
      full.queued = full.cfg.rxBufSlots - 1) ∧
    (buf.rxHead < buf.cfg.rxBufSlots ∧ buf.rxTail < buf.cfg.rxBufSlots ∧ buf.queued = 0) := by decide

theorem witness_PopTakesTheOldestByte :
    full.rxHead < full.cfg.rxBufSlots ∧ full.rxTail < full.cfg.rxBufSlots ∧ 1 ≤ full.queued := by decide

/-- The largest count that fits 16 bits. -/
theorem witness_AvailableReportsTheCount :
    let s := { ready (block 4 .buffered 65537 false) 0 with rxHead := 65535 }
    State.reset.initialized = false ∧ (unbuf.initialized = true ∧ unbuf.cfg.rxMode = .unbuffered) ∧
    (s.initialized = true ∧ s.cfg.rxMode = .buffered ∧ s.queued < 65536) := by decide

/-- The smallest count that does not fit 16 bits. -/
theorem witness_AvailableAnswersACountOfAnySize :
    let s := { ready (block 4 .buffered 65537 false) 0 with rxHead := 65536 }
    s.initialized = true ∧ s.cfg.rxMode = .buffered ∧ 65536 ≤ s.queued := by decide

/-- In Buffered mode the last slot, 3. -/
theorem witness_RecvTakesOneByte :
    State.reset.initialized = false ∧
    (unbuf.initialized = true ∧ unbuf.cfg.rxMode = .unbuffered ∧ unbuf.available = false ∧
      { unbuf with available := true }.available = true) ∧
    (buf.initialized = true ∧ buf.cfg.rxMode = .buffered ∧ buf.rxHead = buf.rxTail) ∧
    ({ buf with rxTail := 3 }.rxHead ≠ { buf with rxTail := 3 }.rxTail ∧
      { buf with rxTail := 3 }.rxTail < buf.cfg.rxBufSlots) := by decide

/-- The first index that is no slot, 4. -/
theorem witness_MissingSlotStopsTheCommitAndThePop :
    let h := { buf with rxState := .waitStopHigh, rxHead := 4 }
    let t := { buf with rxTail := 4 }
    (h.cfg.rxMode = .buffered ∧ h.rxState = .waitStopHigh ∧ h.rxCur = 1#1 ∧ h.cfg.rxBufSlots ≤ h.rxHead) ∧
    (t.cfg.rxMode = .buffered ∧ t.initialized = true ∧ t.rxHead ≠ t.rxTail ∧ t.cfg.rxBufSlots ≤ t.rxTail) := by decide

theorem witness_RegistersOfTheOtherModeStay :
    (∃ t, exec .rxcmp { unbuf with rxState := .waitStopHigh } = .next t) ∧ unbuf.cfg.rxMode = .unbuffered ∧
    (∃ t, exec .rxcmp { buf with rxState := .waitStopHigh } = .next t) ∧ buf.cfg.rxMode = .buffered :=
  ⟨⟨_, rfl⟩, by decide, ⟨_, rfl⟩, by decide⟩

/-- A line of 39 TICKs (`j = 9`), and one whose stop bit comes one period late (`j = 10`). -/
theorem witness_ReceiverSamplesBitCentres :
    (Invariant buf ∧ buf.initialized = true ∧ Settled buf ∧ buf.edgeIe = true ∧ buf.rxCur = 1#1) ∧
    (let lines := 0#1 :: List.replicate 38 1#1
     lines.length = 2 + 9 * 4 + 1 ∧ lines[0]? = some 0#1 ∧ lines[2 + 9 * 4]? = some 1#1) ∧
    (let lines := List.replicate 42 0#1 ++ [1#1]
     lines.length = 2 + 10 * 4 + 1 ∧ lines[0]? = some 0#1 ∧ lines[2 + 9 * 4]? = some 0#1 ∧
      lines[2 + 10 * 4]? = some 1#1) ∧ buf.cfg.bitPeriod = 4 ∧ buf.cfg.halfBit = 2 :=
  ⟨⟨buf_invariant, by decide, by decide, by decide, by decide⟩, by decide, by decide, by decide, by decide⟩

/-- `P = 40`, `H = 20`, and a sender of bit period 41. -/
theorem witness_SenderWithinToleranceIsReceived :
    let s := ready (block 40 .buffered 4 false) 7
    (Invariant s ∧ s.initialized = true ∧ Settled s ∧ s.edgeIe = true ∧ s.rxCur = 1#1) ∧
    (∀ k, k ≤ 8 → (k + 1) * 41 ≤ s.cfg.halfBit + (k + 1) * s.cfg.bitPeriod ∧
      s.cfg.halfBit + (k + 1) * s.cfg.bitPeriod + 1 ≤ (k + 2) * 41) :=
  ⟨⟨⟨by decide, by decide, by decide, by decide, by decide, by decide, by decide⟩, by decide, by decide, by decide,
    by decide⟩, by decide⟩

theorem witness_LoopbackReturnsTheByteSent :
    Invariant loop ∧ loop.initialized = true ∧ Settled loop ∧ loop.cfg.loopback = true ∧ loop.txState = .idle ∧
    loop.rxState = .waitStart ∧ loop.edgeIe = true ∧ loop.txd = 1#1 ∧ loop.rxCur = 1#1 ∧
    (∃ s0, exec (.send 0x41#8) loop = .next s0) ∧ 4 + 1 + 2 + 9 * 4 ≤ 43 ∧ 43 ≤ 11 * loop.cfg.bitPeriod :=
  ⟨loop_invariant, by decide, by decide, by decide, by decide, by decide, by decide, by decide, by decide, ⟨_, rfl⟩,
    by decide, by decide⟩

theorem witness_NoCommitWithin9PPlusHTicks :
    Invariant buf ∧ buf.initialized = true ∧ Settled buf ∧ buf.edgeIe = true ∧
    (List.replicate 38 0#1).length ≤ 9 * buf.cfg.bitPeriod + buf.cfg.halfBit :=
  ⟨buf_invariant, by decide, by decide, by decide, by decide⟩

theorem witness_PendingFlagsAreSetByTickOnly :
    (nextOf (exec (.tick 0#1) unbuf)).map (fun t => t.pending .edge) = some true ∧ unbuf.pending .edge = false ∧
    (nextOf (exec .edge { unbuf with edgePend := true })).map (fun t => t.pending .edge) = some false ∧
    { unbuf with edgePend := true }.pending .edge = true := by decide

theorem witness_DisablingASourceClearsItsPendingFlag :
    (unbuf.enabled .edge = true ∧ (nextOf (exec .edge unbuf)).map (fun t => t.enabled .edge) = some false) ∧
    (unbuf.enabled .rx = false ∧ { unbuf with rxPend := true }.pending .rx = true ∧
      (nextOf (exec .edge { unbuf with rxPend := true })).map (fun t => (t.enabled .rx, t.pending .rx)) =
        some (true, true)) ∧
    (unbuf.initialized = true ∧ unbuf.pending .edge = false) := by decide

theorem witness_HandlerOrderChangesNothing :
    (let s := { unbuf with edgePend := true, txPend := true, txIe := true, txState := .startBit, sendReady := false }
     Invariant s ∧ s.initialized = true ∧ s.cfg.valid = true ∧ s.fault = none ∧ s.edgePend = true) ∧
    ({ unbuf with rxPend := true }.edgePend = false ∧ { unbuf with rxPend := true }.rxPend = true) ∧
    ({ unbuf with txPend := true }.rxPend = false ∧ { unbuf with txPend := true }.txPend = true) :=
  ⟨⟨⟨by decide, by decide, by decide, by decide, by decide, by decide, by decide⟩, by decide, by decide, by decide,
    by decide⟩, by decide, by decide⟩

theorem witness_RecordedFaultEndsTheRun :
    let s := { unbuf with fault := some .reInit }
    unbuf.cfg.valid = true ∧ s.fault ≠ none ∧ nextOf (exec .sendReady s) = some { s with response := some 1#16 } := by
  decide

theorem witness_HostCommandsLeaveCounterAndReceiverAlone :
    Instr.isHostCommand (.send 1#8) = true ∧ Instr.send 1#8 ≠ .init ∧ ∃ t, exec (.send 1#8) unbuf = .next t :=
  ⟨by decide, by decide, ⟨_, rfl⟩⟩

theorem witness_EnginesAreIndependent :
    (∃ t, exec .txcmp { unbuf with txState := .startBit } = .next t) ∧ ∃ t, exec .edge unbuf = .next t :=
  ⟨⟨_, rfl⟩, ⟨_, rfl⟩⟩

theorem witness_InitSetsUpTheBlock :
    unbuf.initialized = true ∧ State.reset.initialized = false ∧ 0 < State.reset.cfg.bitPeriod := by decide

theorem reset_is_power_up : IsPowerUp State.reset := by constructor <;> decide

/-- `s` with another value in every register that R230 leaves unspecified and INIT sets. -/
def scrambled (s : State) : State :=
  { s with
    tcnt := 9, period := 7, ocrTx := 8, ocrRx := 6, txState := .stopBit, sendReady := true, sendByte := 5#8,
    sendBits := 9#4, delay := 4, txd := 0#1, rxState := .waitStopHigh, recvShift := 3#8, recvBits := 2#4,
    available := true, recvByte := 7#8, rxHead := 11, rxTail := 12 }

theorem scrambled_is_power_up (s : State) (h : IsPowerUp s) : IsPowerUp (scrambled s) := by
  cases h; constructor <;> assumption

/-- One pair of states in each receive mode. -/
theorem witness_InitForgetsThePowerUpValues :
    let u := State.powerUp (block 4 .unbuffered 4 false)
    (IsPowerUp State.reset ∧ IsPowerUp (scrambled State.reset) ∧ State.reset.cfg = (scrambled State.reset).cfg ∧
      State.reset.draws = (scrambled State.reset).draws ∧ State.reset.cfg.rxMode = .buffered ∧
      (∃ t, exec .init State.reset = .next t) ∧ ∃ t, exec .init (scrambled State.reset) = .next t) ∧
    (IsPowerUp u ∧ IsPowerUp (scrambled u) ∧ u.cfg = (scrambled u).cfg ∧ u.draws = (scrambled u).draws ∧
      u.cfg.rxMode = .unbuffered ∧ (∃ t, exec .init u = .next t) ∧ ∃ t, exec .init (scrambled u) = .next t) := by
  have hu : IsPowerUp (State.powerUp (block 4 .unbuffered 4 false)) := by constructor <;> decide
  exact ⟨⟨reset_is_power_up, scrambled_is_power_up _ reset_is_power_up, rfl, rfl, rfl, ⟨_, rfl⟩, ⟨_, rfl⟩⟩,
    hu, scrambled_is_power_up _ hu, rfl, rfl, rfl, ⟨_, rfl⟩, ⟨_, rfl⟩⟩

theorem witness_NoStepUndoesInit : (∃ t, step { unbuf with lines := [1#1] } = .next t) ∧ unbuf.initialized = true :=
  ⟨⟨_, rfl⟩, by decide⟩

theorem witness_EveryStepKeepsTheInvariant :
    Invariant { unbuf with lines := [1#1] } ∧ ∃ t, step { unbuf with lines := [1#1] } = .next t :=
  ⟨⟨by decide, by decide, by decide, by decide, by decide, by decide, by decide⟩, ⟨_, rfl⟩⟩

theorem witness_InvariantExcludesMissingSlots : Invariant full := full_invariant

/-- A full buffer whose next step is the commit of one more byte. -/
theorem witness_EveryStepKeepsQueuedSlotsWritten :
    let s := { full with
      rxState := .waitStopHigh, rxPend := true, rxIe := true, edgeIe := false, recvShift := 40#8 }
    Invariant s ∧ QueueWritten s ∧ ∃ t, step s = .next t := by
  refine ⟨⟨by decide, by decide, by decide, by decide, by decide, by decide, by decide⟩, ?_, ⟨_, rfl⟩⟩
  unfold QueueWritten
  decide

theorem witness_ReachableStatesMeetTheSpecsInvariants :
    ∃ s0 s : State, IsPowerUp s0 ∧ s0.cfg.valid = true ∧ Memory.wf s0.rxBuf = true ∧ Reaches s0 s ∧
      s.initialized = true :=
  ⟨freshWith 0x01000000#32, _, by constructor <;> decide, by decide, by decide, ⟨1, rfl⟩, rfl⟩

/-- A settled TICK of this state completes on either line value. -/
theorem settledTick_completes (line : Bit) :
    ∃ t, afterTick line { unbuf with draws := unbuf.draws + 1 } = .next t := by
  have two : ∀ b : Bit, b = 0#1 ∨ b = 1#1 := by decide
  obtain rfl | rfl := two line
  · exact ⟨_, rfl⟩
  · exact ⟨_, rfl⟩

/-- A loopback block, a given line value, and a free one. -/
theorem witness_SettledTickIsMachineSteps :
    let s := { unbuf with lines := [0#1] }
    (loop.cfg.valid = true ∧ Settled loop ∧ loop.hostEnabled = false ∧ loop.cfg.loopback = true ∧
      ∃ t, afterTick loop.txd loop = .next t ∧ t.fault = none) ∧
    (s.cfg.valid = true ∧ Settled s ∧ s.hostEnabled = false ∧ s.cfg.loopback = false ∧ s.lines = 0#1 :: [] ∧
      ∃ t, afterTick 0#1 { s with lines := [] } = .next t ∧ t.fault = none) ∧
    (Settled unbuf ∧ unbuf.hostEnabled = false ∧ unbuf.cfg.loopback = false ∧ unbuf.lines = [] ∧
      ∃ t, afterTick (Config.freeLine unbuf.draws) { unbuf with draws := unbuf.draws + 1 } = .next t) :=
  ⟨⟨by decide, by decide, by decide, by decide, _, rfl, rfl⟩,
    ⟨by decide, by decide, by decide, by decide, by decide, _, rfl, rfl⟩,
    by decide, by decide, by decide, by decide, settledTick_completes _⟩

end Sys2Proof.Tests
end

section
/-! The parameters: which configurations are valid, and that no step changes one (00_scope.md R11, R12). -/

namespace Sys2Proof.Machine
open Sys2Proof

/-- 00_scope.md R11's condition, read off the check. -/
theorem params_valid_iff (c : Params) :
    c.valid = true ↔
      2 ≤ c.bitPeriod ∧ c.bitPeriod ≤ 2 ^ c.timerWidth ∧ 1 ≤ c.delayWidth ∧
        (c.rxMode = .buffered → 2 ≤ c.rxBufSlots) := by
  unfold Params.valid
  cases c.rxMode <;> simp [and_assoc]

theorem fetch_of_invalid {s : State} (h : s.cfg.valid = false) : fetch s = .misconfigured := by
  simp [fetch, h]

theorem step_of_invalid {s : State} (h : s.cfg.valid = false) : step s = .refused .invalidConfiguration := by
  simp [step, fetch_of_invalid h]

/-- No instruction changes a parameter: each case of the inversion lemmas is built of updates that keep `cfg`. -/
theorem exec_cfg {i : Instr} {s t : State} (h : exec i s = .next t) : t.cfg = s.cfg := by
  cases i with
  | init => obtain ⟨-, rfl⟩ | ⟨-, rfl⟩ := execInit_cases h <;> simp
  | available => obtain ⟨-, rfl⟩ | ⟨-, rfl⟩ := execAvailable_cases h <;> simp
  | sendReady => obtain ⟨-, rfl⟩ | ⟨-, rfl⟩ := execSendReady_cases h <;> simp
  | send b => obtain ⟨-, -, rfl⟩ | ⟨-, -, rfl⟩ | ⟨-, rfl⟩ := execSend_cases h <;> simp
  | recv =>
    obtain ⟨-, -, rfl⟩ | ⟨-, -, -, rfl⟩ | ⟨-, -, -, -, rfl⟩ | ⟨-, rfl⟩ := execRecv_cases h <;>
      simp [State.slotTake, State.bufPop]
  | alarm ms =>
    obtain ⟨-, -, rfl⟩ | ⟨-, -, -, rfl⟩ | ⟨-, -, -, rfl⟩ | ⟨-, rfl⟩ := execAlarm_cases h <;> simp
  | delay ms =>
    obtain ⟨-, -, rfl⟩ | ⟨-, -, -, rfl⟩ | ⟨-, -, -, rfl⟩ | ⟨-, rfl⟩ := execDelay_cases h <;> simp
  | tick line =>
    obtain ⟨-, rfl⟩ | ⟨-, rfl⟩ := execTick_cases h
    · simpa using (runTimer_fields (s.sampleLine line)).1
    · simp
  | edge =>
    obtain rfl := Host.Outcome.next.inj ((execEdge_eq s).symm.trans h)
    simp
  | rxcmp =>
    obtain ⟨-, rfl⟩ | ⟨-, -, rfl⟩ | ⟨-, -, -, rfl⟩ | ⟨-, -, -, rfl⟩ | ⟨-, -, rfl⟩ | ⟨-, -, -, rfl⟩ |
      ⟨-, -, -, -, rfl⟩ := execRxcmp_cases h <;> simp
  | txcmp =>
    obtain ⟨-, rfl⟩ | ⟨-, rfl⟩ | ⟨-, -, rfl⟩ | ⟨-, -, -, rfl⟩ | ⟨-, -, -, rfl⟩ | ⟨-, rfl⟩ | ⟨-, rfl⟩ |
      ⟨-, -, rfl⟩ := execTxcmp_cases h <;> simp

/-- Every agent's step keeps the parameters: an instruction does (`exec_cfg`), and what the fetch takes, DELAY's return
and an illegal word's fault write other fields. -/
theorem step_cfg {s t : State} (h : step s = .next t) : t.cfg = s.cfg := by
  obtain ⟨-, -, hstep⟩ := step_cases h
  obtain ⟨src, -, handler⟩ | ⟨-, idle⟩ := hstep
  · exact exec_cfg handler
  obtain ⟨line, ls, ts, d, tick⟩ | ⟨-, -, ts, d, rfl⟩ | ⟨-, w, rest, ts, d, -, word⟩ := idle
  · exact (exec_cfg tick).trans rfl
  · rfl
  obtain ⟨i, -, -, command⟩ | ⟨r, -, rfl⟩ := word
  · exact (exec_cfg command).trans rfl
  · rfl

/-- Settles O1: R11's condition is the check's (`params_valid_iff`), and the fetch of an invalid block is refused. -/
theorem invalidConfigurationIsRefused : Obligations.InvalidConfigurationIsRefused :=
  ⟨params_valid_iff, fun _ => step_of_invalid⟩

/-- Settles O2, by the cases of what a step can be. -/
theorem parametersNeverChange : Obligations.ParametersNeverChange :=
  fun _ _ => step_cfg

end Sys2Proof.Machine
end

section
/-! The count of queued bytes: when it is 0, its residue and its range (20_memory.md R52). -/

namespace Sys2Proof.Machine
open Sys2Proof

/-- The residue is not negative, so reading it as a natural number loses nothing. -/
theorem queued_cast (s : State) (hN : 0 < s.cfg.rxBufSlots) :
    (s.queued : Int) = ((s.rxHead : Int) - s.rxTail) % s.cfg.rxBufSlots :=
  Int.toNat_of_nonneg (Int.emod_nonneg _ (by omega))

theorem queued_lt (s : State) (hN : 0 < s.cfg.rxBufSlots) : s.queued < s.cfg.rxBufSlots := by
  have hlt := Int.emod_lt_of_pos ((s.rxHead : Int) - s.rxTail) (Int.natCast_pos.mpr hN)
  rw [← queued_cast s hN] at hlt
  exact Int.ofNat_lt.mp hlt

/-- A head behind the tail is at least one slot ahead of it around the ring. -/
theorem queued_eq_zero_iff (s : State) (hh : s.rxHead < s.cfg.rxBufSlots) (ht : s.rxTail < s.cfg.rxBufSlots) :
    s.queued = 0 ↔ s.rxHead = s.rxTail := by
  rw [queued_eq s hh ht]
  split <;> omega

/-- Settles O33: the count is a residue modulo the number of slots, and 0 for equal indices only. -/
theorem queuedCountIsHeadMinusTail : Obligations.QueuedCountIsHeadMinusTail := by
  intro s hh ht
  have hN : 0 < s.cfg.rxBufSlots := Nat.zero_lt_of_lt hh
  exact ⟨queued_eq_zero_iff s hh ht, queued_cast s hN, Nat.le_sub_one_of_lt (queued_lt s hN)⟩

end Sys2Proof.Machine
end

section
/-! A host word and its checks: which words the host interface takes, what an illegal and a legal one step to, and what
the commands' own checks answer (30_encoding.md R74, 41_transmit.md R130, 60_exceptions.md R212). -/

namespace Sys2Proof.Machine
open Sys2Proof Sys2Proof.Safety

/-! The fields of a word -/

/-- A word is its three fields of 30_encoding.md R70. -/
theorem word_eq_fields (w : Word) :
    w = ((opField w).setWidth 32 <<< 24) ||| ((rsvField w).setWidth 32 <<< 16) ||| (operandField w).setWidth 32 := by
  ext j hj
  simp only [opField, rsvField, operandField, BitVec.getElem_or, BitVec.getElem_shiftLeft, BitVec.getElem_setWidth,
    BitVec.getLsbD_extractLsb', zero_add]
  grind

@[simp] theorem opField_encode (i : Instr) : opField (encode i) = i.opcode := (Laws.Fields.fields_of_encode i).1

@[simp] theorem rsvField_encode (i : Instr) : rsvField (encode i) = 0#8 := (Laws.Fields.fields_of_encode i).2.1

@[simp] theorem operandField_encode (i : Instr) : operandField (encode i) = i.operand :=
  (Laws.Fields.fields_of_encode i).2.2

/-- The fields determine the word. -/
theorem encode_eq_iff {i : Instr} {w : Word} :
    encode i = w ↔ rsvField w = 0#8 ∧ i.opcode = opField w ∧ i.operand = operandField w := by
  constructor
  · rintro rfl
    simp
  · rintro ⟨hrsv, hop, hoperand⟩
    rw [word_eq_fields w, hrsv, encode, hop, hoperand]
    simp

/-- SEND's operand field (30_encoding.md R72) through the two bytes that the decoder reads. -/
theorem send_operand_eq_iff {b : Byte} {w : Word} :
    (Instr.send b).operand = operandField w ↔ operandHigh w = 0#8 ∧ operandLow w = b := by
  have hhigh : operandHigh w = (operandField w).extractLsb' 8 8 := by
    simp [operandHigh, operandField]
  have hlow : operandLow w = (operandField w).extractLsb' 0 8 := by
    simp [operandLow, operandField]
  simp only [hhigh, hlow, Instr.operand, ← BitVec.toNat_inj, BitVec.toNat_setWidth, BitVec.extractLsb'_toNat,
    Nat.shiftRight_eq_div_pow, BitVec.toNat_ofNat]
  omega

/-! The words the host interface takes -/

theorem decodeForm_eq_instr_iff {w : Word} {form : Option Decoded} {i : Instr} :
    decodeForm w form = .instr i ↔ rsvField w = 0#8 ∧ form = some (.instr i) := by
  cases form with
  | none => simp [decodeForm]
  | some d => by_cases h : rsvField w = 0#8 <;> simp [decodeForm, h]

theorem bare_eq_instr_iff {w : Word} {i j : Instr} : bare w i = .instr j ↔ operandField w = 0#16 ∧ i = j := by
  by_cases h : operandField w = 0#16 <;> simp [bare, h]

/-- A word without operand that passes its check has the opcode and the zero operand of its command. -/
theorem fields_of_bare {w : Word} {i j : Instr} (h : bare w j = .instr i) (hcmd : j.isHostCommand = true)
    (hop : opField w = j.opcode) (hzero : j.operand = 0#16) :
    i.isHostCommand = true ∧ i.opcode = opField w ∧ i.operand = operandField w := by
  obtain ⟨hoperand, rfl⟩ := bare_eq_instr_iff.mp h
  exact ⟨hcmd, hop.symm, hzero.trans hoperand.symm⟩

/-- The host's operand checks (30_encoding.md R71, R72) name the opcode and the operand of a host command. -/
theorem hostForm_eq_instr_iff {w : Word} {i : Instr} :
    hostForm w = some (.instr i) ↔
      i.isHostCommand = true ∧ i.opcode = opField w ∧ i.operand = operandField w := by
  constructor
  · intro h
    unfold hostForm at h
    split_ifs at h with hop hop hop hop hhigh hop hop hop
    all_goals simp only [Option.some.injEq, Decoded.instr.injEq, reduceCtorEq] at h
    · exact fields_of_bare h rfl hop rfl
    · exact fields_of_bare h rfl hop rfl
    · exact fields_of_bare h rfl hop rfl
    · subst h
      exact ⟨rfl, hop.symm, send_operand_eq_iff.mpr ⟨hhigh, rfl⟩⟩
    · exact fields_of_bare h rfl hop rfl
    · subst h
      exact ⟨rfl, hop.symm, rfl⟩
    · subst h
      exact ⟨rfl, hop.symm, rfl⟩
  · rintro ⟨hcmd, hop, hoperand⟩
    cases i with
    | send b =>
      obtain ⟨hhigh, hlow⟩ := send_operand_eq_iff.mp hoperand
      simp [hostForm, ← hop, Instr.opcode, hhigh, hlow]
    | tick | edge | rxcmp | txcmp => cases hcmd
    | init | available | sendReady | recv | alarm | delay =>
      simp [hostForm, bare, ← hop, ← hoperand, Instr.opcode, Instr.operand]

theorem decodeHost_eq_instr_iff (w : Word) (i : Instr) :
    decodeHost w = .instr i ↔ i.isHostCommand = true ∧ encode i = w := by
  rw [decodeHost, decodeForm_eq_instr_iff, hostForm_eq_instr_iff, encode_eq_iff]
  tauto

/-- The bounds that `IllegalFields` puts on an opcode leave those of the seven host commands (30_encoding.md R71). -/
theorem hostOpcode_cases {op : Byte} (h : 1#8 ≤ op ∧ op ≤ 7#8) :
    op = 1#8 ∨ op = 2#8 ∨ op = 3#8 ∨ op = 4#8 ∨ op = 5#8 ∨ op = 6#8 ∨ op = 7#8 := by
  bv_omega

theorem not_illegalFields_encode {i : Instr} (hcmd : i.isHostCommand = true) : ¬ IllegalFields (encode i) := by
  cases i with
  | send b =>
    have hhigh := (send_operand_eq_iff (w := encode (.send b)).mp (operandField_encode _).symm).1
    simp [IllegalFields, Instr.opcode, hhigh]
  | tick | edge | rxcmp | txcmp => cases hcmd
  | init | available | sendReady | recv | alarm | delay => simp [IllegalFields, Instr.opcode, Instr.operand]

theorem hostCommand_of_not_illegalFields {w : Word} (h : ¬ IllegalFields w) :
    ∃ i : Instr, i.isHostCommand = true ∧ encode i = w := by
  obtain ⟨hopcode, hrest⟩ := not_or.mp h
  obtain ⟨hreserved, hrest⟩ := not_or.mp hrest
  obtain ⟨hbare, hsend⟩ := not_or.mp hrest
  have hrsv : rsvField w = 0#8 := not_not.mp hreserved
  have command (i : Instr) (hcmd : i.isHostCommand = true) (hop : opField w = i.opcode)
      (hoperand : i.operand = operandField w) : ∃ i : Instr, i.isHostCommand = true ∧ encode i = w :=
    ⟨i, hcmd, encode_eq_iff.mpr ⟨hrsv, hop.symm, hoperand⟩⟩
  have zero (hop : opField w = 1#8 ∨ opField w = 2#8 ∨ opField w = 3#8 ∨ opField w = 5#8) : 0#16 = operandField w :=
    (not_not.mp (not_and.mp hbare hop)).symm
  obtain hop | hop | hop | hop | hop | hop | hop := hostOpcode_cases (not_not.mp hopcode)
  · exact command .init rfl hop (zero (.inl hop))
  · exact command .available rfl hop (zero (.inr (.inl hop)))
  · exact command .sendReady rfl hop (zero (.inr (.inr (.inl hop))))
  · have hhigh : operandHigh w = 0#8 := not_not.mp (not_and.mp hsend hop)
    exact command (.send (operandLow w)) rfl hop (send_operand_eq_iff.mpr ⟨hhigh, rfl⟩)
  · exact command .recv rfl hop (zero (.inr (.inr (.inr hop))))
  · exact command (.alarm (operandField w)) rfl hop rfl
  · exact command (.delay (operandField w)) rfl hop rfl

/-- The first three checks of 30_encoding.md R74, by the word's fields, reject exactly the words that no host command
has. -/
theorem decodeHost_of_illegalFields {w : Word} (h : IllegalFields w) : ∃ r, decodeHost w = .reject r := by
  cases hd : decodeHost w with
  | reject r => exact ⟨r, rfl⟩
  | instr i =>
    obtain ⟨hcmd, rfl⟩ := (decodeHost_eq_instr_iff w i).mp hd
    exact absurd h (not_illegalFields_encode hcmd)

/-! HOST's step -/

@[simp] theorem takeTurn_cfg (s : State) : s.takeTurn.2.cfg = s.cfg := by
  obtain ⟨ts, d, h⟩ := takeTurn_eq s
  rw [h]

@[simp] theorem takeTurn_initialized (s : State) : s.takeTurn.2.initialized = s.initialized := by
  obtain ⟨ts, d, h⟩ := takeTurn_eq s
  rw [h]

@[simp] theorem takeTurn_hostWait (s : State) : s.takeTurn.2.hostWait = s.hostWait := by
  obtain ⟨ts, d, h⟩ := takeTurn_eq s
  rw [h]

@[simp] theorem takeTurn_host (s : State) : s.takeTurn.2.host = s.host := by
  obtain ⟨ts, d, h⟩ := takeTurn_eq s
  rw [h]

@[simp] theorem takeHostWord_cfg (s : State) (rest : List Word) : (takeHostWord s rest).cfg = s.cfg := takeTurn_cfg s

@[simp] theorem takeHostWord_initialized (s : State) (rest : List Word) :
    (takeHostWord s rest).initialized = s.initialized := takeTurn_initialized s

/-- A word that can step, on HOST's turn, is what the machine fetches, the turn being used up. -/
theorem fetch_of_hostWordNext {s : State} {w : Word} {rest : List Word} (hnext : HostWordNext s w rest)
    (hen : s.wordEnabled w = true) : fetch s = fetchHost s.takeTurn.2 := by
  obtain ⟨hvalid, ⟨hfault, hedge, hrx, htx⟩, hwait, hhost, hturn⟩ := hnext
  have hidle : s.nextIrq = none := nextIrq_eq_none.mpr ⟨hedge, hrx, htx⟩
  have henabled : s.hostEnabled = true := by simpa [State.hostEnabled, hwait, hhost] using hen
  simp [fetch, hvalid, hfault, hidle, fetchIdle, henabled, hturn]

theorem step_of_rejected_word {s : State} {w : Word} {rest : List Word} {r : Reject} (hnext : HostWordNext s w rest)
    (hd : decodeHost w = .reject r) :
    step s = .next { takeHostWord s rest with response := none, fault := some (.illegalCommand w) } := by
  have hfetch : fetch s = .illegal w (takeHostWord s rest) := by
    rw [fetch_of_hostWordNext hnext (by simp [State.wordEnabled, hd])]
    obtain ⟨-, -, hwait, hhost, -⟩ := hnext
    simp [fetchHost, hwait, hhost, hd, takeHostWord]
  simp [step, hfetch]

theorem step_of_decoded_word {s : State} {w : Word} {rest : List Word} {i : Instr} (hnext : HostWordNext s w rest)
    (hd : decodeHost w = .instr i) (hholds : s.holds i = false) : step s = exec i (takeHostWord s rest) := by
  have hfetch : fetch s = .run i (takeHostWord s rest) := by
    rw [fetch_of_hostWordNext hnext (by simp [State.wordEnabled, hd, hholds])]
    obtain ⟨-, -, hwait, hhost, -⟩ := hnext
    simp [fetchHost, hwait, hhost, hd, takeHostWord]
  simp [step, hfetch]

/-! The commands' own checks -/

theorem opcode_eq_init_iff {i : Instr} : i.opcode = 1#8 ↔ i = .init := by
  cases i <;> simp [Instr.opcode]

theorem opcode_eq_alarm_or_delay_iff {i : Instr} :
    i.opcode = 6#8 ∨ i.opcode = 7#8 ↔ i = .alarm i.operand ∨ i = .delay i.operand := by
  cases i <;> simp [Instr.opcode, Instr.operand]

theorem holds_before_init {s : State} (hinit : s.initialized = false) (i : Instr) : s.holds i = false := by
  cases i <;> simp [State.holds, hinit]

theorem holds_of_overflow {s : State} {i : Instr} {ms : Half} (hi : i = .alarm ms ∨ i = .delay ms)
    (hover : alarmOverflows s.cfg ms = true) : s.holds i = false := by
  obtain rfl | rfl := hi <;> simp [State.holds, hover]

/-- Every host command but INIT begins with the check that INIT has run (30_encoding.md R74). -/
theorem exec_before_init {i : Instr} {s : State} (hcmd : i.isHostCommand = true) (hne : i ≠ .init)
    (hinit : s.initialized = false) :
    exec i s = .next { s with response := none, fault := some (.notInitialized i.opcode) } := by
  cases i with
  | init => exact absurd rfl hne
  | tick | edge | rxcmp | txcmp => cases hcmd
  | available | sendReady | send | recv | alarm | delay => exact needsInit_eq_next.mpr (.inr ⟨hinit, rfl⟩)

theorem exec_init_after_init {s : State} (hinit : s.initialized = true) :
    exec .init s = .next { s with response := none, fault := some .reInit } := by
  simp [exec, execInit, hinit]

/-- ALARM's and DELAY's overflow check comes before their wait (41_transmit.md R130, R131). -/
theorem exec_of_overflow {i : Instr} {s : State} {ms : Half} (hi : i = .alarm ms ∨ i = .delay ms)
    (hinit : s.initialized = true) (hover : alarmOverflows s.cfg ms = true) :
    exec i s = .next { s with response := none, fault := some (.alarmOverflow (alarmWhole s.cfg ms)) } := by
  obtain rfl | rfl := hi <;>
    exact needsInit_eq_next.mpr (.inl ⟨hinit, alarmBody_eq_next.mpr (.inl ⟨hover, rfl⟩)⟩)

/-- Settles O14: a word with illegal fields decodes to none and raises IllegalCommand; any other is the word of a host
command, whose own checks answer on the state with the word taken. A word that raises a fault does not hold. -/
theorem hostWordChecksInOrder : Obligations.HostWordChecksInOrder := by
  intro s w rest hnext s'
  by_cases hill : IllegalFields w
  · obtain ⟨r, hr⟩ := decodeHost_of_illegalFields hill
    have hstep := step_of_rejected_word hnext hr
    exact ⟨fun _ => hstep, fun h => absurd hill h, fun h => absurd hill h, fun h => absurd hill h,
      fun h => absurd hill h⟩
  obtain ⟨i, hcmd, rfl⟩ := hostCommand_of_not_illegalFields hill
  have hd : decodeHost (encode i) = .instr i := (decodeHost_eq_instr_iff _ i).mpr ⟨hcmd, rfl⟩
  have hstep : s.holds i = false → step s = exec i s' := step_of_decoded_word hnext hd
  have hcfg : s'.cfg = s.cfg := takeHostWord_cfg s rest
  have hinit : s'.initialized = s.initialized := takeHostWord_initialized s rest
  simp only [opField_encode, operandField_encode, ne_eq, opcode_eq_init_iff, opcode_eq_alarm_or_delay_iff]
  refine ⟨fun h => absurd h hill, fun _ hbefore hne => ?notInitialized, fun _ hafter heq => ?reInit,
    fun _ _ => ⟨i, hd, rfl, hstep⟩, fun _ hafter hi whole hwhole hover => ?overflow⟩
  case notInitialized =>
    rw [hstep (holds_before_init hbefore i), exec_before_init hcmd hne (hinit.trans hbefore)]
  case reInit =>
    subst heq
    rw [hstep rfl, exec_init_after_init (hinit.trans hafter)]
  case overflow =>
    subst hwhole
    have hoverflows : alarmOverflows s.cfg i.operand = true := decide_eq_true hover
    rw [hstep (holds_of_overflow hi hoverflows),
      exec_of_overflow hi (hinit.trans hafter) (hcfg.symm ▸ hoverflows), hcfg]
    rfl

end Sys2Proof.Machine
end

section
/-! TICK as one update of the state, with its exact frame (40_timer.md R103 to R105, R108). -/

namespace Sys2Proof.Machine
open Sys2Proof

/-! An event of an enabled source sets its pending flag; every other field stays -/

theorem latchIrq_edge_eq (s : State) :
    s.latchIrq .edge = { s with edgePend := s.edgePend || (s.edgeIe && s.fallingEdge) } := by
  cases h : s.edgeIe && s.fallingEdge <;>
    simp [State.latchIrq, State.enabled, State.irqEvent, State.setPending, h]

theorem latchIrq_rx_eq (s : State) :
    s.latchIrq .rx = { s with rxPend := s.rxPend || (s.rxIe && decide (s.tcnt = s.ocrRx)) } := by
  cases h : s.rxIe && decide (s.tcnt = s.ocrRx) <;>
    simp [State.latchIrq, State.enabled, State.irqEvent, State.setPending, h]

theorem latchIrq_tx_eq (s : State) :
    s.latchIrq .tx = { s with txPend := s.txPend || (s.txIe && decide (s.tcnt = s.ocrTx)) } := by
  cases h : s.txIe && decide (s.tcnt = s.ocrTx) <;>
    simp [State.latchIrq, State.enabled, State.irqEvent, State.setPending, h]

/-- The three latches read the counter's new value and no flag that another of them writes. -/
theorem runTimer_eq (s : State) :
    s.runTimer = { s with
      tcnt := (s.tcnt + 1) % s.period,
      edgePend := s.edgePend || (s.edgeIe && s.fallingEdge),
      rxPend := s.rxPend || (s.rxIe && decide ((s.tcnt + 1) % s.period = s.ocrRx)),
      txPend := s.txPend || (s.txIe && decide ((s.tcnt + 1) % s.period = s.ocrTx)) } := by
  rw [State.runTimer, latchIrq_edge_eq, latchIrq_rx_eq, latchIrq_tx_eq]
  rfl

theorem fallingEdge_sampleLine (s : State) (line : Bit) :
    (s.sampleLine line).fallingEdge = decide (s.rxCur = 1#1 ∧ line = 0#1) :=
  (Bool.decide_and ..).symm

theorem exec_tick_before_init {s : State} (hinit : s.initialized = false) (line : Bit) :
    exec (.tick line) s = .next (s.sampleLine line) := by
  simp [exec, execTick, hinit]

theorem exec_tick_after_init {s : State} (hinit : s.initialized = true) (line : Bit) :
    exec (.tick line) s = .next (s.sampleLine line).runTimer := by
  simp [exec, execTick, hinit]

/-- Settles O15: before INIT a TICK only samples the line; after it, the timer runs on the sampled state
(`runTimer_eq`), whose falling edge is that of the old sample and the new line value. -/
theorem tickMovesSamplesCounterAndPendingFlags : Obligations.TickMovesSamplesCounterAndPendingFlags := by
  intro line s
  constructor
  · exact fun hinit => exec_tick_before_init hinit line
  · intro hinit
    rw [exec_tick_after_init hinit, runTimer_eq, fallingEdge_sampleLine]
    rfl

end Sys2Proof.Machine
end

section
/-! The transmit engine: the TX compare handler in each of its states, and what SEND, SEND_READY, ALARM and DELAY
answer (41_transmit.md R121 to R131). -/

namespace Sys2Proof.Machine
open Sys2Proof

/-! TXCMP clears its pending flag and runs the rule of the transmit state (41_transmit.md R121) -/

theorem exec_txcmp (s : State) : exec .txcmp s = txHandler (s.clearPending .tx) := rfl

theorem exec_txcmp_of_idle {s : State} (h : s.txState = .idle) : exec .txcmp s = txIdle (s.clearPending .tx) := by
  simp [exec_txcmp, txHandler, h]

theorem exec_txcmp_of_startBit {s : State} (h : s.txState = .startBit) :
    exec .txcmp s = txStartBit (s.clearPending .tx) := by
  simp [exec_txcmp, txHandler, h]

theorem exec_txcmp_of_dataBits {s : State} (h : s.txState = .dataBits) :
    exec .txcmp s = txDataBits (s.clearPending .tx) := by
  simp [exec_txcmp, txHandler, h]

theorem exec_txcmp_of_stopBit {s : State} (h : s.txState = .stopBit) :
    exec .txcmp s = txStopBit (s.clearPending .tx) := by
  simp [exec_txcmp, txHandler, h]

theorem exec_txcmp_of_returnIdle {s : State} (h : s.txState = .returnIdle) :
    exec .txcmp s = txReturnIdle (s.clearPending .tx) := by
  simp [exec_txcmp, txHandler, h]

theorem exec_txcmp_of_timedDelay {s : State} (h : s.txState = .timedDelay) :
    exec .txcmp s = txTimedDelay (s.clearPending .tx) := by
  simp [exec_txcmp, txHandler, h]

/-- Settles O18: each rule outside the data bits is one update of the state with its flag cleared. -/
theorem txcmpOutsideTheDataBits : Obligations.TxcmpOutsideTheDataBits :=
  fun _ => ⟨exec_txcmp_of_idle, exec_txcmp_of_startBit, exec_txcmp_of_stopBit, exec_txcmp_of_returnIdle⟩

theorem txDataBits_of_zero {s : State} (h : s.sendBits = 0#4) :
    txDataBits s = .next { s with fault := some (.unreachable .txDataBitsZero) } := by
  simp [txDataBits, h]

/-- The count that is left is 0 exactly after the last bit, which was entered with a count of 1. -/
theorem txDataBits_of_ne_zero {s : State} (h : s.sendBits ≠ 0#4) :
    txDataBits s = .next { s.shiftOutBit with txState := if s.sendBits = 1#4 then .stopBit else s.txState } := by
  have hlast : s.sendBits - 1#4 = 0#4 ↔ s.sendBits = 1#4 := sub_eq_zero
  by_cases hone : s.sendBits = 1#4
  · simp [txDataBits, hone]
  · simp [txDataBits, h, hlast, hone, State.shiftOutBit]

/-- Settles O19: a bit counter of 0 is the fault, any other is shifted out (`txDataBits_of_ne_zero`). -/
theorem txcmpSendsOneDataBit : Obligations.TxcmpSendsOneDataBit := by
  intro s hst
  rw [exec_txcmp_of_dataBits hst]
  constructor
  · exact txDataBits_of_zero (s := s.clearPending .tx)
  · intro hbits
    rw [txDataBits_of_ne_zero (s := s.clearPending .tx) hbits, State.clearPending_txState, hst]
    rfl

theorem txTimedDelay_of_zero {s : State} (h : s.delay = 0) : txTimedDelay s = .next s.freeSender := by
  simp [txTimedDelay, h]

theorem txTimedDelay_of_ne_zero {s : State} (h : s.delay ≠ 0) :
    txTimedDelay s = .next { s with delay := s.delay - 1 } := by
  simp [txTimedDelay, h]

/-- Settles O20: `delay` is tested first, so it is decremented only from above 0. -/
theorem txcmpCountsTheDelay : Obligations.TxcmpCountsTheDelay := by
  intro s hst
  rw [exec_txcmp_of_timedDelay hst]
  exact ⟨txTimedDelay_of_zero (s := s.clearPending .tx), txTimedDelay_of_ne_zero (s := s.clearPending .tx)⟩

/-! The host commands of the transmit engine -/

/-- A command that needs INIT runs its own rule once INIT has run (30_encoding.md R74). -/
theorem needsInit_of_initialized {s : State} (hinit : s.initialized = true) (i : Instr) (k : Answer) :
    needsInit i s k = k := by
  simp [needsInit, hinit]

theorem exec_send_of_ready {s : State} (hinit : s.initialized = true) (hready : s.sendReady = true) (b : Byte) :
    exec (.send b) s = .next (s.armFrame b).respondNothing := by
  simp [exec, execSend, needsInit_of_initialized hinit, hready]

theorem exec_send_of_not_ready {s : State} (hinit : s.initialized = true) (hbusy : s.sendReady = false) (b : Byte) :
    exec (.send b) s = .next s := by
  simp [exec, execSend, needsInit_of_initialized hinit, hbusy]

theorem holds_send_after_init {s : State} (hinit : s.initialized = true) (b : Byte) :
    s.holds (.send b) = !s.sendReady := by
  simp [State.holds, hinit]

/-- Settles O21: SEND's checks in their order; the hold leaves the state as it is (notes/assumptions/11.md), and neither
the fault nor the effect gives a response (notes/assumptions/15.md). -/
theorem sendArmsTheFrame : Obligations.SendArmsTheFrame := by
  intro b s
  refine ⟨?word, exec_before_init rfl nofun, fun hinit hbusy => ⟨?holds, exec_send_of_not_ready hinit hbusy b⟩,
    fun hinit hready => ⟨?goes, exec_send_of_ready hinit hready b⟩⟩
  case word => simp [encode, Instr.opcode, Instr.operand]
  case holds => rw [holds_send_after_init hinit, hbusy, Bool.not_false]
  case goes => rw [holds_send_after_init hinit, hready, Bool.not_true]

/-- Settles O22: SEND_READY has the INIT check only, and answers the flag; the fault gives no response
(notes/assumptions/15.md). -/
theorem sendReadyResponds : Obligations.SendReadyResponds := by
  refine ⟨by decide, fun s => ⟨rfl, exec_before_init rfl nofun, fun hinit => ?_⟩⟩
  exact needsInit_of_initialized hinit .sendReady (.next (s.respond (zextFlag s.sendReady)))

/-! ALARM and DELAY share their checks and their wait (41_transmit.md R130, R131); only what an armed delay does to the
host differs -/

theorem alarmOverflows_of_le {c : Params} {ms : Half} (h : 2 ^ c.delayWidth ≤ ticksOfMs c ms.toNat / c.bitPeriod) :
    alarmOverflows c ms = true :=
  decide_eq_true h

theorem not_alarmOverflows_of_lt {c : Params} {ms : Half}
    (h : ticksOfMs c ms.toNat / c.bitPeriod < 2 ^ c.delayWidth) : alarmOverflows c ms = false :=
  decide_eq_false (Nat.not_le_of_lt h)

theorem holds_of_fitting_delay {s : State} {i : Instr} {ms : Half} (hi : i = .alarm ms ∨ i = .delay ms)
    (hinit : s.initialized = true) (hfits : alarmOverflows s.cfg ms = false) : s.holds i = !s.sendReady := by
  obtain rfl | rfl := hi <;> simp [State.holds, hinit, hfits]

theorem exec_alarm_after_init {s : State} (hinit : s.initialized = true) (ms : Half) :
    exec (.alarm ms) s = alarmBody ms s id :=
  needsInit_of_initialized hinit _ _

theorem exec_delay_after_init {s : State} (hinit : s.initialized = true) (ms : Half) :
    exec (.delay ms) s = alarmBody ms s State.enterDelay :=
  needsInit_of_initialized hinit _ _

theorem alarmBody_of_ready {s : State} {ms : Half} (hfits : alarmOverflows s.cfg ms = false)
    (hready : s.sendReady = true) (after : State → State) :
    alarmBody ms s after = .next (after (s.armAlarm ms).respondNothing) :=
  alarmBody_eq_next.mpr (.inr (.inl ⟨hfits, hready, rfl⟩))

theorem alarmBody_of_not_ready {s : State} {ms : Half} (hfits : alarmOverflows s.cfg ms = false)
    (hbusy : s.sendReady = false) (after : State → State) : alarmBody ms s after = .next s :=
  alarmBody_eq_next.mpr (.inr (.inr ⟨hfits, hbusy, rfl⟩))

/-- The overflow is checked before the wait, so a delay that does not fit never holds. -/
theorem delay_overflows {s : State} {i : Instr} {ms : Half} (hi : i = .alarm ms ∨ i = .delay ms)
    (hinit : s.initialized = true) (hover : alarmOverflows s.cfg ms = true) :
    s.holds i = false ∧
    exec i s = .next { s with response := none, fault := some (.alarmOverflow (alarmWhole s.cfg ms)) } :=
  ⟨holds_of_overflow hi hover, exec_of_overflow hi hinit hover⟩

/-- A delay that fits, asked for while the engine is busy, waits and leaves the state as it is
(60_exceptions.md R204, notes/assumptions/11.md). -/
theorem delay_waits {s : State} {i : Instr} {ms : Half} (hi : i = .alarm ms ∨ i = .delay ms)
    (hinit : s.initialized = true) (hfits : alarmOverflows s.cfg ms = false) (hbusy : s.sendReady = false) :
    s.holds i = true ∧ exec i s = .next s := by
  constructor
  · rw [holds_of_fitting_delay hi hinit hfits, hbusy, Bool.not_false]
  obtain rfl | rfl := hi
  · rw [exec_alarm_after_init hinit, alarmBody_of_not_ready hfits hbusy]
  · rw [exec_delay_after_init hinit, alarmBody_of_not_ready hfits hbusy]

theorem alarm_arms {s : State} {ms : Half} (hinit : s.initialized = true)
    (hfits : alarmOverflows s.cfg ms = false) (hready : s.sendReady = true) :
    s.holds (.alarm ms) = false ∧ exec (.alarm ms) s = .next (s.armAlarm ms).respondNothing := by
  constructor
  · rw [holds_of_fitting_delay (.inl rfl) hinit hfits, hready, Bool.not_true]
  · rw [exec_alarm_after_init hinit, alarmBody_of_ready hfits hready, id]

theorem delay_arms {s : State} {ms : Half} (hinit : s.initialized = true)
    (hfits : alarmOverflows s.cfg ms = false) (hready : s.sendReady = true) :
    s.holds (.delay ms) = false ∧ exec (.delay ms) s = .next (s.armAlarm ms).respondNothing.enterDelay := by
  constructor
  · rw [holds_of_fitting_delay (.inr rfl) hinit hfits, hready, Bool.not_true]
  · rw [exec_delay_after_init hinit, alarmBody_of_ready hfits hready]

/-- Settles O23: ALARM's checks in their order, the overflow before the wait; only a delay that fits is armed, on an
idle engine. -/
theorem alarmArmsTheDelay : Obligations.AlarmArmsTheDelay := by
  rintro ms s D rfl
  refine ⟨?word, exec_before_init rfl nofun,
    fun hinit hover => delay_overflows (.inl rfl) hinit (alarmOverflows_of_le hover),
    fun hinit hlt hbusy => delay_waits (.inl rfl) hinit (not_alarmOverflows_of_lt hlt) hbusy,
    fun hinit hlt hready => alarm_arms hinit (not_alarmOverflows_of_lt hlt) hready⟩
  case word => simp [encode, Instr.opcode, Instr.operand]

/-- Settles O24: DELAY goes through ALARM's checks and ALARM's arming, and is then inside DELAY. -/
theorem delayArmsAndWaits : Obligations.DelayArmsAndWaits := by
  rintro ms s D rfl
  refine ⟨?word, exec_before_init rfl nofun,
    fun hinit hover => delay_overflows (.inr rfl) hinit (alarmOverflows_of_le hover),
    fun hinit hlt hbusy => delay_waits (.inr rfl) hinit (not_alarmOverflows_of_lt hlt) hbusy,
    fun hinit hlt hready => delay_arms hinit (not_alarmOverflows_of_lt hlt) hready⟩
  case word => simp [encode, Instr.opcode, Instr.operand]

end Sys2Proof.Machine
end

section
/-! The receive engine: the start-edge handler, the RX compare handler in each of its states, and what AVAILABLE and
RECV answer (42_receive.md R150 to R164). -/

namespace Sys2Proof.Machine
open Sys2Proof

/-- Settles O30: EDGE has one case (`execEdge_eq`), and disabling the edge clears a flag that is cleared already. -/
theorem edgeArmsTheReceiver : Obligations.EdgeArmsTheReceiver :=
  ⟨by decide, execEdge_eq⟩

/-! RXCMP clears its pending flag and runs the rule of the receive state (42_receive.md R152) -/

theorem exec_rxcmp (s : State) : exec .rxcmp s = rxHandler (s.clearPending .rx) := rfl

theorem exec_rxcmp_of_start {s : State} (h : s.rxState = .waitStart ∨ s.rxState = .startBit) :
    exec .rxcmp s = rxStart (s.clearPending .rx) := by
  obtain h | h := h <;> simp [exec_rxcmp, rxHandler, h]

theorem exec_rxcmp_of_dataBits {s : State} (h : s.rxState = .dataBits) :
    exec .rxcmp s = rxDataBits s.rxCur (s.clearPending .rx) := by
  simp [exec_rxcmp, rxHandler, h]

theorem exec_rxcmp_of_waitStopHigh {s : State} (h : s.rxState = .waitStopHigh) :
    exec .rxcmp s = rxWaitStopHigh s.rxCur (s.clearPending .rx) := by
  simp [exec_rxcmp, rxHandler, h]

theorem rxDataBits_of_zero {s : State} (h : s.recvBits = 0#4) (sample : Bit) :
    rxDataBits sample s = .next { s with fault := some (.unreachable .rxDataBitsZero) } :=
  if_pos h

/-- The count that is left is 0 exactly after the last bit, which was entered with a count of 1. -/
theorem rxDataBits_of_ne_zero {s : State} (h : s.recvBits ≠ 0#4) (sample : Bit) :
    rxDataBits sample s =
      .next { s.shiftInBit sample with rxState := if s.recvBits = 1#4 then .waitStopHigh else s.rxState } := by
  have hlast : s.recvBits - 1#4 = 0#4 ↔ s.recvBits = 1#4 := sub_eq_zero
  by_cases hone : s.recvBits = 1#4
  · simp [rxDataBits, hone]
  · simp [rxDataBits, h, hlast, hone, State.shiftInBit]

/-- Settles O31: in DataBits a bit counter of 0 is the fault, with any other the sample is shifted in
(`rxDataBits_of_ne_zero`). -/
theorem rxcmpTakesStartAndDataBits : Obligations.RxcmpTakesStartAndDataBits := by
  refine fun s => ⟨exec_rxcmp_of_start, fun hst hbits => ?zero, fun hst hbits => ?shift⟩
  case zero =>
    rw [exec_rxcmp_of_dataBits hst]
    exact rxDataBits_of_zero (s := s.clearPending .rx) hbits s.rxCur
  case shift =>
    rw [exec_rxcmp_of_dataBits hst, rxDataBits_of_ne_zero (s := s.clearPending .rx) hbits,
      State.clearPending_rxState, hst]
    rfl

/-! The stop bit and the commit (42_receive.md R155 to R162) -/

theorem rxWaitStopHigh_of_low (s : State) : rxWaitStopHigh 0#1 s = .next s := rfl

theorem rxWaitStopHigh_of_high (s : State) :
    rxWaitStopHigh 1#1 s = andThen (commit s.recvShift s) (fun u => .next u.awaitEdge) := rfl

theorem commit_of_unbuffered {s : State} (hmode : s.cfg.rxMode = .unbuffered) (v : Byte) :
    commit v s = .next (s.slotPut v) := by
  simp [commit, hmode]

theorem commit_of_buffered {s : State} (hmode : s.cfg.rxMode = .buffered) (hslot : s.rxHead < s.cfg.rxBufSlots)
    (v : Byte) : commit v s = .next (s.bufPush v) := by
  simp [commit, hmode, atSlot, hslot]

/-- A push writes the slot at the head and moves the head, and the tail with it when the two meet (20_memory.md R53). -/
theorem bufPush_eq (s : State) (v : Byte) :
    s.bufPush v = { s with
      rxBuf := s.rxBuf.write s.rxHead v, rxHead := s.nextSlot s.rxHead,
      rxTail := if s.nextSlot s.rxHead = s.rxTail then s.nextSlot s.rxTail else s.rxTail } := by
  by_cases hmeet : s.nextSlot s.rxHead = s.rxTail
  · rw [if_pos hmeet]
    exact if_pos hmeet
  · rw [if_neg hmeet]
    exact if_neg hmeet

theorem exec_rxcmp_of_low_stop {s : State} (hst : s.rxState = .waitStopHigh) (hlow : s.rxCur = 0#1) :
    exec .rxcmp s = .next (s.clearPending .rx) := by
  rw [exec_rxcmp_of_waitStopHigh hst, hlow, rxWaitStopHigh_of_low]

/-- On a high stop sample the receiver awaits the next edge in the state the commit leaves. -/
theorem exec_rxcmp_of_high_stop {s u : State} (hst : s.rxState = .waitStopHigh) (hhigh : s.rxCur = 1#1)
    (hcommit : commit s.recvShift (s.clearPending .rx) = .next u) : exec .rxcmp s = .next u.awaitEdge := by
  rw [exec_rxcmp_of_waitStopHigh hst, hhigh, rxWaitStopHigh_of_high, State.clearPending_recvShift, hcommit,
    andThen_next]

/-- Settles O32: the commit is a put into the single slot, or a push (`bufPush_eq`) whose write is to the slot at the
head. -/
theorem rxcmpTakesTheStopBit : Obligations.RxcmpTakesTheStopBit := by
  rintro s N rfl hst
  refine ⟨exec_rxcmp_of_low_stop hst, fun hhigh hmode => ?unbuffered, fun hhigh hmode hslot => ?buffered⟩
  case unbuffered =>
    exact exec_rxcmp_of_high_stop hst hhigh (commit_of_unbuffered (s := s.clearPending .rx) hmode s.recvShift)
  case buffered =>
    refine ⟨s.rxBuf.write s.rxHead s.recvShift, ?_, memory_read_write_same _ _ _,
      fun a ha => memory_read_write_other _ _ _ _ ha⟩
    rw [exec_rxcmp_of_high_stop hst hhigh (commit_of_buffered (s := s.clearPending .rx) hmode hslot s.recvShift),
      bufPush_eq]
    rfl

/-! AVAILABLE and RECV (42_receive.md R163, R164) -/

theorem exec_available_after_init {s : State} (hinit : s.initialized = true) :
    exec .available s = .next (s.respond (zextCount s.availableCount)) :=
  needsInit_of_initialized hinit _ _

theorem availableCount_of_unbuffered {s : State} (hmode : s.cfg.rxMode = .unbuffered) :
    s.availableCount = if s.available then 1 else 0 := by
  simp [State.availableCount, hmode]

theorem availableCount_of_buffered {s : State} (hmode : s.cfg.rxMode = .buffered) : s.availableCount = s.queued := by
  simp [State.availableCount, hmode]

theorem zextCount_of_lt {n : Nat} (h : n < 65536) : zextCount n = BitVec.ofNat 16 n := if_pos h

/-- The flag as a count is 0 or 1, so it fits the response. -/
theorem zextCount_flag (b : Bool) : zextCount (if b then 1 else 0) = if b then 1#16 else 0#16 := by
  cases b <;> rfl

/-- Settles O36: AVAILABLE has the INIT check only, and answers the flag or the count; the fault gives no response
(notes/assumptions/15.md). -/
theorem availableReportsTheCount : Obligations.AvailableReportsTheCount := by
  refine ⟨by decide, fun s => ⟨rfl, exec_before_init rfl nofun, fun hinit hmode => ?unbuffered,
    fun hinit hmode hfits => ?buffered⟩⟩
  case unbuffered =>
    rw [exec_available_after_init hinit, availableCount_of_unbuffered hmode, zextCount_flag]
    rfl
  case buffered =>
    rw [exec_available_after_init hinit, availableCount_of_buffered hmode, zextCount_of_lt hfits]
    rfl

theorem receiveEmpty_of_unbuffered {s : State} (hmode : s.cfg.rxMode = .unbuffered) :
    s.receiveEmpty = !s.available := by
  simp [State.receiveEmpty, hmode]

theorem receiveEmpty_of_buffered {s : State} (hmode : s.cfg.rxMode = .buffered) :
    s.receiveEmpty = decide (s.rxHead = s.rxTail) := by
  simp [State.receiveEmpty, hmode]

theorem takeByte_of_unbuffered {s : State} (hmode : s.cfg.rxMode = .unbuffered) :
    takeByte s = respondByte s.slotTake := by
  simp [takeByte, hmode]

theorem takeByte_of_buffered {s : State} (hmode : s.cfg.rxMode = .buffered) (hslot : s.rxTail < s.cfg.rxBufSlots) :
    takeByte s = respondByte s.bufPop := by
  simp [takeByte, hmode, atSlot, hslot]

/-- With no byte RECV waits and leaves the state as it is (60_exceptions.md R204, notes/assumptions/11.md). -/
theorem recv_waits {s : State} (hinit : s.initialized = true) (hempty : s.receiveEmpty = true) :
    s.holds .recv = true ∧ exec .recv s = .next s := by
  constructor
  · simp [State.holds, hinit, hempty]
  · simp [exec, execRecv, needsInit_of_initialized hinit, hempty, hold]

theorem recv_takes {s : State} {a : Answer} (hinit : s.initialized = true) (hbyte : s.receiveEmpty = false)
    (htake : takeByte s = a) : s.holds .recv = false ∧ exec .recv s = a := by
  constructor
  · simp [State.holds, hbyte]
  · simp [exec, execRecv, needsInit_of_initialized hinit, hbyte, htake]

/-- Settles O38: RECV waits exactly where its mode's buffer is empty, and else answers the byte its mode takes; the
fault gives no response (notes/assumptions/15.md). -/
theorem recvTakesOneByte : Obligations.RecvTakesOneByte := by
  refine ⟨by decide, ?_⟩
  rintro s N rfl
  exact ⟨exec_before_init rfl nofun,
    fun hinit hmode hnone => recv_waits hinit (by rw [receiveEmpty_of_unbuffered hmode, hnone, Bool.not_false]),
    fun hinit hmode hone => recv_takes hinit (by rw [receiveEmpty_of_unbuffered hmode, hone, Bool.not_true])
      (takeByte_of_unbuffered hmode),
    fun hinit hmode hmeet => recv_waits hinit (by rw [receiveEmpty_of_buffered hmode, decide_eq_true hmeet]),
    fun hinit hmode hapart hslot => recv_takes hinit (by rw [receiveEmpty_of_buffered hmode, decide_eq_false hapart])
      (takeByte_of_buffered hmode hslot)⟩

end Sys2Proof.Machine
end

section
/-! The interrupt sources: what an instruction does to one source's enable and pending flag (60_exceptions.md R201,
R207). -/

namespace Sys2Proof.Machine
open Sys2Proof

/-- The source's pending flag stays, and its enable stays or is written 1. -/
def KeepsIrq (src : IrqSource) (s t : State) : Prop :=
  t.pending src = s.pending src ∧ (s.enabled src = true → t.enabled src = true)

/-! What TICK does to a source (40_timer.md R103) -/

theorem sampleLine_pending (s : State) (line : Bit) (src : IrqSource) :
    (s.sampleLine line).pending src = s.pending src := rfl

theorem sampleLine_enabled (s : State) (line : Bit) (src : IrqSource) :
    (s.sampleLine line).enabled src = s.enabled src := rfl

theorem runTimer_pending (s : State) (src : IrqSource) :
    s.runTimer.pending src = (s.pending src || (s.enabled src && s.countUp.irqEvent src)) := by
  rw [runTimer_eq]
  cases src <;> rfl

theorem runTimer_enabled (s : State) (src : IrqSource) : s.runTimer.enabled src = s.enabled src := by
  rw [runTimer_eq]
  rfl

/-- The event of each source at a TICK, from the state before it (40_timer.md R105, R108). -/
theorem tick_irqEvent (s : State) (line : Bit) :
    ((s.sampleLine line).countUp.irqEvent .edge = true ↔ s.rxCur = 1#1 ∧ line = 0#1) ∧
    ((s.sampleLine line).countUp.irqEvent .rx = true ↔ (s.tcnt + 1) % s.period = s.ocrRx) ∧
    ((s.sampleLine line).countUp.irqEvent .tx = true ↔ (s.tcnt + 1) % s.period = s.ocrTx) := by
  refine ⟨?_, decide_eq_true_iff, decide_eq_true_iff⟩
  exact (Bool.eq_iff_iff.mp (fallingEdge_sampleLine s line)).trans decide_eq_true_iff

/-! What the other instructions do to a source -/

/-- Taking the transmit engine writes 1 to the TX channel's enable. -/
theorem takeSender_keepsIrq (s : State) (st : TxState) (src : IrqSource) : KeepsIrq src s (s.takeSender st) := by
  cases src with
  | edge => exact ⟨rfl, id⟩
  | rx => exact ⟨rfl, id⟩
  | tx => exact ⟨rfl, fun _ => rfl⟩

/-- SEND, ALARM and DELAY enable the TX channel; no host command but INIT writes another enable or a pending flag. -/
theorem hostCommand_keepsIrq {i : Instr} {s t : State} (h : exec i s = .next t) (hcmd : i.isHostCommand = true)
    (hne : i ≠ .init) (src : IrqSource) : KeepsIrq src s t := by
  cases i with
  | init => exact absurd rfl hne
  | available => obtain ⟨-, rfl⟩ | ⟨-, rfl⟩ := execAvailable_cases h <;> exact ⟨rfl, id⟩
  | sendReady => obtain ⟨-, rfl⟩ | ⟨-, rfl⟩ := execSendReady_cases h <;> exact ⟨rfl, id⟩
  | send b =>
    obtain ⟨-, -, rfl⟩ | ⟨-, -, rfl⟩ | ⟨-, rfl⟩ := execSend_cases h
    · exact takeSender_keepsIrq { s with ocrTx := _, sendByte := _ } .startBit src
    all_goals exact ⟨rfl, id⟩
  | recv =>
    obtain ⟨-, -, rfl⟩ | ⟨-, -, -, rfl⟩ | ⟨-, -, -, -, rfl⟩ | ⟨-, rfl⟩ := execRecv_cases h <;> exact ⟨rfl, id⟩
  | alarm ms =>
    obtain ⟨-, -, rfl⟩ | ⟨-, -, -, rfl⟩ | ⟨-, -, -, rfl⟩ | ⟨-, rfl⟩ := execAlarm_cases h
    case inr.inl => exact takeSender_keepsIrq { s with ocrTx := _, delay := _ } .timedDelay src
    all_goals exact ⟨rfl, id⟩
  | delay ms =>
    obtain ⟨-, -, rfl⟩ | ⟨-, -, -, rfl⟩ | ⟨-, -, -, rfl⟩ | ⟨-, rfl⟩ := execDelay_cases h
    case inr.inl => exact takeSender_keepsIrq { s with ocrTx := _, delay := _ } .timedDelay src
    all_goals exact ⟨rfl, id⟩
  | tick _ | edge | rxcmp | txcmp => cases hcmd

/-- INIT faults and writes no flag, or clears every pending flag (70_reset_and_hazards.md R231). -/
theorem init_irq {s t : State} (h : exec .init s = .next t) (src : IrqSource) :
    KeepsIrq src s t ∨ t.pending src = false := by
  obtain ⟨-, rfl⟩ | ⟨-, rfl⟩ := execInit_cases h
  · exact .inl ⟨rfl, id⟩
  · right
    cases src <;> simp [State.pending]

/-- EDGE disables its own source and enables the RX channel. -/
theorem edge_irq {s t : State} (h : exec .edge s = .next t) :
    t.edgePend = false ∧ KeepsIrq .rx s t ∧ KeepsIrq .tx s t := by
  obtain rfl := Host.Outcome.next.inj ((execEdge_eq s).symm.trans h)
  exact ⟨rfl, ⟨rfl, fun _ => rfl⟩, ⟨rfl, id⟩⟩

/-- RXCMP clears its own flag and, after a commit, enables the start edge. -/
theorem rxcmp_irq {s t : State} (h : exec .rxcmp s = .next t) :
    t.rxPend = false ∧ KeepsIrq .edge s t ∧ KeepsIrq .tx s t := by
  obtain ⟨-, rfl⟩ | ⟨-, -, rfl⟩ | ⟨-, -, -, rfl⟩ | ⟨-, -, -, rfl⟩ | ⟨-, -, rfl⟩ | ⟨-, -, -, rfl⟩ |
    ⟨-, -, -, -, rfl⟩ := execRxcmp_cases h <;> simp [KeepsIrq, State.pending, State.enabled]

/-- TXCMP clears its own flag and writes no enable but its own. -/
theorem txcmp_irq {s t : State} (h : exec .txcmp s = .next t) :
    t.txPend = false ∧ KeepsIrq .edge s t ∧ KeepsIrq .rx s t := by
  obtain ⟨-, rfl⟩ | ⟨-, rfl⟩ | ⟨-, -, rfl⟩ | ⟨-, -, -, rfl⟩ | ⟨-, -, -, rfl⟩ | ⟨-, rfl⟩ | ⟨-, rfl⟩ |
    ⟨-, -, rfl⟩ := execTxcmp_cases h <;> simp [KeepsIrq, State.pending, State.enabled]

/-- Everything an instruction can do to one source: leave its flag and not disable it, clear its flag as its handler or
as INIT, or latch its event as TICK. -/
theorem exec_irq_cases {i : Instr} {s t : State} (src : IrqSource) (h : exec i s = .next t) :
    KeepsIrq src s t ∨
    (t.pending src = false ∧ (i = src.handler ∨ i = .init)) ∨
    (∃ line, i = .tick line ∧ t.enabled src = s.enabled src ∧
      t.pending src = (s.pending src || (s.enabled src && (s.sampleLine line).countUp.irqEvent src))) := by
  cases i with
  | init => exact (init_irq h src).imp_right fun hclear => .inl ⟨hclear, .inr rfl⟩
  | tick line =>
    obtain ⟨-, rfl⟩ | ⟨-, rfl⟩ := execTick_cases h
    · exact .inr (.inr ⟨line, rfl, runTimer_enabled _ src, runTimer_pending _ src⟩)
    · exact .inl ⟨rfl, id⟩
  | edge =>
    obtain ⟨hclear, hrx, htx⟩ := edge_irq h
    cases src with
    | edge => exact .inr (.inl ⟨hclear, .inl rfl⟩)
    | rx => exact .inl hrx
    | tx => exact .inl htx
  | rxcmp =>
    obtain ⟨hclear, hedge, htx⟩ := rxcmp_irq h
    cases src with
    | edge => exact .inl hedge
    | rx => exact .inr (.inl ⟨hclear, .inl rfl⟩)
    | tx => exact .inl htx
  | txcmp =>
    obtain ⟨hclear, hedge, hrx⟩ := txcmp_irq h
    cases src with
    | edge => exact .inl hedge
    | rx => exact .inl hrx
    | tx => exact .inr (.inl ⟨hclear, .inl rfl⟩)
  | available | sendReady | send _ | recv | alarm _ | delay _ => exact .inl (hostCommand_keepsIrq h rfl nofun src)

/-- A flag that becomes 1 is TICK's latch of an enabled source's event: the other cases keep it or clear it. -/
theorem tick_of_pending_set {i : Instr} {s t : State} {src : IrqSource} (h : exec i s = .next t)
    (hs : s.pending src = false) (ht : t.pending src = true) : (∃ line, i = .tick line) ∧ s.enabled src = true := by
  obtain ⟨hkeep, -⟩ | ⟨hclear, -⟩ | ⟨line, rfl, -, hlatch⟩ := exec_irq_cases src h
  · simp [hkeep, hs] at ht
  · simp [hclear] at ht
  · rw [hlatch, hs, Bool.false_or, Bool.and_eq_true] at ht
    exact ⟨⟨line, rfl⟩, ht.1⟩

/-- A flag that becomes 0 is cleared by the source's handler or by INIT: TICK's latch keeps a flag that is set. -/
theorem handler_or_init_of_pending_cleared {i : Instr} {s t : State} {src : IrqSource} (h : exec i s = .next t)
    (hs : s.pending src = true) (ht : t.pending src = false) : i = src.handler ∨ i = .init := by
  obtain ⟨hkeep, -⟩ | ⟨-, hi⟩ | ⟨line, -, -, hlatch⟩ := exec_irq_cases src h
  · simp [hkeep, hs] at ht
  · exact hi
  · simp [hlatch, hs] at ht

/-- An instruction that takes an enable away is one that clears the flag: the other cases keep the enable. -/
theorem not_pending_of_disabled {i : Instr} {s t : State} {src : IrqSource} (h : exec i s = .next t)
    (hs : s.enabled src = true) (ht : t.enabled src = false) : t.pending src = false := by
  obtain ⟨-, hkeep⟩ | ⟨hclear, -⟩ | ⟨line, -, hsame, -⟩ := exec_irq_cases src h
  · simp [hkeep hs] at ht
  · exact hclear
  · simp [hsame, hs] at ht

/-- Settles O45, from what an instruction can do to a source (`exec_irq_cases`). -/
theorem pendingFlagsAreSetByTickOnly : Obligations.PendingFlagsAreSetByTickOnly :=
  fun _ _ _ _ h => ⟨tick_of_pending_set h, handler_or_init_of_pending_cleared h⟩

/-- Settles O47: an instruction that enables a source found it disabled, so it did not set the flag
(`tick_of_pending_set`); and TICK's latch of an enabled source that is not pending is the event itself. -/
theorem disablingASourceClearsItsPendingFlag : Obligations.DisablingASourceClearsItsPendingFlag := by
  refine ⟨fun i s t src h => ⟨not_pending_of_disabled h, fun hoff _ ht => ?_⟩, fun line s src hinit hen hpend => ?_⟩
  · by_contra hs
    obtain ⟨-, hon⟩ := tick_of_pending_set h (Bool.eq_false_of_not_eq_true hs) ht
    simp [hoff] at hon
  · refine ⟨_, exec_tick_after_init hinit line, ?_⟩
    rw [runTimer_pending, sampleLine_pending, sampleLine_enabled, hpend, hen, Bool.false_or, Bool.true_and]
    obtain ⟨hedge, hrx, htx⟩ := tick_irqEvent s line
    cases src with
    | edge => exact hedge
    | rx => exact hrx
    | tx => exact htx

end Sys2Proof.Machine
end

section
/-! Faults: a recorded fault ends the run, and no instruction clears it (60_exceptions.md R211). -/

namespace Sys2Proof.Machine
open Sys2Proof

theorem step_of_recorded_fault {s : State} {k : FaultKind} (hvalid : s.cfg.valid = true) (hfault : s.fault = some k) :
    step s = .fault (.recorded k) := by
  simp [step, fetch, hvalid, hfault]

/-- An instruction leaves the fault record as it is or raises a fault. -/
theorem exec_fault {i : Instr} {s t : State} (h : exec i s = .next t) : t.fault = s.fault ∨ ∃ k, t.fault = some k := by
  cases i with
  | init => obtain ⟨-, rfl⟩ | ⟨-, rfl⟩ := execInit_cases h <;> simp
  | available => obtain ⟨-, rfl⟩ | ⟨-, rfl⟩ := execAvailable_cases h <;> simp
  | sendReady => obtain ⟨-, rfl⟩ | ⟨-, rfl⟩ := execSendReady_cases h <;> simp
  | send b => obtain ⟨-, -, rfl⟩ | ⟨-, -, rfl⟩ | ⟨-, rfl⟩ := execSend_cases h <;> simp
  | recv =>
    obtain ⟨-, -, rfl⟩ | ⟨-, -, -, rfl⟩ | ⟨-, -, -, -, rfl⟩ | ⟨-, rfl⟩ := execRecv_cases h <;>
      simp [State.slotTake, State.bufPop]
  | alarm ms =>
    obtain ⟨-, -, rfl⟩ | ⟨-, -, -, rfl⟩ | ⟨-, -, -, rfl⟩ | ⟨-, rfl⟩ := execAlarm_cases h <;> simp
  | delay ms =>
    obtain ⟨-, -, rfl⟩ | ⟨-, -, -, rfl⟩ | ⟨-, -, -, rfl⟩ | ⟨-, rfl⟩ := execDelay_cases h <;> simp
  | tick line => obtain ⟨-, rfl⟩ | ⟨-, rfl⟩ := execTick_cases h <;> simp [runTimer_eq]
  | edge =>
    obtain rfl := Host.Outcome.next.inj ((execEdge_eq s).symm.trans h)
    simp
  | rxcmp =>
    obtain ⟨-, rfl⟩ | ⟨-, -, rfl⟩ | ⟨-, -, -, rfl⟩ | ⟨-, -, -, rfl⟩ | ⟨-, -, rfl⟩ | ⟨-, -, -, rfl⟩ |
      ⟨-, -, -, -, rfl⟩ := execRxcmp_cases h <;> simp
  | txcmp =>
    obtain ⟨-, rfl⟩ | ⟨-, rfl⟩ | ⟨-, -, rfl⟩ | ⟨-, -, -, rfl⟩ | ⟨-, -, -, rfl⟩ | ⟨-, rfl⟩ | ⟨-, rfl⟩ |
      ⟨-, -, rfl⟩ := execTxcmp_cases h <;> simp

/-- Settles O48: the raised state's record stops the fetch, and an instruction keeps the record or overwrites it with
another fault (`exec_fault`). -/
theorem recordedFaultEndsTheRun : Obligations.RecordedFaultEndsTheRun := by
  refine ⟨fun k s hvalid => ⟨_, rfl, rfl, step_of_recorded_fault hvalid rfl⟩, fun i s t hfault h => ?_⟩
  obtain hkept | ⟨k, hraised⟩ := exec_fault h
  · rwa [hkept]
  · simp [hraised]

end Sys2Proof.Machine
end

section
/-! INIT: its word, the second INIT, and every register it writes (70_reset_and_hazards.md R231). -/

namespace Sys2Proof.Machine
open Sys2Proof

/-- The registers of the mode that is built are cleared, those of the other mode keep their values. -/
theorem setupBuffer_eq (s : State) :
    s.setupBuffer = { s with
      available := if s.cfg.rxMode = .unbuffered then false else s.available
      recvByte := if s.cfg.rxMode = .unbuffered then 0#8 else s.recvByte
      rxHead := if s.cfg.rxMode = .buffered then 0 else s.rxHead
      rxTail := if s.cfg.rxMode = .buffered then 0 else s.rxTail } := by
  rw [← State.setupBuffer_available, ← State.setupBuffer_recvByte, ← State.setupBuffer_rxHead,
    ← State.setupBuffer_rxTail]
  unfold State.setupBuffer
  split <;> rfl

theorem exec_init_before_init {s : State} (hinit : s.initialized = false) :
    exec .init s = .next s.setup.respondNothing := by
  simp [exec, execInit, hinit]

theorem draw_lt (s : State) (k : Nat) {n : Nat} (hn : 0 < n) : s.draw k n < n := Nat.mod_lt _ hn

/-- Settles O52: before INIT, INIT's answer is `setup`, whose only case split is the buffer's mode (`setupBuffer_eq`),
and whose three draws are below the bit period (`draw_lt`). -/
theorem initSetsUpTheBlock : Obligations.InitSetsUpTheBlock := by
  refine ⟨by decide, fun s P hP => ⟨exec_init_after_init, fun hbefore hpos => ?_⟩⟩
  subst hP
  refine ⟨s.draw 0 s.cfg.bitPeriod, s.draw 1 s.cfg.bitPeriod, s.draw 2 s.cfg.bitPeriod, s.draws + 3,
    draw_lt s 0 hpos, draw_lt s 1 hpos, draw_lt s 2 hpos, ?_⟩
  rw [exec_init_before_init hbefore, State.setup, setupBuffer_eq]
  rfl

end Sys2Proof.Machine
end

section
/-! The words of the opcode table: decoding and encoding undo each other on both interfaces, the count of the legal host
words, and the words of the assembly commands (30_encoding.md). -/

namespace Sys2Proof.Machine
open Sys2Proof

/-! The words of the opcode table -/

/-- TICK's operand field (30_encoding.md R73) through the two parts that the decoder reads. -/
theorem tick_operand_eq_iff {line : Bit} {w : Word} :
    (Instr.tick line).operand = operandField w ↔ lineRest w = 0#15 ∧ lineField w = line := by
  have hrest : lineRest w = (operandField w).extractLsb' 1 15 := by
    simp [lineRest, operandField]
  have hline : lineField w = (operandField w).extractLsb' 0 1 := by
    simp [lineField, operandField]
  simp only [hrest, hline, Instr.operand, ← BitVec.toNat_inj, BitVec.toNat_setWidth, BitVec.extractLsb'_toNat,
    Nat.shiftRight_eq_div_pow, BitVec.toNat_ofNat]
  omega

/-- The event words' operand checks (30_encoding.md R73) name the opcode and the operand of an event. -/
theorem eventForm_eq_instr_iff {w : Word} {i : Instr} :
    eventForm w = some (.instr i) ↔
      i.isHostCommand = false ∧ i.opcode = opField w ∧ i.operand = operandField w := by
  constructor
  · intro h
    unfold eventForm at h
    split_ifs at h with hop hrest hop hop hop
    all_goals simp only [Option.some.injEq, Decoded.instr.injEq, bare_eq_instr_iff, reduceCtorEq] at h
    · subst h
      exact ⟨rfl, hop.symm, tick_operand_eq_iff.mpr ⟨hrest, rfl⟩⟩
    all_goals
      obtain ⟨hoperand, rfl⟩ := h
      exact ⟨rfl, hop.symm, hoperand.symm⟩
  · rintro ⟨hevent, hop, hoperand⟩
    cases i with
    | tick line =>
      obtain ⟨hrest, hline⟩ := tick_operand_eq_iff.mp hoperand
      simp [eventForm, ← hop, Instr.opcode, hrest, hline]
    | edge | rxcmp | txcmp => simp [eventForm, bare, ← hop, ← hoperand, Instr.opcode, Instr.operand]
    | init | available | sendReady | send | recv | alarm | delay => cases hevent

/-- An event's opcode is none of the host's (30_encoding.md R71, R73). -/
theorem hostForm_eq_none_of_event {w : Word} {i : Instr} (hevent : i.isHostCommand = false)
    (hop : i.opcode = opField w) : hostForm w = none := by
  cases i with
  | tick | edge | rxcmp | txcmp => simp [hostForm, ← hop, Instr.opcode]
  | init | available | sendReady | send | recv | alarm | delay => cases hevent

/-- The host's opcodes are read first; the two sets of opcodes have none in common. -/
theorem tableForm_eq_instr_iff {w : Word} {i : Instr} :
    (hostForm w).or (eventForm w) = some (.instr i) ↔ i.opcode = opField w ∧ i.operand = operandField w := by
  rw [Option.or_eq_some_iff, hostForm_eq_instr_iff, eventForm_eq_instr_iff]
  constructor
  · rintro (⟨-, hfields⟩ | ⟨-, -, hfields⟩) <;> exact hfields
  · intro hfields
    cases hcmd : i.isHostCommand with
    | true => exact .inl ⟨rfl, hfields⟩
    | false => exact .inr ⟨hostForm_eq_none_of_event hcmd hfields.1, rfl, hfields⟩

theorem decodeWord_eq_instr_iff (w : Word) (i : Instr) : decodeWord w = .instr i ↔ encode i = w := by
  rw [decodeWord, decodeForm_eq_instr_iff, tableForm_eq_instr_iff, encode_eq_iff]

/-- Settles O8: a word decodes to exactly the instruction that it encodes (`decodeWord_eq_instr_iff`). -/
theorem decodeOfEncodeIsTheInstruction : Obligations.DecodeOfEncodeIsTheInstruction :=
  fun i => (decodeWord_eq_instr_iff (encode i) i).mpr rfl

/-- Settles O9, the other direction of `decodeWord_eq_instr_iff`. -/
theorem onlyItsEncodingDecodesToAnInstruction : Obligations.OnlyItsEncodingDecodesToAnInstruction :=
  fun w i h => ((decodeWord_eq_instr_iff w i).mp h).symm

/-- Settles O10: the host interface's checks name the fields of a host command's word. -/
theorem hostInterfaceTakesExactlyTheHostCommands : Obligations.HostInterfaceTakesExactlyTheHostCommands :=
  fun w i => (decodeHost_eq_instr_iff w i).trans (and_congr_right' eq_comm)

/-! The count of the legal host words (30_encoding.md R75) -/

/-- The host commands, listed by their operands: the four without one, SEND's bytes, ALARM's and DELAY's durations. -/
def hostCommandOf : Fin 4 ⊕ Byte ⊕ Half ⊕ Half → Instr
  | .inl 0 => .init
  | .inl 1 => .available
  | .inl 2 => .sendReady
  | .inl 3 => .recv
  | .inr (.inl b) => .send b
  | .inr (.inr (.inl ms)) => .alarm ms
  | .inr (.inr (.inr ms)) => .delay ms

/-- The place of a host command in the list. -/
def hostCommandIndex : Instr → Option (Fin 4 ⊕ Byte ⊕ Half ⊕ Half)
  | .init => some (.inl 0)
  | .available => some (.inl 1)
  | .sendReady => some (.inl 2)
  | .recv => some (.inl 3)
  | .send b => some (.inr (.inl b))
  | .alarm ms => some (.inr (.inr (.inl ms)))
  | .delay ms => some (.inr (.inr (.inr ms)))
  | .tick _ | .edge | .rxcmp | .txcmp => none

theorem hostCommandIndex_hostCommandOf (c : Fin 4 ⊕ Byte ⊕ Half ⊕ Half) :
    hostCommandIndex (hostCommandOf c) = some c := by
  obtain k | b | ms | ms := c
  · fin_cases k <;> rfl
  all_goals rfl

theorem isHostCommand_iff_hostCommandOf (i : Instr) : i.isHostCommand = true ↔ ∃ c, hostCommandOf c = i := by
  constructor
  · intro hcmd
    cases i with
    | init => exact ⟨.inl 0, rfl⟩
    | available => exact ⟨.inl 1, rfl⟩
    | sendReady => exact ⟨.inl 2, rfl⟩
    | recv => exact ⟨.inl 3, rfl⟩
    | send b => exact ⟨.inr (.inl b), rfl⟩
    | alarm ms => exact ⟨.inr (.inr (.inl ms)), rfl⟩
    | delay ms => exact ⟨.inr (.inr (.inr ms)), rfl⟩
    | tick | edge | rxcmp | txcmp => cases hcmd
  · rintro ⟨c, rfl⟩
    obtain k | b | ms | ms := c
    · fin_cases k <;> rfl
    all_goals rfl

theorem encode_injective : Function.Injective encode := fun i j h =>
  Decoded.instr.inj
    (((decodeWord_eq_instr_iff (encode j) i).mpr h).symm.trans ((decodeWord_eq_instr_iff (encode j) j).mpr rfl))

theorem encode_hostCommandOf_injective : Function.Injective (fun c => encode (hostCommandOf c)) := fun c d h =>
  Option.some.inj (by
    rw [← hostCommandIndex_hostCommandOf, ← hostCommandIndex_hostCommandOf, encode_injective h])

theorem legalHostWords_eq_range :
    (fun w : Word => ∃ i, decodeHost w = .instr i) = Set.range (fun c => encode (hostCommandOf c)) := by
  ext w
  constructor
  · rintro ⟨i, hi⟩
    obtain ⟨hcmd, rfl⟩ := (decodeHost_eq_instr_iff w i).mp hi
    obtain ⟨c, rfl⟩ := (isHostCommand_iff_hostCommandOf i).mp hcmd
    exact ⟨c, rfl⟩
  · rintro ⟨c, rfl⟩
    exact ⟨hostCommandOf c, (decodeHost_eq_instr_iff _ _).mpr ⟨(isHostCommand_iff_hostCommandOf _).mpr ⟨c, rfl⟩, rfl⟩⟩

theorem natCard_bitVec (n : Nat) : Nat.card (BitVec n) = 2 ^ n := by
  rw [Nat.card_congr BitVec.equivFin.toEquiv, Nat.card_fin]

/-- Settles O11: the legal host words are the encodings of `4 + 256 + 2 * 65536` commands, no two of them the same. -/
theorem legalHostWordsAre131332 : Obligations.LegalHostWordsAre131332 := by
  unfold Obligations.LegalHostWordsAre131332
  rw [legalHostWords_eq_range, Set.ncard_range_of_injective encode_hostCommandOf_injective]
  simp only [Nat.card_sum, Nat.card_fin, natCard_bitVec]
  norm_num

/-- Settles O12 by evaluating both decoders on the words written out in the spec. -/
theorem specWordsDecode : Obligations.SpecWordsDecode := by
  unfold Obligations.SpecWordsDecode
  decide

/-! The words of the assembly commands (30_encoding.md R78) -/

theorem encode_send (b : Byte) : encode (.send b) = 0x04000000#32 ||| b.setWidth 32 := by
  simp [encode, Instr.opcode, Instr.operand]

theorem encode_alarm (ms : Half) : encode (.alarm ms) = 0x06000000#32 ||| ms.setWidth 32 := by
  simp [encode, Instr.opcode, Instr.operand]

theorem encode_delay (ms : Half) : encode (.delay ms) = 0x07000000#32 ||| ms.setWidth 32 := by
  simp [encode, Instr.opcode, Instr.operand]

/-- A command with an operand has the word of its instruction where the operand is in range, and no other word. -/
theorem assemble_eq {c : Source} {i : Instr} {w : Word} {n bound : Nat} (hwf : c.wellFormed = decide (n ≤ bound))
    (hinstr : c.wellFormed = true → c.instr? = some i) (hword : n ≤ bound → encode i = w) :
    c.assemble = if n ≤ bound then some w else none := by
  by_cases hn : n ≤ bound
  · rw [Source.assemble, hinstr (by rw [hwf, decide_eq_true hn]), if_pos hn, Option.map_some, hword hn]
  · simp [Source.assemble, Source.instr?, hwf, hn]

/-- Settles O13: an operand in its range fills its field of the word, and any other has no word (`assemble_eq`). -/
theorem assemblyWords : Obligations.AssemblyWords := by
  refine ⟨by decide, by decide, by decide, by decide,
    fun n => assemble_eq rfl (if_pos ·) fun hn => ?send, fun n => assemble_eq rfl (if_pos ·) fun hn => ?alarm,
    fun n => assemble_eq rfl (if_pos ·) fun hn => ?delay⟩
  case send => rw [encode_send, BitVec.setWidth_ofNat_of_le_of_lt (by norm_num) (by omega)]
  case alarm => rw [encode_alarm, BitVec.setWidth_ofNat_of_le_of_lt (by norm_num) (by omega)]
  case delay => rw [encode_delay, BitVec.setWidth_ofNat_of_le_of_lt (by norm_num) (by omega)]

end Sys2Proof.Machine
end

section
/-! The registers in groups, and the one frame lemma: which instructions write which group (00_scope.md R1,
60_exceptions.md R203, R213). -/

namespace Sys2Proof.Machine
open Sys2Proof Sys2Proof.Safety

/-- The registers of the transmit engine and its compare channel (10_state.md R24, R26, R30 to R35). -/
structure TransmitRegs where
  ocrTx : Nat
  txIe : Bool
  txState : TxState
  sendReady : Bool
  sendByte : Byte
  sendBits : Nibble
  delay : Nat
  txd : Bit

/-- The registers of the receive engine, its two interrupt enables, its compare register and its buffer
(10_state.md R25, R27, R28, R36, R38 to R41). -/
structure ReceiveRegs where
  ocrRx : Nat
  rxIe : Bool
  edgeIe : Bool
  rxState : RxState
  recvShift : Byte
  recvBits : Nibble
  available : Bool
  recvByte : Byte
  rxBuf : Memory
  rxHead : Nat
  rxTail : Nat

/-- What INIT and TICK alone move: the counter, its period, the samples, the tick count, and whether INIT has run
(10_state.md R22, R23, R37, R43, R45). -/
structure ClockRegs where
  tcnt : Nat
  period : Nat
  rxCur : Bit
  rxPrev : Bit
  t : Nat
  initialized : Bool

def State.transmit (s : State) : TransmitRegs where
  ocrTx := s.ocrTx
  txIe := s.txIe
  txState := s.txState
  sendReady := s.sendReady
  sendByte := s.sendByte
  sendBits := s.sendBits
  delay := s.delay
  txd := s.txd

def State.receive (s : State) : ReceiveRegs where
  ocrRx := s.ocrRx
  rxIe := s.rxIe
  edgeIe := s.edgeIe
  rxState := s.rxState
  recvShift := s.recvShift
  recvBits := s.recvBits
  available := s.available
  recvByte := s.recvByte
  rxBuf := s.rxBuf
  rxHead := s.rxHead
  rxTail := s.rxTail

def State.clock (s : State) : ClockRegs where
  tcnt := s.tcnt
  period := s.period
  rxCur := s.rxCur
  rxPrev := s.rxPrev
  t := s.t
  initialized := s.initialized

/-- The instructions that may write a register of the transmit engine. -/
@[simp] def writesTransmit : Instr → Bool
  | .init | .send _ | .alarm _ | .delay _ | .txcmp => true
  | .available | .sendReady | .recv | .tick _ | .edge | .rxcmp => false

/-- The instructions that may write a register of the receive engine or its buffer. -/
@[simp] def writesReceive : Instr → Bool
  | .init | .recv | .edge | .rxcmp => true
  | .available | .sendReady | .send _ | .alarm _ | .delay _ | .tick _ | .txcmp => false

/-- The instructions that may move the clock. -/
@[simp] def writesClock : Instr → Bool
  | .init | .tick _ => true
  | .available | .sendReady | .send _ | .recv | .alarm _ | .delay _ | .edge | .rxcmp | .txcmp => false

/-- The instructions that may move the host into or out of a DELAY. -/
@[simp] def writesHostWait : Instr → Bool
  | .init | .delay _ => true
  | .available | .sendReady | .send _ | .recv | .alarm _ | .tick _ | .edge | .rxcmp | .txcmp => false

/-- What an instruction leaves as it was: the groups it does not write, and what is given from outside. -/
structure Frame (i : Instr) (s t : State) : Prop where
  transmit : writesTransmit i = false → t.transmit = s.transmit
  receive : writesReceive i = false → t.receive = s.receive
  clock : writesClock i = false → t.clock = s.clock
  hostWait : writesHostWait i = false → t.hostWait = s.hostWait
  host : t.host = s.host
  lines : t.lines = s.lines
  turns : t.turns = s.turns

/-- The groups register by register. -/
theorem frame_iff {i : Instr} {s t : State} :
    Frame i s t ↔
      (writesTransmit i = false →
        t.ocrTx = s.ocrTx ∧ t.txIe = s.txIe ∧ t.txState = s.txState ∧ t.sendReady = s.sendReady ∧
        t.sendByte = s.sendByte ∧ t.sendBits = s.sendBits ∧ t.delay = s.delay ∧ t.txd = s.txd) ∧
      (writesReceive i = false →
        t.ocrRx = s.ocrRx ∧ t.rxIe = s.rxIe ∧ t.edgeIe = s.edgeIe ∧ t.rxState = s.rxState ∧
        t.recvShift = s.recvShift ∧ t.recvBits = s.recvBits ∧ t.available = s.available ∧ t.recvByte = s.recvByte ∧
        t.rxBuf = s.rxBuf ∧ t.rxHead = s.rxHead ∧ t.rxTail = s.rxTail) ∧
      (writesClock i = false →
        t.tcnt = s.tcnt ∧ t.period = s.period ∧ t.rxCur = s.rxCur ∧ t.rxPrev = s.rxPrev ∧ t.t = s.t ∧
        t.initialized = s.initialized) ∧
      (writesHostWait i = false → t.hostWait = s.hostWait) ∧
      t.host = s.host ∧ t.lines = s.lines ∧ t.turns = s.turns := by
  constructor
  · rintro ⟨htransmit, hreceive, hclock, hwait, hhost, hlines, hturns⟩
    exact ⟨fun h => by simpa [State.transmit] using htransmit h, fun h => by simpa [State.receive] using hreceive h,
      fun h => by simpa [State.clock] using hclock h, hwait, hhost, hlines, hturns⟩
  · rintro ⟨htransmit, hreceive, hclock, hwait, hhost, hlines, hturns⟩
    exact ⟨fun h => by simpa [State.transmit] using htransmit h, fun h => by simpa [State.receive] using hreceive h,
      fun h => by simpa [State.clock] using hclock h, hwait, hhost, hlines, hturns⟩

/-- Every instruction keeps its frame: each case of the inversion lemmas is built of updates of the groups that the
instruction may write, of the pending flags, the fault record, the response and the count of draws. -/
theorem exec_frame {i : Instr} {s t : State} (h : exec i s = .next t) : Frame i s t := by
  rw [frame_iff]
  cases i with
  | init => obtain ⟨-, rfl⟩ | ⟨-, rfl⟩ := execInit_cases h <;> simp
  | available => obtain ⟨-, rfl⟩ | ⟨-, rfl⟩ := execAvailable_cases h <;> simp
  | sendReady => obtain ⟨-, rfl⟩ | ⟨-, rfl⟩ := execSendReady_cases h <;> simp
  | send b => obtain ⟨-, -, rfl⟩ | ⟨-, -, rfl⟩ | ⟨-, rfl⟩ := execSend_cases h <;> simp
  | recv =>
    obtain ⟨-, -, rfl⟩ | ⟨-, -, -, rfl⟩ | ⟨-, -, -, -, rfl⟩ | ⟨-, rfl⟩ := execRecv_cases h <;>
      simp [State.slotTake, State.bufPop]
  | alarm ms =>
    obtain ⟨-, -, rfl⟩ | ⟨-, -, -, rfl⟩ | ⟨-, -, -, rfl⟩ | ⟨-, rfl⟩ := execAlarm_cases h <;> simp
  | delay ms =>
    obtain ⟨-, -, rfl⟩ | ⟨-, -, -, rfl⟩ | ⟨-, -, -, rfl⟩ | ⟨-, rfl⟩ := execDelay_cases h <;> simp
  | tick line => obtain ⟨-, rfl⟩ | ⟨-, rfl⟩ := execTick_cases h <;> simp [runTimer_eq]
  | edge =>
    obtain rfl := Host.Outcome.next.inj ((execEdge_eq s).symm.trans h)
    simp
  | rxcmp =>
    obtain ⟨-, rfl⟩ | ⟨-, -, rfl⟩ | ⟨-, -, -, rfl⟩ | ⟨-, -, -, rfl⟩ | ⟨-, -, rfl⟩ | ⟨-, -, -, rfl⟩ |
      ⟨-, -, -, -, rfl⟩ := execRxcmp_cases h <;> simp
  | txcmp =>
    obtain ⟨-, rfl⟩ | ⟨-, rfl⟩ | ⟨-, -, rfl⟩ | ⟨-, -, -, rfl⟩ | ⟨-, -, -, rfl⟩ | ⟨-, rfl⟩ | ⟨-, rfl⟩ |
      ⟨-, -, rfl⟩ := execTxcmp_cases h <;> simp

/-- INIT alone writes `initialized` (10_state.md R43). -/
theorem exec_initialized_eq {i : Instr} {s t : State} (h : exec i s = .next t) (hne : i ≠ .init) :
    t.initialized = s.initialized := by
  cases i with
  | init => exact absurd rfl hne
  | tick line => obtain ⟨-, rfl⟩ | ⟨-, rfl⟩ := execTick_cases h <;> simp [runTimer_eq]
  | available | sendReady | send | recv | alarm | delay | edge | rxcmp | txcmp =>
    exact congrArg ClockRegs.initialized ((exec_frame h).clock rfl)

theorem exec_initialized {i : Instr} {s t : State} (h : exec i s = .next t) (hinit : s.initialized = true) :
    t.initialized = true := by
  by_cases hne : i = .init
  · subst hne
    obtain ⟨-, rfl⟩ | ⟨-, rfl⟩ := execInit_cases h <;> simp [hinit]
  · exact (exec_initialized_eq h hne).trans hinit

/-- Only TICK counts (10_state.md R45), and it counts one. -/
theorem exec_t {i : Instr} {s t : State} (h : exec i s = .next t) :
    (∃ line, i = .tick line) ∧ t.t = s.t + 1 ∨ (∀ line, i ≠ .tick line) ∧ t.t = s.t := by
  cases i with
  | init => obtain ⟨-, rfl⟩ | ⟨-, rfl⟩ := execInit_cases h <;> simp
  | tick line => obtain ⟨-, rfl⟩ | ⟨-, rfl⟩ := execTick_cases h <;> simp [runTimer_eq]
  | available | sendReady | send | recv | alarm | delay | edge | rxcmp | txcmp =>
    exact .inr ⟨nofun, congrArg ClockRegs.t ((exec_frame h).clock rfl)⟩

/-! What the engines leave of each other -/

/-- Settles O50: neither engine's instructions write the other's group (`exec_frame`), and the pending flags of the
other's sources stay (`txcmp_irq`, `edge_irq`, `rxcmp_irq`, `hostCommand_keepsIrq`). -/
theorem enginesAreIndependent : Obligations.EnginesAreIndependent := by
  intro i s t h
  obtain ⟨htransmit, hreceive, hclock, hwait, -⟩ := frame_iff.mp (exec_frame h)
  constructor
  · intro hi
    have hother : writesReceive i = false ∧ writesClock i = false ∧ t.rxPend = s.rxPend ∧ t.edgePend = s.edgePend := by
      obtain rfl | ⟨b, rfl⟩ | ⟨ms, rfl⟩ | ⟨ms, rfl⟩ := hi
      · obtain ⟨-, ⟨hedge, -⟩, ⟨hrx, -⟩⟩ := txcmp_irq h
        exact ⟨rfl, rfl, hrx, hedge⟩
      all_goals
        exact ⟨rfl, rfl, (hostCommand_keepsIrq h rfl nofun .rx).1, (hostCommand_keepsIrq h rfl nofun .edge).1⟩
    obtain ⟨hrecv, hclk, hrx, hedge⟩ := hother
    obtain ⟨hocr, hrxIe, hedgeIe, hstate, hshift, hbits, havail, hbyte, hbuf, hhead, htail⟩ := hreceive hrecv
    obtain ⟨htcnt, hperiod, hcur, hprev, ht, -⟩ := hclock hclk
    exact ⟨hocr, hrxIe, hedgeIe, hrx, hedge, hstate, hshift, hbits, hcur, hprev, ⟨havail, hbyte, hbuf, hhead, htail⟩,
      htcnt, hperiod, ht⟩
  · intro hi
    have hother : writesTransmit i = false ∧ writesClock i = false ∧ writesHostWait i = false ∧
        t.txPend = s.txPend := by
      obtain rfl | rfl | rfl | rfl := hi
      · exact ⟨rfl, rfl, rfl, (edge_irq h).2.2.1⟩
      · exact ⟨rfl, rfl, rfl, (rxcmp_irq h).2.2.1⟩
      all_goals exact ⟨rfl, rfl, rfl, (hostCommand_keepsIrq h rfl nofun .tx).1⟩
    obtain ⟨hsend, hclk, hhost, htx⟩ := hother
    obtain ⟨hocr, hie, hstate, hready, hbyte, hbits, hdelay, htxd⟩ := htransmit hsend
    obtain ⟨htcnt, hperiod, -, -, ht, -⟩ := hclock hclk
    exact ⟨hocr, hie, htx, hstate, hready, hbyte, hbits, hdelay, htxd, htcnt, hperiod, ht, hwait hhost⟩

/-- A pop and a take move the tail and the flag alone. -/
theorem recv_frame {s t : State} (h : exec .recv s = .next t) :
    t.ocrRx = s.ocrRx ∧ t.rxIe = s.rxIe ∧ t.edgeIe = s.edgeIe ∧ t.rxState = s.rxState ∧ t.recvShift = s.recvShift ∧
    t.recvBits = s.recvBits ∧ t.rxHead = s.rxHead ∧ t.rxBuf = s.rxBuf := by
  obtain ⟨-, -, rfl⟩ | ⟨-, -, -, rfl⟩ | ⟨-, -, -, -, rfl⟩ | ⟨-, rfl⟩ := execRecv_cases h <;>
    simp [State.slotTake, State.bufPop]

/-- What the host commands but INIT leave of the receive engine: RECV moves the buffer's tail and flag, the others
nothing. -/
theorem hostCommand_receive {i : Instr} {s t : State} (h : exec i s = .next t) (hcmd : i.isHostCommand = true)
    (hne : i ≠ .init) :
    t.ocrRx = s.ocrRx ∧ t.rxIe = s.rxIe ∧ t.edgeIe = s.edgeIe ∧ t.rxState = s.rxState ∧ t.recvShift = s.recvShift ∧
    t.recvBits = s.recvBits ∧ t.rxHead = s.rxHead ∧ t.rxBuf = s.rxBuf := by
  obtain ⟨-, hreceive, -⟩ := frame_iff.mp (exec_frame h)
  cases i with
  | init => exact absurd rfl hne
  | recv => exact recv_frame h
  | available | sendReady | send | alarm | delay =>
    obtain ⟨hocr, hrxIe, hedgeIe, hstate, hshift, hbits, -, -, hbuf, hhead, -⟩ := hreceive rfl
    exact ⟨hocr, hrxIe, hedgeIe, hstate, hshift, hbits, hhead, hbuf⟩
  | tick | edge | rxcmp | txcmp => cases hcmd

/-- INIT and TXCMP in a frame's states are the only writers of the pin (10_state.md R35). -/
theorem exec_txd {i : Instr} {s t : State} (h : exec i s = .next t) :
    t.txd = s.txd ∨ i = .init ∨
      (i = .txcmp ∧ (s.txState = .startBit ∨ s.txState = .dataBits ∨ s.txState = .stopBit)) := by
  cases i with
  | init => exact .inr (.inl rfl)
  | send b => obtain ⟨-, -, rfl⟩ | ⟨-, -, rfl⟩ | ⟨-, rfl⟩ := execSend_cases h <;> simp
  | alarm ms =>
    obtain ⟨-, -, rfl⟩ | ⟨-, -, -, rfl⟩ | ⟨-, -, -, rfl⟩ | ⟨-, rfl⟩ := execAlarm_cases h <;> simp
  | delay ms =>
    obtain ⟨-, -, rfl⟩ | ⟨-, -, -, rfl⟩ | ⟨-, -, -, rfl⟩ | ⟨-, rfl⟩ := execDelay_cases h <;> simp
  | txcmp =>
    obtain ⟨-, rfl⟩ | ⟨hst, rfl⟩ | ⟨hst, -, rfl⟩ | ⟨hst, -, -, rfl⟩ | ⟨hst, -, -, rfl⟩ | ⟨hst, rfl⟩ | ⟨-, rfl⟩ |
      ⟨-, -, rfl⟩ := execTxcmp_cases h <;> simp [*]
  | available | sendReady | recv | tick | edge | rxcmp =>
    exact .inl (congrArg TransmitRegs.txd ((exec_frame h).transmit rfl))

/-- Settles O29, by the writers of the pin (`exec_txd`). -/
theorem pinChangesOnlyInAFrame : Obligations.PinChangesOnlyInAFrame :=
  fun _ _ _ h hne => (exec_txd h).resolve_left hne

/-- Settles O49: a host command but INIT writes no clock register, keeps the flags (`hostCommand_keepsIrq`), and of the
receive engine moves the buffer's tail and flag alone (`hostCommand_receive`). -/
theorem hostCommandsLeaveCounterAndReceiverAlone : Obligations.HostCommandsLeaveCounterAndReceiverAlone := by
  intro i s t hcmd hne h
  have hclk : writesClock i = false := by
    cases i with
    | init => exact absurd rfl hne
    | available | sendReady | send | recv | alarm | delay => rfl
    | tick | edge | rxcmp | txcmp => cases hcmd
  obtain ⟨-, -, hclock, -⟩ := frame_iff.mp (exec_frame h)
  obtain ⟨htcnt, hperiod, hcur, hprev, ht, hinit⟩ := hclock hclk
  obtain ⟨hocr, hrxIe, hedgeIe, hstate, hshift, hbits, hhead, hbuf⟩ := hostCommand_receive h hcmd hne
  have hpend (src : IrqSource) : t.pending src = s.pending src := (hostCommand_keepsIrq h hcmd hne src).1
  have htxd : t.txd = s.txd := by
    obtain hsame | hi | ⟨hi, -⟩ := exec_txd h
    · exact hsame
    · exact absurd hi hne
    · simp [hi, Instr.isHostCommand] at hcmd
  exact ⟨htcnt, hperiod, hocr, hrxIe, hedgeIe, hpend .tx, hpend .rx, hpend .edge, hcur, hprev, hstate, hshift, hbits,
    htxd, hinit, ht, hhead, fun a => by rw [hbuf]⟩

/-- Settles O40: of the instructions that write the receive group, EDGE touches no buffer, and INIT, RECV and RXCMP
write that of the mode they find. -/
theorem registersOfTheOtherModeStay : Obligations.RegistersOfTheOtherModeStay := by
  intro i s t h
  obtain ⟨-, hreceive, -⟩ := frame_iff.mp (exec_frame h)
  cases i with
  | init =>
    obtain ⟨-, rfl⟩ | ⟨-, rfl⟩ := execInit_cases h <;>
      simp +contextual [State.setup_available, State.setup_recvByte, State.setup_rxHead, State.setup_rxTail]
  | recv =>
    obtain ⟨-, -, rfl⟩ | ⟨-, -, hmode, rfl⟩ | ⟨-, -, hmode, -, rfl⟩ | ⟨-, rfl⟩ := execRecv_cases h <;>
      simp [*, State.slotTake, State.bufPop]
  | edge =>
    obtain rfl := Host.Outcome.next.inj ((execEdge_eq s).symm.trans h)
    simp
  | rxcmp =>
    obtain ⟨-, rfl⟩ | ⟨-, -, rfl⟩ | ⟨-, -, -, rfl⟩ | ⟨-, -, -, rfl⟩ | ⟨-, -, rfl⟩ | ⟨-, -, hmode, rfl⟩ |
      ⟨-, -, hmode, -, rfl⟩ := execRxcmp_cases h <;> simp [*]
  | available | sendReady | send | alarm | delay | tick | txcmp =>
    obtain ⟨-, -, -, -, -, -, havail, hbyte, hbuf, hhead, htail⟩ := hreceive rfl
    exact ⟨fun _ => ⟨hbuf, hhead, htail⟩, fun _ => ⟨havail, hbyte⟩⟩

/-! Every step ticks or uses up work (40_timer.md R112) -/

/-- The handler runs that are pending. -/
def pendingWork (s : State) : Nat :=
  (if s.edgePend then 1 else 0) + (if s.rxPend then 1 else 0) + (if s.txPend then 1 else 0)

theorem workLeft_eq (s : State) :
    workLeft s = 2 * s.host.length + (if s.hostWait = .delayWait then 1 else 0) + pendingWork s := by
  unfold workLeft pendingWork
  omega

theorem pendingWork_eq_zero_iff (s : State) :
    pendingWork s = 0 ↔ s.edgePend = false ∧ s.rxPend = false ∧ s.txPend = false := by
  unfold pendingWork
  cases s.edgePend <;> cases s.rxPend <;> cases s.txPend <;> simp

/-- Fewer flags, less work. -/
theorem pendingWork_le {s t : State} (h : ∀ src, t.pending src = true → s.pending src = true) :
    pendingWork t ≤ pendingWork s := by
  have count {b c : Bool} (hbc : c = true → b = true) : (if c then 1 else 0) ≤ (if b then 1 else 0) := by
    cases b <;> cases c <;> simp_all
  exact Nat.add_le_add (Nat.add_le_add (count (h .edge)) (count (h .rx))) (count (h .tx))

/-- A handler clears its own flag and leaves the other two (60_exceptions.md R201). -/
theorem handler_pending {s t : State} {src : IrqSource} (h : exec src.handler s = .next t) :
    t.pending src = false ∧ ∀ other, other ≠ src → t.pending other = s.pending other := by
  cases src with
  | edge =>
    obtain ⟨hclear, hrx, htx⟩ := edge_irq h
    exact ⟨hclear, fun | .edge, hne => absurd rfl hne | .rx, _ => hrx.1 | .tx, _ => htx.1⟩
  | rx =>
    obtain ⟨hclear, hedge, htx⟩ := rxcmp_irq h
    exact ⟨hclear, fun | .edge, _ => hedge.1 | .rx, hne => absurd rfl hne | .tx, _ => htx.1⟩
  | tx =>
    obtain ⟨hclear, hedge, hrx⟩ := txcmp_irq h
    exact ⟨hclear, fun | .edge, _ => hedge.1 | .rx, _ => hrx.1 | .tx, hne => absurd rfl hne⟩

theorem pendingWork_handler {s t : State} {src : IrqSource} (hpend : s.pending src = true)
    (h : exec src.handler s = .next t) : pendingWork t + 1 = pendingWork s := by
  obtain ⟨hclear, hkeep⟩ := handler_pending h
  have hedge := hkeep .edge
  have hrx := hkeep .rx
  have htx := hkeep .tx
  cases src <;> simp_all [State.pending, pendingWork] <;> omega

/-- A handler's run uses up its pending interrupt and nothing else. -/
theorem workLeft_handler {s t : State} {src : IrqSource} (hpend : s.pending src = true)
    (h : exec src.handler s = .next t) : workLeft t < workLeft s := by
  have hframe := exec_frame h
  have hwait : t.hostWait = s.hostWait := hframe.hostWait (by cases src <;> rfl)
  have hwork := pendingWork_handler hpend h
  rw [workLeft_eq, workLeft_eq, hframe.host, hwait]
  omega

/-- A host command makes nothing pending: INIT clears every flag, and the others keep them. -/
theorem pendingWork_hostCommand {i : Instr} {s t : State} (hcmd : i.isHostCommand = true)
    (h : exec i s = .next t) : pendingWork t ≤ pendingWork s := by
  refine pendingWork_le fun src ht => ?_
  by_cases hne : i = .init
  · subst hne
    obtain ⟨hkeep, -⟩ | hclear := init_irq h src
    · exact hkeep.symm.trans ht
    · simp [hclear] at ht
  · exact (hostCommand_keepsIrq h hcmd hne src).1.symm.trans ht

/-- A host command uses up its word, which is two; a DELAY then leaves one to its return. -/
theorem workLeft_hostCommand {i : Instr} {s t : State} (hcmd : i.isHostCommand = true) (h : exec i s = .next t) :
    workLeft t < 2 * (s.host.length + 1) + pendingWork s := by
  have hwork := pendingWork_hostCommand hcmd h
  rw [workLeft_eq, (exec_frame h).host]
  split <;> omega

/-- Settles O7: by the cases of what a step can be, it is a TICK, which counts one (`exec_t`), or it uses up a pending
interrupt, a host word or a DELAY. -/
theorem everyStepTicksOrUsesUpWork : Obligations.EveryStepTicksOrUsesUpWork := by
  intro s t h
  obtain ⟨-, -, hstep⟩ := step_cases h
  obtain ⟨src, hsrc, handler⟩ | ⟨-, idle⟩ := hstep
  · obtain ⟨⟨line, hi⟩, -⟩ | ⟨-, ht⟩ := exec_t handler
    · cases src <;> cases hi
    · exact .inr ⟨ht, workLeft_handler (nextIrq_eq_some hsrc) handler⟩
  obtain ⟨line, ls, ts, d, tick⟩ | ⟨hwait, -, ts, d, rfl⟩ | ⟨hwait, w, rest, ts, d, hhost, word⟩ := idle
  · obtain ⟨-, ht⟩ | ⟨hne, -⟩ := exec_t tick
    · exact .inl ht
    · exact absurd rfl (hne line)
  · exact .inr ⟨rfl, by simp [workLeft, hwait]⟩
  have hwork : workLeft s = 2 * (rest.length + 1) + pendingWork s := by
    simp [workLeft_eq, hwait, hhost]
  obtain ⟨i, hdecode, -, command⟩ | ⟨r, -, rfl⟩ := word
  · have hcmd := ((decodeHost_eq_instr_iff w i).mp hdecode).1
    obtain ⟨⟨line, rfl⟩, -⟩ | ⟨-, ht⟩ := exec_t command
    · cases hcmd
    · exact .inr ⟨ht, hwork ▸ workLeft_hostCommand hcmd command⟩
  · refine .inr ⟨rfl, ?_⟩
    simp only [hwork, workLeft_eq, hwait, pendingWork, reduceCtorEq, if_false]
    omega

/-! No step undoes INIT (70_reset_and_hazards.md R234) -/

theorem step_initialized {s t : State} (h : step s = .next t) (hinit : s.initialized = true) :
    t.initialized = true := by
  obtain ⟨-, -, hstep⟩ := step_cases h
  obtain ⟨src, -, handler⟩ | ⟨-, idle⟩ := hstep
  · exact exec_initialized handler hinit
  obtain ⟨line, ls, ts, d, tick⟩ | ⟨-, -, ts, d, rfl⟩ | ⟨-, w, rest, ts, d, -, word⟩ := idle
  · exact exec_initialized tick hinit
  · exact hinit
  obtain ⟨i, -, -, command⟩ | ⟨r, -, rfl⟩ := word
  · exact exec_initialized command hinit
  · exact hinit

/-- Settles O54: no instruction takes `initialized` back (`exec_initialized`), and a step counts one or leaves the tick
count (`everyStepTicksOrUsesUpWork`). -/
theorem noStepUndoesInit : Obligations.NoStepUndoesInit := by
  intro s t h
  refine ⟨step_initialized h, ?_⟩
  obtain ht | ⟨ht, -⟩ := everyStepTicksOrUsesUpWork s t h <;> omega

end Sys2Proof.Machine
end

section
/-! The invariant: what it says of each group of registers, and that every instruction and every step keeps it
(10_state.md R46 to R49, 20_memory.md R50, 60_exceptions.md R201). -/

namespace Sys2Proof.Machine
open Sys2Proof Sys2Proof.Safety

/-! The invariant after INIT, group by group -/

/-- 10_state.md R46, R47 and R48 for the transmit group, with the ranges of R24 and R34. -/
def TransmitRegs.Consistent (c : Params) (r : TransmitRegs) : Prop :=
  r.ocrTx < c.bitPeriod ∧ (r.sendReady = true ↔ r.txState = .idle) ∧ r.sendBits ≤ 8#4 ∧
  (r.sendBits ≠ 0#4 ↔ r.txState = .dataBits) ∧ (r.txIe = true ↔ r.txState ≠ .idle) ∧ r.delay < 2 ^ c.delayWidth

/-- 10_state.md R47 and R49 for the receive group, with the ranges of R25 and R41. -/
def ReceiveRegs.Consistent (c : Params) (r : ReceiveRegs) : Prop :=
  r.ocrRx < c.bitPeriod ∧ r.recvBits ≤ 8#4 ∧ (r.recvBits ≠ 0#4 ↔ r.rxState = .dataBits) ∧
  (r.edgeIe = true ↔ r.rxIe = false) ∧ (r.edgeIe = true → r.rxState = .waitStart) ∧ r.rxState ≠ .startBit ∧
  r.rxBuf.wf = true ∧ (c.rxMode = .buffered → r.rxHead < c.rxBufSlots ∧ r.rxTail < c.rxBufSlots)

/-- The counter runs through one bit period (10_state.md R22, R23). -/
def ClockRegs.Consistent (c : Params) (r : ClockRegs) : Prop :=
  r.period = c.bitPeriod ∧ r.tcnt < c.bitPeriod

theorem invariant_iff_of_initialized {s : State} (hinit : s.initialized = true) :
    Invariant s ↔
      s.cfg.valid = true ∧ s.clock.Consistent s.cfg ∧ s.transmit.Consistent s.cfg ∧ s.receive.Consistent s.cfg ∧
      PendingOnlyEnabled s := by
  have hquiet : QuietBeforeInit s := by simp [QuietBeforeInit, hinit]
  simp only [Invariant, TimerInRange, TransmitConsistent, ReceiveConsistent, BufferInRange, hinit, forall_const,
    ClockRegs.Consistent, TransmitRegs.Consistent, ReceiveRegs.Consistent, State.clock, State.transmit, State.receive]
  constructor
  · rintro ⟨hvalid, -, ⟨hperiod, htcnt, htx, hrx⟩, ⟨hready, hbits⟩, ⟨hle, hcount, hie, hedge, hst⟩, hpend, hwf, hslots⟩
    exact ⟨hvalid, ⟨hperiod, htcnt⟩, ⟨htx, hready, hbits⟩, ⟨hrx, hle, hcount, hie, hedge, hst, hwf, hslots⟩, hpend⟩
  · rintro ⟨hvalid, ⟨hperiod, htcnt⟩, ⟨htx, hready, hbits⟩, ⟨hrx, hle, hcount, hie, hedge, hst, hwf, hslots⟩, hpend⟩
    exact ⟨hvalid, hquiet, ⟨hperiod, htcnt, htx, hrx⟩, ⟨hready, hbits⟩, ⟨hle, hcount, hie, hedge, hst⟩, hpend, hwf,
      hslots⟩

theorem invariant_iff_of_not_initialized {s : State} (hinit : s.initialized = false) :
    Invariant s ↔ s.cfg.valid = true ∧ QuietBeforeInit s ∧ s.rxBuf.wf = true := by
  simp only [Invariant, TimerInRange, TransmitConsistent, ReceiveConsistent, BufferInRange, PendingOnlyEnabled,
    QuietBeforeInit, hinit, Bool.false_eq_true, false_implies, forall_const, true_and]
  constructor
  · rintro ⟨hvalid, hquiet, -, hwf, -⟩
    exact ⟨hvalid, hquiet, hwf⟩
  · rintro ⟨hvalid, ⟨htx, hrx, hedge, htxp, hrxp, hedgep, hwait⟩, hwf⟩
    simp [*]

theorem bitPeriod_pos {c : Params} (hvalid : c.valid = true) : 2 ≤ c.bitPeriod := ((params_valid_iff c).mp hvalid).1

/-- Before INIT nothing is enabled, so nothing is pending (40_timer.md R104). -/
theorem initialized_of_enabled {s : State} {src : IrqSource} (hinv : Invariant s) (hen : s.enabled src = true) :
    s.initialized = true := by
  obtain ⟨-, hquiet, -⟩ := hinv
  by_contra hinit
  obtain ⟨htx, hrx, hedge, -⟩ := hquiet (Bool.eq_false_of_not_eq_true hinit)
  cases src <;> simp_all [State.enabled]

theorem pendingOnlyEnabled_iff (s : State) :
    PendingOnlyEnabled s ↔ ∀ src, s.pending src = true → s.enabled src = true :=
  ⟨fun ⟨htx, hrx, hedge⟩ src => by cases src <;> assumption, fun h => ⟨h .tx, h .rx, h .edge⟩⟩

theorem enabled_of_pending {s : State} {src : IrqSource} (hinv : Invariant s) (hpend : s.pending src = true) :
    s.enabled src = true := by
  obtain ⟨-, -, -, -, -, hpending, -⟩ := hinv
  exact (pendingOnlyEnabled_iff s).mp hpending src hpend

theorem initialized_of_pending {s : State} {src : IrqSource} (hinv : Invariant s) (hpend : s.pending src = true) :
    s.initialized = true :=
  initialized_of_enabled hinv (enabled_of_pending hinv hpend)

/-! Each instruction keeps it -/

/-- By what an instruction can do to a source (`exec_irq_cases`): a flag that is kept or latched stays enabled. -/
theorem pendingOnlyEnabled_exec {i : Instr} {s t : State} (hs : PendingOnlyEnabled s) (h : exec i s = .next t) :
    PendingOnlyEnabled t := by
  rw [pendingOnlyEnabled_iff] at hs ⊢
  intro src ht
  obtain ⟨hkeep, hen⟩ | ⟨hclear, -⟩ | ⟨line, -, hen, hlatch⟩ := exec_irq_cases src h
  · exact hen (hs src (hkeep.symm.trans ht))
  · simp [hclear] at ht
  · rw [hlatch, Bool.or_eq_true, Bool.and_eq_true] at ht
    exact hen.trans (ht.elim (hs src) And.left)

theorem alarmWhole_lt {c : Params} {ms : Half} (hfits : alarmOverflows c ms = false) :
    alarmWhole c ms < 2 ^ c.delayWidth := by
  simpa [alarmOverflows] using hfits

/-- The bit counters stay in range: a nonzero count of at most 8 has a predecessor of at most 8. -/
theorem nibble_pred_le {n : Nibble} (hle : n ≤ 8#4) (hne : n ≠ 0#4) : n - 1#4 ≤ 8#4 := by
  bv_omega

/-- TXCMP's states follow each other with the count of bits and the enable that belong to them (10_state.md R46 to
R48). -/
theorem transmit_txcmp {s t : State} (hs : s.transmit.Consistent s.cfg) (h : exec .txcmp s = .next t) :
    t.transmit.Consistent s.cfg := by
  obtain ⟨hocr, hready, hle, hbits, hie, hdelay⟩ := hs
  simp only [State.transmit] at hocr hready hle hbits hie hdelay
  obtain ⟨hst, rfl⟩ | ⟨hst, rfl⟩ | ⟨hst, hzero, rfl⟩ | ⟨hst, hne, hmore, rfl⟩ | ⟨hst, hne, hlast, rfl⟩ | ⟨hst, rfl⟩ |
    ⟨hst, rfl⟩ | ⟨hst, hne, rfl⟩ := execTxcmp_cases h <;> simp only [TransmitRegs.Consistent, State.transmit]
  case inr.inr.inr.inl =>
    have hpred := nibble_pred_le hle hne
    simp_all
  case inr.inr.inr.inr.inr.inr.inr =>
    have hpred : s.delay - 1 < 2 ^ s.cfg.delayWidth := by omega
    simp_all
  case inr.inr.inr.inr.inr.inr.inl =>
    have hdone : s.txState ≠ .dataBits := by
      obtain hst | ⟨hst, -⟩ := hst <;> simp [hst]
    simp_all
  all_goals simp_all

theorem bufPush_slots (s : State) (v : Byte) (hh : s.rxHead < s.cfg.rxBufSlots) (ht : s.rxTail < s.cfg.rxBufSlots) :
    (s.bufPush v).rxHead < s.cfg.rxBufSlots ∧ (s.bufPush v).rxTail < s.cfg.rxBufSlots := by
  rw [State.bufPush_rxHead, State.bufPush_rxTail]
  refine ⟨nextSlot_lt s s.rxHead hh, ?_⟩
  split
  · exact nextSlot_lt s s.rxTail ht
  · exact ht

/-- RXCMP of an enabled channel ends in a state whose enables are exclusive (10_state.md R49), with the count of bits
that belongs to the state (R47); a push moves the indices to slots (20_memory.md R51). -/
theorem receive_rxcmp {s t : State} (hs : s.receive.Consistent s.cfg) (hie : s.rxIe = true)
    (h : exec .rxcmp s = .next t) : t.receive.Consistent s.cfg := by
  obtain ⟨hocr, hle, hbits, hen, hedge, hst, hwf, hslots⟩ := hs
  simp only [State.receive] at hocr hle hbits hen hedge hst hwf hslots
  obtain ⟨hst', rfl⟩ | ⟨hst', hzero, rfl⟩ | ⟨hst', hne, hmore, rfl⟩ | ⟨hst', hne, hlast, rfl⟩ | ⟨hst', -, rfl⟩ |
    ⟨hst', -, hmode, rfl⟩ | ⟨hst', -, hmode, hslot, rfl⟩ := execRxcmp_cases h <;>
    simp only [ReceiveRegs.Consistent, State.receive]
  case inr.inr.inl =>
    have hpred := nibble_pred_le hle hne
    simp_all
  case inr.inr.inr.inr.inr.inr =>
    obtain ⟨hhead, htail⟩ := bufPush_slots (s.clearPending .rx) s.recvShift hslot (hslots hmode).2
    simp_all [memory_wf_write]
  all_goals simp_all

/-- SEND takes an idle engine, with the counter's own value to compare with (41_transmit.md R128). -/
theorem transmit_armFrame {s : State} (hclock : s.clock.Consistent s.cfg) (hs : s.transmit.Consistent s.cfg)
    (hfree : s.sendReady = true) (b : Byte) : (s.armFrame b).transmit.Consistent s.cfg := by
  obtain ⟨-, hready, hle, hbits, -, hdelay⟩ := hs
  have hidle : s.txState = .idle := hready.mp hfree
  simp only [State.transmit, hidle] at hle hbits hdelay
  have htcnt : s.tcnt < s.cfg.bitPeriod := hclock.2
  simp_all [TransmitRegs.Consistent, State.transmit]

/-- ALARM and DELAY take an idle engine, with a compare value on the counter's circle and a count that fits
(41_transmit.md R130). -/
theorem transmit_armAlarm {s : State} (hvalid : s.cfg.valid = true) (hs : s.transmit.Consistent s.cfg)
    (hfree : s.sendReady = true) {ms : Half} (hfits : alarmOverflows s.cfg ms = false) :
    (s.armAlarm ms).transmit.Consistent s.cfg := by
  obtain ⟨-, hready, hle, hbits, -, -⟩ := hs
  have hidle : s.txState = .idle := hready.mp hfree
  simp only [State.transmit, hidle] at hle hbits
  have hP := bitPeriod_pos hvalid
  have hahead : s.ticksAhead (alarmRem s.cfg ms) < s.cfg.bitPeriod := Nat.mod_lt _ (by omega)
  have hwhole := alarmWhole_lt hfits
  simp_all [TransmitRegs.Consistent, State.transmit]

theorem clock_exec {i : Instr} {s t : State} (hinit : s.initialized = true) (hvalid : s.cfg.valid = true)
    (hs : s.clock.Consistent s.cfg) (h : exec i s = .next t) : t.clock.Consistent s.cfg := by
  have hP := bitPeriod_pos hvalid
  obtain ⟨hperiod, htcnt⟩ := hs
  simp only [State.clock] at hperiod htcnt
  cases i with
  | init =>
    obtain ⟨-, rfl⟩ | ⟨hnot, -⟩ := execInit_cases h
    · exact ⟨hperiod, htcnt⟩
    · simp [hinit] at hnot
  | tick line =>
    obtain ⟨-, rfl⟩ | ⟨hnot, -⟩ := execTick_cases h
    · rw [runTimer_eq]
      exact ⟨hperiod, (Nat.mod_lt _ (hperiod ▸ by omega : 0 < s.period)).trans_eq hperiod⟩
    · simp [hinit] at hnot
  | available | sendReady | send | recv | alarm | delay | edge | rxcmp | txcmp =>
    rw [(exec_frame h).clock rfl]
    exact ⟨hperiod, htcnt⟩

theorem transmit_exec {i : Instr} {s t : State} (hinit : s.initialized = true) (hvalid : s.cfg.valid = true)
    (hclock : s.clock.Consistent s.cfg) (hs : s.transmit.Consistent s.cfg) (h : exec i s = .next t) :
    t.transmit.Consistent s.cfg := by
  cases i with
  | init =>
    obtain ⟨-, rfl⟩ | ⟨hnot, -⟩ := execInit_cases h
    · exact hs
    · simp [hinit] at hnot
  | send b =>
    obtain ⟨-, hfree, rfl⟩ | ⟨-, -, rfl⟩ | ⟨-, rfl⟩ := execSend_cases h
    · exact transmit_armFrame hclock hs hfree b
    all_goals exact hs
  | alarm ms =>
    obtain ⟨-, -, rfl⟩ | ⟨-, hfits, hfree, rfl⟩ | ⟨-, -, -, rfl⟩ | ⟨-, rfl⟩ := execAlarm_cases h
    case inr.inl => exact transmit_armAlarm hvalid hs hfree hfits
    all_goals exact hs
  | delay ms =>
    obtain ⟨-, -, rfl⟩ | ⟨-, hfits, hfree, rfl⟩ | ⟨-, -, -, rfl⟩ | ⟨-, rfl⟩ := execDelay_cases h
    case inr.inl => exact transmit_armAlarm hvalid hs hfree hfits
    all_goals exact hs
  | txcmp => exact transmit_txcmp hs h
  | available | sendReady | recv | tick | edge | rxcmp =>
    rw [(exec_frame h).transmit rfl]
    exact hs

/-- RXCMP alone needs its source enabled: the dispatch runs it of a pending source only (60_exceptions.md R202). -/
theorem receive_exec {i : Instr} {s t : State} (hinit : s.initialized = true) (hvalid : s.cfg.valid = true)
    (hs : s.receive.Consistent s.cfg) (hrx : i = .rxcmp → s.rxIe = true) (h : exec i s = .next t) :
    t.receive.Consistent s.cfg := by
  cases i with
  | init =>
    obtain ⟨-, rfl⟩ | ⟨hnot, -⟩ := execInit_cases h
    · exact hs
    · simp [hinit] at hnot
  | recv =>
    obtain ⟨hocr, hle, hbits, hen, hedge, hst, hwf, hslots⟩ := hs
    obtain ⟨-, -, rfl⟩ | ⟨-, -, -, rfl⟩ | ⟨-, -, -, hslot, rfl⟩ | ⟨-, rfl⟩ := execRecv_cases h
    case inr.inr.inl =>
      exact ⟨hocr, hle, hbits, hen, hedge, hst, hwf, fun hmode => ⟨(hslots hmode).1, nextSlot_lt s s.rxTail hslot⟩⟩
    all_goals exact ⟨hocr, hle, hbits, hen, hedge, hst, hwf, hslots⟩
  | edge =>
    obtain ⟨-, hle, hbits, hen, hedge, hst, hwf, hslots⟩ := hs
    obtain rfl := Host.Outcome.next.inj ((execEdge_eq s).symm.trans h)
    have hP := bitPeriod_pos hvalid
    have hahead : s.ticksAhead s.cfg.halfBit < s.cfg.bitPeriod := Nat.mod_lt _ (by omega)
    exact ⟨hahead, hle, hbits, by simp [State.receive], by simp [State.receive], hst, hwf, hslots⟩
  | rxcmp => exact receive_rxcmp hs (hrx rfl) h
  | available | sendReady | send | alarm | delay | tick | txcmp =>
    rw [(exec_frame h).receive rfl]
    exact hs

/-- After INIT an instruction keeps each group consistent. -/
theorem invariant_exec {i : Instr} {s t : State} (hinv : Invariant s) (hinit : s.initialized = true)
    (hrx : i = .rxcmp → s.rxIe = true) (h : exec i s = .next t) : Invariant t := by
  obtain ⟨hvalid, hclock, htransmit, hreceive, hpend⟩ := (invariant_iff_of_initialized hinit).mp hinv
  rw [invariant_iff_of_initialized (exec_initialized h hinit), exec_cfg h]
  exact ⟨hvalid, clock_exec hinit hvalid hclock h, transmit_exec hinit hvalid hclock htransmit h,
    receive_exec hinit hvalid hreceive hrx h, pendingOnlyEnabled_exec hpend h⟩

theorem invariant_handler {src : IrqSource} {s t : State} (hinv : Invariant s) (hpend : s.pending src = true)
    (h : exec src.handler s = .next t) : Invariant t := by
  refine invariant_exec hinv (initialized_of_pending hinv hpend) (fun hi => ?_) h
  have hen := enabled_of_pending hinv hpend
  cases src with
  | rx => exact hen
  | edge | tx => cases hi

/-- INIT establishes the invariant on every group (70_reset_and_hazards.md R231). -/
theorem invariant_setup {s : State} (hvalid : s.cfg.valid = true) (hwf : s.rxBuf.wf = true) :
    Invariant s.setup.respondNothing := by
  obtain ⟨hP, -, -, hN⟩ := (params_valid_iff s.cfg).mp hvalid
  have hdraw (k : Nat) := draw_lt s k (n := s.cfg.bitPeriod) (by omega)
  have hslot (hmode : s.cfg.rxMode = .buffered) : 0 < s.cfg.rxBufSlots := by
    have htwo := hN hmode
    omega
  rw [invariant_iff_of_initialized (by simp)]
  simp +contextual [ClockRegs.Consistent, TransmitRegs.Consistent, ReceiveRegs.Consistent, State.clock,
    State.transmit, State.receive, PendingOnlyEnabled, State.setup_rxHead, State.setup_rxTail, *]

/-- Before INIT a TICK moves the samples, and a host command but INIT raises NotInitialized. -/
theorem invariant_exec_before_init {i : Instr} {s t : State} (hinv : Invariant s) (hinit : s.initialized = false)
    (hi : i.isHostCommand = true ∨ ∃ line, i = .tick line) (h : exec i s = .next t) : Invariant t := by
  obtain ⟨hvalid, hquiet, hwf⟩ := (invariant_iff_of_not_initialized hinit).mp hinv
  obtain hcmd | ⟨line, rfl⟩ := hi
  · by_cases hne : i = .init
    · subst hne
      obtain ⟨hnot, -⟩ | ⟨-, rfl⟩ := execInit_cases h
      · simp [hinit] at hnot
      · exact invariant_setup hvalid hwf
    · obtain rfl := Host.Outcome.next.inj ((exec_before_init hcmd hne hinit).symm.trans h)
      exact hinv
  · obtain rfl := Host.Outcome.next.inj ((exec_tick_before_init hinit line).symm.trans h)
    exact hinv

theorem invariant_exec_of_command_or_tick {i : Instr} {s t : State} (hinv : Invariant s)
    (hi : i.isHostCommand = true ∨ ∃ line, i = .tick line) (h : exec i s = .next t) : Invariant t := by
  cases hinit : s.initialized with
  | true =>
    refine invariant_exec hinv hinit (fun hrx => ?_) h
    subst hrx
    obtain hcmd | ⟨line, hline⟩ := hi
    · cases hcmd
    · cases hline
  | false => exact invariant_exec_before_init hinv hinit hi h

/-- DELAY's return is enabled inside a DELAY only, which no state before INIT is in. -/
theorem invariant_of_hostWait_none {s : State} (hinv : Invariant s) : Invariant { s with hostWait := .none } := by
  obtain ⟨hvalid, hquiet, hrest⟩ := hinv
  refine ⟨hvalid, fun hinit => ?_, hrest⟩
  obtain ⟨htx, hrx, hedge, htxp, hrxp, hedgep, -⟩ := hquiet hinit
  exact ⟨htx, hrx, hedge, htxp, hrxp, hedgep, rfl⟩

/-- Settles O56: by the cases of what a step can be; the words, lines and turns that a step takes, the response and the
fault record are in no part of the invariant. -/
theorem everyStepKeepsTheInvariant : Obligations.EveryStepKeepsTheInvariant := by
  intro s t hinv h
  obtain ⟨-, -, hstep⟩ := step_cases h
  obtain ⟨src, hsrc, handler⟩ | ⟨-, idle⟩ := hstep
  · exact invariant_handler hinv (nextIrq_eq_some hsrc) handler
  obtain ⟨line, ls, ts, d, tick⟩ | ⟨-, -, ts, d, rfl⟩ | ⟨-, w, rest, ts, d, -, word⟩ := idle
  · have hinv' : Invariant { s with lines := ls, turns := ts, draws := d } := hinv
    exact invariant_exec_of_command_or_tick hinv' (.inr ⟨line, rfl⟩) tick
  · exact invariant_of_hostWait_none (s := { s with turns := ts, draws := d }) hinv
  obtain ⟨i, hdecode, -, command⟩ | ⟨r, -, rfl⟩ := word
  · have hinv' : Invariant { s with host := rest, turns := ts, draws := d } := hinv
    exact invariant_exec_of_command_or_tick hinv' (.inl ((decodeHost_eq_instr_iff w i).mp hdecode).1) command
  · exact hinv

/-! Power-up and the reachable states -/

/-- Settles O55 by evaluating the invariant on the power-up state. -/
theorem invariantHoldsAtReset : Obligations.InvariantHoldsAtReset :=
  ⟨by decide, by decide, by decide, by decide, by decide, by decide, by decide⟩

/-- Settles O51: the power-up state has R230's values, in a valid block. -/
theorem resetIsAPowerUpState : Obligations.ResetIsAPowerUpState :=
  ⟨by constructor <;> decide, by decide⟩

theorem invariant_of_isPowerUp {s : State} (hup : IsPowerUp s) (hvalid : s.cfg.valid = true)
    (hwf : s.rxBuf.wf = true) : Invariant s :=
  (invariant_iff_of_not_initialized hup.initialized).mpr
    ⟨hvalid, fun _ => ⟨hup.txIe, hup.rxIe, hup.edgeIe, hup.txPend, hup.rxPend, hup.edgePend, hup.hostWait⟩, hwf⟩

/-- A run answers a next state exactly when its first step does and the rest of the run does. -/
theorem run_succ_eq_next {M : Host.Core} {n : Nat} {s t : M.State} :
    M.run (n + 1) s = .next t ↔ ∃ u, M.step s = .next u ∧ M.run n u = .next t := by
  rw [Host.Core.run]
  cases M.step s <;> simp

theorem invariant_run {n : Nat} {s t : State} (hinv : Invariant s) (h : Sys2Proof.core.run n s = .next t) :
    Invariant t := by
  induction n generalizing s with
  | zero =>
    obtain rfl := Host.Outcome.next.inj h
    exact hinv
  | succ n ih =>
    obtain ⟨u, hstep, hrun⟩ := run_succ_eq_next.mp h
    exact ih (everyStepKeepsTheInvariant s u hinv hstep) hrun

theorem one_le_nibble_iff (n : Nibble) : 1#4 ≤ n ↔ n ≠ 0#4 := by
  bv_omega

/-- Settles O59: the invariant holds at power-up and along the run, and after INIT it says the four invariants; an idle
engine has its channel disabled, so nothing of it is pending. -/
theorem reachableStatesMeetTheSpecsInvariants : Obligations.ReachableStatesMeetTheSpecsInvariants := by
  intro s0 s hup hvalid hwf ⟨n, hrun⟩ hinit
  have hinv := invariant_run (invariant_of_isPowerUp hup hvalid hwf) hrun
  obtain ⟨-, -, -, htransmit, hreceive, hpend, -⟩ := hinv
  obtain ⟨hready, hsend, hsendCount, hie, -⟩ := htransmit hinit
  obtain ⟨hrecv, hrecvCount, hen, hstart, -⟩ := hreceive hinit
  refine ⟨hready, ⟨hsend, hrecv, (one_le_nibble_iff _).trans hsendCount, (one_le_nibble_iff _).trans hrecvCount⟩,
    ⟨fun hidle => ?_, hie.mpr⟩, hen, hstart⟩
  have hoff : s.txIe = false := by
    simpa [hidle] using hie
  refine ⟨hoff, ?_⟩
  by_contra hp
  simp [hpend.1 (Bool.eq_true_of_not_eq_false hp)] at hoff

end Sys2Proof.Machine
end

section
/-! The circular buffer as a queue: its slots from the oldest byte to the newest, what a push and a pop do to them, and
that no queued slot is unwritten and no access meets a missing slot (20_memory.md R50 to R54, 10_state.md R41). -/

namespace Sys2Proof.Machine
open Sys2Proof Sys2Proof.Safety

/-! The queued slots -/

/-- The slots of the queued bytes, oldest first. -/
def queueSlots (s : State) : List Nat := (List.range s.queued).map (queueSlot s)

theorem queueBytes_eq_map (s : State) : queueBytes s = (queueSlots s).map s.memRead := by
  simp [queueBytes, queueSlots]

theorem queueWritten_iff (s : State) :
    QueueWritten s ↔
      (s.initialized = true → s.cfg.rxMode = .buffered → ∀ a ∈ queueSlots s, (s.rxBuf.read a).isSome = true) := by
  simp [QueueWritten, queueSlots]

/-- A slot less than a round ahead of the tail. -/
theorem queueSlot_eq {s : State} {k : Nat} (ht : s.rxTail < s.cfg.rxBufSlots) (hk : k < s.cfg.rxBufSlots) :
    queueSlot s k = if s.rxTail + k < s.cfg.rxBufSlots then s.rxTail + k else s.rxTail + k - s.cfg.rxBufSlots := by
  unfold queueSlot
  split
  · exact Nat.mod_eq_of_lt ‹_›
  · rw [Nat.mod_eq_sub_mod (by omega), Nat.mod_eq_of_lt (by omega)]

section
variable {s : State} (hh : s.rxHead < s.cfg.rxBufSlots) (ht : s.rxTail < s.cfg.rxBufSlots)
include hh ht

theorem queueSlot_queued : queueSlot s s.queued = s.rxHead := by
  rw [queueSlot_eq ht (queued_lt s (by omega)), queued_eq s hh ht]
  split <;> split <;> omega

/-- Every queued slot comes before the head. -/
theorem rxHead_notMem_queueSlots : s.rxHead ∉ queueSlots s := by
  intro hmem
  obtain ⟨k, hk, hslot⟩ := List.mem_map.mp hmem
  have hlt : k < s.queued := List.mem_range.mp hk
  have hq := queued_eq s hh ht
  rw [queueSlot_eq ht (hlt.trans (queued_lt s (by omega)))] at hslot
  split at hq <;> split at hslot <;> omega

theorem queued_bufPush (v : Byte) (hN : 2 ≤ s.cfg.rxBufSlots) :
    (s.bufPush v).queued = min (s.queued + 1) (s.cfg.rxBufSlots - 1) := by
  obtain ⟨hh', ht'⟩ := bufPush_slots s v hh ht
  rw [← State.bufPush_cfg s v] at hh' ht'
  rw [queued_eq (s.bufPush v) hh' ht', queued_eq s hh ht, State.bufPush_rxTail, State.bufPush_rxHead, State.bufPush_cfg,
    nextSlot_eq s s.rxHead hh, nextSlot_eq s s.rxTail ht]
  split_ifs <;> omega

/-- The head meets the tail exactly when the buffer was full (20_memory.md R53). -/
theorem nextSlot_head_eq_tail_iff : s.nextSlot s.rxHead = s.rxTail ↔ s.queued = s.cfg.rxBufSlots - 1 := by
  rw [nextSlot_eq s s.rxHead hh, queued_eq s hh ht]
  split_ifs <;> omega

/-- A push appends the head's slot and, on a full buffer, gives the oldest slot up. -/
theorem queueSlots_bufPush (v : Byte) (hN : 2 ≤ s.cfg.rxBufSlots) :
    queueSlots (s.bufPush v) =
      (if s.queued = s.cfg.rxBufSlots - 1 then (queueSlots s).drop 1 else queueSlots s) ++ [s.rxHead] := by
  have hlt := queued_lt s (by omega)
  have hhead := queueSlot_queued hh ht
  rw [queueSlots, queued_bufPush hh ht v hN]
  by_cases hfull : s.queued = s.cfg.rxBufSlots - 1
  case neg =>
    have htail : (s.bufPush v).rxTail = s.rxTail := by
      rw [State.bufPush_rxTail, if_neg (mt (nextSlot_head_eq_tail_iff hh ht).mp hfull)]
    have hslot : queueSlot (s.bufPush v) = queueSlot s := by
      funext k
      rw [queueSlot, queueSlot, htail, State.bufPush_cfg]
    rw [if_neg hfull, hslot, Nat.min_eq_left (by omega), List.range_succ, List.map_append, List.map_singleton, hhead,
      queueSlots]
  case pos =>
    have htail : (s.bufPush v).rxTail = s.nextSlot s.rxTail := by
      rw [State.bufPush_rxTail, if_pos ((nextSlot_head_eq_tail_iff hh ht).mpr hfull)]
    have hslot : queueSlot (s.bufPush v) = queueSlot s ∘ Nat.succ := by
      funext k
      rw [queueSlot, htail, State.bufPush_cfg, State.nextSlot, Nat.mod_add_mod, Function.comp_apply, queueSlot]
      congr 1
      omega
    obtain ⟨m, hm⟩ : ∃ m, s.queued = m + 1 := ⟨s.queued - 1, by omega⟩
    rw [if_pos hfull, hslot, queueSlots, Nat.min_eq_right (by omega), ← hfull]
    rw [hm] at hhead ⊢
    have hold : ((List.range (m + 1)).map (queueSlot s)).drop 1 = (List.range m).map (queueSlot s ∘ Nat.succ) := by
      rw [List.range_succ_eq_map, List.map_cons, List.drop_one, List.tail_cons, List.map_map]
    rw [hold, List.range_succ, List.map_append, List.map_singleton, Function.comp_apply, hhead]

/-- A pop gives the tail's slot up. -/
theorem queueSlots_bufPop (hone : 1 ≤ s.queued) : queueSlots s = s.rxTail :: queueSlots s.bufPop.2 := by
  have hlt := queued_lt s (by omega)
  have hslot : queueSlot s.bufPop.2 = queueSlot s ∘ Nat.succ := by
    funext k
    change (s.nextSlot s.rxTail + k) % s.cfg.rxBufSlots = (s.rxTail + (k + 1)) % s.cfg.rxBufSlots
    rw [State.nextSlot, Nat.mod_add_mod]
    congr 1
    omega
  have hcount : s.queued = s.bufPop.2.queued + 1 := by
    have hpop := queued_eq s.bufPop.2 hh (nextSlot_lt s s.rxTail ht)
    rw [queued_eq s hh ht] at hone ⊢
    rw [hpop]
    change _ = (if s.nextSlot s.rxTail ≤ s.rxHead then s.rxHead - s.nextSlot s.rxTail
      else s.rxHead + s.cfg.rxBufSlots - s.nextSlot s.rxTail) + 1
    rw [nextSlot_eq s s.rxTail ht]
    split_ifs at hone ⊢ <;> omega
  rw [queueSlots, queueSlots, hslot, hcount, List.range_succ_eq_map, List.map_cons, List.map_map, queueSlot,
    Nat.add_zero, Nat.mod_eq_of_lt ht]

end

theorem memRead_bufPush (s : State) (v : Byte) (a : Nat) :
    (s.bufPush v).memRead a = if a = s.rxHead then v else s.memRead a := by
  rw [← state_memRead_memWrite, State.memRead, State.bufPush_rxBuf]
  rfl

/-- Settles O34: the slots after a push (`queueSlots_bufPush`) are read as before, but for the head's, which no queued
byte was in and which holds the new one. -/
theorem pushKeepsTheNewestBytes : Obligations.PushKeepsTheNewestBytes := by
  intro s v hN hh ht
  refine ⟨queued_bufPush hh ht v hN, ?_⟩
  have hkeep : (queueSlots s).map (s.bufPush v).memRead = (queueSlots s).map s.memRead := by
    refine List.map_congr_left fun a ha => ?_
    rw [memRead_bufPush, if_neg (ne_of_mem_of_not_mem ha (rxHead_notMem_queueSlots hh ht))]
  have hnew : (s.bufPush v).memRead s.rxHead = v := by
    rw [memRead_bufPush, if_pos rfl]
  rw [queueBytes_eq_map, queueBytes_eq_map, queueSlots_bufPush hh ht v hN, List.map_append, List.map_singleton, hnew]
  split
  · rw [List.map_drop, hkeep]
  · rw [hkeep]

/-- Settles O35: the tail's slot is the first queued one, and a pop writes none (`queueSlots_bufPop`). -/
theorem popTakesTheOldestByte : Obligations.PopTakesTheOldestByte := by
  intro s hh ht hone
  refine ⟨?_, rfl⟩
  rw [queueBytes_eq_map, queueSlots_bufPop hh ht hone, List.map_cons, queueBytes_eq_map]
  rfl

/-! No queued slot is unwritten -/

/-- The written slots are a matter of the buffer and its indices in a block after INIT. -/
theorem queueWritten_of_eq {s t : State} (hs : QueueWritten s) (hcfg : t.cfg = s.cfg) (hbuf : t.rxBuf = s.rxBuf)
    (hhead : t.rxHead = s.rxHead) (htail : t.rxTail = s.rxTail) (hinit : t.initialized = s.initialized) :
    QueueWritten t := by
  intro ht hmode k hk
  simp only [State.queued, queueSlot, hcfg, hbuf, hhead, htail] at hk hmode ⊢
  exact hs (hinit.symm.trans ht) hmode k hk

theorem queueWritten_bufPush {s : State} (hs : QueueWritten s) (hN : 2 ≤ s.cfg.rxBufSlots)
    (hh : s.rxHead < s.cfg.rxBufSlots) (ht : s.rxTail < s.cfg.rxBufSlots) (v : Byte) : QueueWritten (s.bufPush v) := by
  rw [queueWritten_iff] at hs ⊢
  intro hinit hmode a ha
  rw [State.bufPush_initialized] at hinit
  rw [State.bufPush_cfg] at hmode
  rw [State.bufPush_rxBuf]
  by_cases hhead : a = s.rxHead
  · rw [hhead, memory_read_write_same, Option.isSome_some]
  rw [memory_read_write_other _ _ _ _ hhead]
  rw [queueSlots_bufPush hh ht v hN, List.mem_append, List.mem_singleton] at ha
  refine hs hinit hmode a ?_
  obtain hold | hnew := ha
  · split at hold
    · exact List.mem_of_mem_drop hold
    · exact hold
  · exact absurd hnew hhead

theorem queueWritten_bufPop {s : State} (hs : QueueWritten s) (hh : s.rxHead < s.cfg.rxBufSlots)
    (ht : s.rxTail < s.cfg.rxBufSlots) (hne : s.rxHead ≠ s.rxTail) : QueueWritten s.bufPop.2 := by
  rw [queueWritten_iff] at hs ⊢
  have hone : 1 ≤ s.queued := Nat.one_le_iff_ne_zero.mpr (mt (queued_eq_zero_iff s hh ht).mp hne)
  intro hinit hmode a ha
  refine hs hinit hmode a ?_
  rw [queueSlots_bufPop hh ht hone]
  exact List.mem_cons_of_mem _ ha

/-- INIT leaves no byte queued. -/
theorem queueWritten_setup (s : State) : QueueWritten s.setup.respondNothing := by
  intro _ hmode k hk
  simp_all [State.queued, State.setup_rxHead, State.setup_rxTail]

theorem slots_of_invariant {s : State} (hinv : Invariant s) (hinit : s.initialized = true)
    (hmode : s.cfg.rxMode = .buffered) :
    2 ≤ s.cfg.rxBufSlots ∧ s.rxHead < s.cfg.rxBufSlots ∧ s.rxTail < s.cfg.rxBufSlots := by
  obtain ⟨hvalid, -, -, -, -, -, -, hslots⟩ := hinv
  exact ⟨((params_valid_iff s.cfg).mp hvalid).2.2.2 hmode, hslots hinit hmode⟩

theorem queueWritten_exec {i : Instr} {s t : State} (hinv : Invariant s) (hs : QueueWritten s)
    (hrx : i = .rxcmp → s.initialized = true) (h : exec i s = .next t) : QueueWritten t := by
  cases i with
  | init =>
    obtain ⟨-, rfl⟩ | ⟨-, rfl⟩ := execInit_cases h
    · exact hs
    · exact queueWritten_setup s
  | recv =>
    obtain ⟨-, -, rfl⟩ | ⟨-, -, -, rfl⟩ | ⟨hinit, hbyte, hmode, -, rfl⟩ | ⟨-, rfl⟩ := execRecv_cases h
    case inr.inr.inl =>
      obtain ⟨-, hh, ht⟩ := slots_of_invariant hinv hinit hmode
      have hne : s.rxHead ≠ s.rxTail := by
        simpa [receiveEmpty_of_buffered hmode] using hbyte
      exact queueWritten_bufPop hs hh ht hne
    all_goals exact hs
  | edge =>
    obtain rfl := Host.Outcome.next.inj ((execEdge_eq s).symm.trans h)
    exact hs
  | rxcmp =>
    obtain ⟨-, rfl⟩ | ⟨-, -, rfl⟩ | ⟨-, -, -, rfl⟩ | ⟨-, -, -, rfl⟩ | ⟨-, -, rfl⟩ | ⟨-, -, -, rfl⟩ |
      ⟨-, -, hmode, -, rfl⟩ := execRxcmp_cases h
    case inr.inr.inr.inr.inr.inr =>
      obtain ⟨hN, hh, ht⟩ := slots_of_invariant hinv (hrx rfl) hmode
      have hpush := queueWritten_bufPush (s := s.clearPending .rx) hs hN hh ht s.recvShift
      exact queueWritten_of_eq hpush (by simp) (by simp) (by simp) (by simp) (by simp)
    all_goals exact queueWritten_of_eq hs (by simp) (by simp) (by simp) (by simp) (by simp)
  | available | sendReady | send | alarm | delay | tick | txcmp =>
    have hreceive := (exec_frame h).receive rfl
    exact queueWritten_of_eq hs (exec_cfg h) (congrArg ReceiveRegs.rxBuf hreceive)
      (congrArg ReceiveRegs.rxHead hreceive) (congrArg ReceiveRegs.rxTail hreceive) (exec_initialized_eq h nofun)

/-- Settles O58: by the cases of what a step can be; only a commit, a pop and INIT move the queue. -/
theorem everyStepKeepsQueuedSlotsWritten : Obligations.EveryStepKeepsQueuedSlotsWritten := by
  intro s t hinv hs h
  obtain ⟨-, -, hstep⟩ := step_cases h
  obtain ⟨src, hsrc, handler⟩ | ⟨-, idle⟩ := hstep
  · exact queueWritten_exec hinv hs (fun _ => initialized_of_pending hinv (nextIrq_eq_some hsrc)) handler
  obtain ⟨line, ls, ts, d, tick⟩ | ⟨-, -, ts, d, rfl⟩ | ⟨-, w, rest, ts, d, -, word⟩ := idle
  · exact queueWritten_exec (i := .tick line) (s := { s with lines := ls, turns := ts, draws := d }) hinv hs nofun tick
  · exact hs
  obtain ⟨i, hdecode, -, command⟩ | ⟨r, -, rfl⟩ := word
  · refine queueWritten_exec (s := { s with host := rest, turns := ts, draws := d }) hinv hs (fun hi => ?_) command
    have hcmd := ((decodeHost_eq_instr_iff w i).mp hdecode).1
    simp [hi, Instr.isHostCommand] at hcmd
  · exact hs

/-! No access meets a missing slot -/

theorem command_answers {i : Instr} {s : State} (hcmd : i.isHostCommand = true) (hne : i ≠ .init)
    (h : s.initialized = true → ∃ t, exec i s = .next t) : ∃ t, exec i s = .next t := by
  cases hinit : s.initialized with
  | true => exact h hinit
  | false => exact ⟨_, exec_before_init hcmd hne hinit⟩

theorem send_answers {s : State} (hinit : s.initialized = true) (b : Byte) : ∃ t, exec (.send b) s = .next t := by
  cases hready : s.sendReady with
  | true => exact ⟨_, exec_send_of_ready hinit hready b⟩
  | false => exact ⟨_, exec_send_of_not_ready hinit hready b⟩

theorem alarmBody_answers (ms : Half) (s : State) (after : State → State) : ∃ t, alarmBody ms s after = .next t := by
  cases hfits : alarmOverflows s.cfg ms with
  | true => exact ⟨_, alarmBody_eq_next.mpr (.inl ⟨hfits, rfl⟩)⟩
  | false =>
    cases hready : s.sendReady with
    | true => exact ⟨_, alarmBody_of_ready hfits hready after⟩
    | false => exact ⟨_, alarmBody_of_not_ready hfits hready after⟩

theorem recv_answers {s : State} (hinv : Invariant s) (hinit : s.initialized = true) :
    ∃ t, exec .recv s = .next t := by
  cases hempty : s.receiveEmpty with
  | true => exact ⟨_, (recv_waits hinit hempty).2⟩
  | false =>
    cases hmode : s.cfg.rxMode with
    | unbuffered => exact ⟨_, (recv_takes hinit hempty (takeByte_of_unbuffered hmode)).2⟩
    | buffered =>
      obtain ⟨-, -, hslot⟩ := slots_of_invariant hinv hinit hmode
      exact ⟨_, (recv_takes hinit hempty (takeByte_of_buffered hmode hslot)).2⟩

theorem commit_answers {s : State} (hslot : s.cfg.rxMode = .buffered → s.rxHead < s.cfg.rxBufSlots) (v : Byte) :
    ∃ t, commit v s = .next t := by
  cases hmode : s.cfg.rxMode with
  | unbuffered => exact ⟨_, commit_of_unbuffered hmode v⟩
  | buffered => exact ⟨_, commit_of_buffered hmode (hslot hmode) v⟩

theorem rxcmp_answers {s : State} (hinv : Invariant s) (hinit : s.initialized = true) :
    ∃ t, exec .rxcmp s = .next t := by
  cases hst : s.rxState with
  | waitStart => exact ⟨_, exec_rxcmp_of_start (.inl hst)⟩
  | startBit => exact ⟨_, exec_rxcmp_of_start (.inr hst)⟩
  | dataBits =>
    rw [exec_rxcmp_of_dataBits hst]
    by_cases hbits : s.recvBits = 0#4
    · exact ⟨_, rxDataBits_of_zero (s := s.clearPending .rx) hbits _⟩
    · exact ⟨_, rxDataBits_of_ne_zero (s := s.clearPending .rx) hbits _⟩
  | waitStopHigh =>
    obtain hlow | hhigh := BitVec.eq_zero_or_eq_one s.rxCur
    · exact ⟨_, exec_rxcmp_of_low_stop hst hlow⟩
    · obtain ⟨u, hu⟩ := commit_answers (s := s.clearPending .rx)
        (fun hmode => (slots_of_invariant hinv hinit hmode).2.1) s.recvShift
      exact ⟨_, exec_rxcmp_of_high_stop hst hhigh hu⟩

theorem txcmp_answers (s : State) : ∃ t, exec .txcmp s = .next t := by
  cases hst : s.txState with
  | idle => exact ⟨_, exec_txcmp_of_idle hst⟩
  | startBit => exact ⟨_, exec_txcmp_of_startBit hst⟩
  | dataBits =>
    rw [exec_txcmp_of_dataBits hst]
    by_cases hbits : s.sendBits = 0#4
    · exact ⟨_, txDataBits_of_zero (s := s.clearPending .tx) hbits⟩
    · exact ⟨_, txDataBits_of_ne_zero (s := s.clearPending .tx) hbits⟩
  | stopBit => exact ⟨_, exec_txcmp_of_stopBit hst⟩
  | returnIdle => exact ⟨_, exec_txcmp_of_returnIdle hst⟩
  | timedDelay =>
    rw [exec_txcmp_of_timedDelay hst]
    by_cases hdelay : s.delay = 0
    · exact ⟨_, txTimedDelay_of_zero (s := s.clearPending .tx) hdelay⟩
    · exact ⟨_, txTimedDelay_of_ne_zero (s := s.clearPending .tx) hdelay⟩

/-- With the indices in range every instruction answers a next state: the stop at a missing slot is the only other
answer (20_memory.md R50). -/
theorem exec_answers {i : Instr} {s : State} (hinv : Invariant s) (hrx : i = .rxcmp → s.initialized = true) :
    ∃ t, exec i s = .next t := by
  cases i with
  | init =>
    cases hinit : s.initialized with
    | true => exact ⟨_, exec_init_after_init hinit⟩
    | false => exact ⟨_, exec_init_before_init hinit⟩
  | tick line => exact ⟨_, rfl⟩
  | edge => exact ⟨_, execEdge_eq s⟩
  | rxcmp => exact rxcmp_answers hinv (hrx rfl)
  | txcmp => exact txcmp_answers s
  | available | sendReady => exact command_answers rfl nofun fun hinit => ⟨_, needsInit_of_initialized hinit _ _⟩
  | send b => exact command_answers rfl nofun fun hinit => send_answers hinit b
  | recv => exact command_answers rfl nofun (recv_answers hinv)
  | alarm ms =>
    exact command_answers rfl nofun fun hinit => by
      rw [exec_alarm_after_init hinit]
      exact alarmBody_answers ms s id
  | delay ms =>
    exact command_answers rfl nofun fun hinit => by
      rw [exec_delay_after_init hinit]
      exact alarmBody_answers ms s State.enterDelay

/-- A step that answers no next state is refused, stopped by a recorded fault, or an instruction's own stop. -/
theorem step_eq_fault_cases {s : State} {f : Fault} (h : step s = .fault f) :
    (∃ k, f = .recorded k) ∨ (∃ src, s.nextIrq = some src ∧ exec src.handler s = .fault f) ∨
    (∃ i hs ls ts d, (i.isHostCommand = true ∨ ∃ line, i = .tick line) ∧
      exec i { s with host := hs, lines := ls, turns := ts, draws := d } = .fault f) := by
  unfold step fetch at h
  split_ifs at h
  by_cases hf : s.fault = none
  case neg =>
    obtain ⟨k, hf⟩ := Option.ne_none_iff_exists'.mp hf
    rw [hf] at h
    exact .inl ⟨k, (Host.Outcome.fault.inj h).symm⟩
  case pos =>
    rw [hf] at h
    cases hi : s.nextIrq with
    | some src =>
      rw [hi] at h
      exact .inr (.inl ⟨src, rfl, h⟩)
    | none =>
      rw [hi] at h
      obtain ⟨line, ls, ts, d, he⟩ | ⟨-, -, ts, d, he⟩ | ⟨-, w, rest, ts, d, -, he⟩ := fetchIdle_cases s
      · simp only [he] at h
        exact .inr (.inr ⟨_, s.host, ls, ts, d, .inr ⟨line, rfl⟩, h⟩)
      · simp only [he] at h
        cases h
      obtain ⟨i, hdecode, -, he⟩ | ⟨r, -, he⟩ := he
      · simp only [he] at h
        exact .inr (.inr ⟨i, rest, s.lines, ts, d, .inl ((decodeHost_eq_instr_iff w i).mp hdecode).1, h⟩)
      · simp only [he] at h
        cases h

/-- Settles O57: from the invariant the dispatched handler and every other instruction answer a next state
(`exec_answers`). -/
theorem invariantExcludesMissingSlots : Obligations.InvariantExcludesMissingSlots := by
  intro s k hinv h
  obtain ⟨j, hj⟩ | ⟨src, hsrc, handler⟩ | ⟨i, hs, ls, ts, d, hi, hexec⟩ := step_eq_fault_cases h
  · cases hj
  · obtain ⟨t, ht⟩ := exec_answers (i := src.handler) hinv fun _ => initialized_of_pending hinv (nextIrq_eq_some hsrc)
    simp [ht] at handler
  · have hne : i ≠ .rxcmp := by
      rintro rfl
      obtain hcmd | ⟨line, hline⟩ := hi
      · cases hcmd
      · cases hline
    obtain ⟨t, ht⟩ := exec_answers (i := i) (s := { s with host := hs, lines := ls, turns := ts, draws := d }) hinv
      fun hrx => absurd hrx hne
    simp [ht] at hexec

/-! What the stop at a missing slot and the wide count answer (notes/assumptions/16.md, 18.md) -/

/-- Settles O37: AVAILABLE has the INIT check only, and answers some value whatever the count. -/
theorem availableAnswersACountOfAnySize : Obligations.AvailableAnswersACountOfAnySize :=
  fun s hinit _ _ => ⟨zextCount s.availableCount, exec_available_after_init hinit⟩

theorem atSlot_of_missing {i : Nat} {s : State} (h : s.cfg.rxBufSlots ≤ i) (k : Answer) :
    atSlot i s k = .fault (.noSuchSlot i) :=
  if_neg (Nat.not_lt_of_le h)

/-- Settles O39: in Buffered mode the commit and the pop go through `atSlot`. -/
theorem missingSlotStopsTheCommitAndThePop : Obligations.MissingSlotStopsTheCommitAndThePop := by
  refine fun s hmode => ⟨fun hst hhigh hslot => ?commit, fun hinit hne hslot => ?pop⟩
  case commit =>
    have hcommit : commit s.recvShift (s.clearPending .rx) = .fault (.noSuchSlot s.rxHead) := by
      simp [commit, hmode, atSlot_of_missing (s := s.clearPending .rx) hslot]
    rw [exec_rxcmp_of_waitStopHigh hst, hhigh, rxWaitStopHigh_of_high, State.clearPending_recvShift, hcommit,
      andThen_fault]
  case pop =>
    have hbyte : s.receiveEmpty = false := by
      rw [receiveEmpty_of_buffered hmode, decide_eq_false hne]
    have htake : takeByte s = .fault (.noSuchSlot s.rxTail) := by
      simp [takeByte, hmode, atSlot_of_missing hslot]
    exact (recv_takes hinit hbyte htake).2

end Sys2Proof.Machine
end

section
/-! Whose step is next: HOST's word, TIMER's line value, DELAY's return, a held command and a placed word
(40_timer.md R110, R111, 60_exceptions.md R202, R204). -/

namespace Sys2Proof.Machine
open Sys2Proof Sys2Proof.Safety

/-- Settles O3: the fetch takes the word and its turn (`step_of_decoded_word`). -/
theorem hostStepRunsDecodedWord : Obligations.HostStepRunsDecodedWord :=
  fun _ _ _ _ => step_of_decoded_word

/-! TIMER's step -/

theorem takeLine_of_loopback {s : State} (h : s.cfg.loopback = true) : s.takeLine = (s.txd, s) := by
  simp [State.takeLine, h]

theorem takeLine_of_given {s : State} {line : Bit} {rest : List Bit} (h : s.cfg.loopback = false)
    (hlines : s.lines = line :: rest) : s.takeLine = (line, { s with lines := rest }) := by
  simp [State.takeLine, h, hlines]

theorem takeLine_of_free {s : State} (h : s.cfg.loopback = false) (hlines : s.lines = []) :
    s.takeLine = (Config.freeLine s.draws, { s with draws := s.draws + 1 }) := by
  simp [State.takeLine, h, hlines]

/-- ENV's line value for a TICK taken on `u`: `txd` in loopback, else the next given one, else a free one. -/
theorem exec_takeLine (u : State) :
    (u.cfg.loopback = true → exec (.tick u.takeLine.1) u.takeLine.2 = exec (.tick u.txd) u) ∧
    (u.cfg.loopback = false → ∀ line rest, u.lines = line :: rest →
      exec (.tick u.takeLine.1) u.takeLine.2 = exec (.tick line) { u with lines := rest }) ∧
    (u.cfg.loopback = false → u.lines = [] →
      exec (.tick u.takeLine.1) u.takeLine.2 =
        exec (.tick (Config.freeLine u.draws)) { u with draws := u.draws + 1 }) :=
  ⟨fun h => by rw [takeLine_of_loopback h], fun h _ _ hlines => by rw [takeLine_of_given h hlines],
    fun h hlines => by rw [takeLine_of_free h hlines]⟩

theorem fetch_of_settled {s : State} (hvalid : s.cfg.valid = true) (hset : Settled s) : fetch s = fetchIdle s := by
  obtain ⟨hfault, hpend⟩ := hset
  simp [fetch, hvalid, hfault, nextIrq_eq_none.mpr hpend]

/-- Where no HOST step is enabled, TIMER steps. -/
theorem step_of_no_host {s : State} (hvalid : s.cfg.valid = true) (hset : Settled s) (hhost : s.hostEnabled = false) :
    step s = exec (.tick s.takeLine.1) s.takeLine.2 := by
  simp [step, fetch_of_settled hvalid hset, fetchIdle, hhost, fetchTick]

/-- Where the host could step too, TIMER steps on its turn. -/
theorem step_of_timer_turn {s u : State} (hvalid : s.cfg.valid = true) (hset : Settled s)
    (hhost : s.hostEnabled = true) (hturn : s.takeTurn = (.timer, u)) :
    step s = exec (.tick u.takeLine.1) u.takeLine.2 := by
  simp [step, fetch_of_settled hvalid hset, fetchIdle, hhost, hturn, fetchTick]

/-- Settles O5: where no HOST step is enabled the step is TIMER's, with ENV's line value (`exec_takeLine`). -/
theorem timerStepTakesTheEnvironmentsLine : Obligations.TimerStepTakesTheEnvironmentsLine := by
  intro s hvalid hset hhost
  rw [step_of_no_host hvalid hset hhost]
  exact exec_takeLine s

theorem takeTurn_of_given {s : State} {turn : Turn} {rest : List Turn} (h : s.turns = turn :: rest) :
    s.takeTurn = (turn, { s with turns := rest }) := by
  simp [State.takeTurn, h]

theorem takeTurn_of_free {s : State} (h : s.turns = []) :
    s.takeTurn = (Config.freeTurn s.draws, { s with draws := s.draws + 1 }) := by
  simp [State.takeTurn, h]

/-- Settles O6: TIMER's turn gives the same TICK, on the state that has lost the turn alone (`takeTurn_eq`). -/
theorem timerMayGoBeforeTheHost : Obligations.TimerMayGoBeforeTheHost := by
  refine ⟨fun s => ⟨fun _ _ => takeTurn_of_given, takeTurn_of_free⟩, fun s u hvalid hset hhost hturn => ?_⟩
  rw [step_of_timer_turn hvalid hset hhost hturn]
  obtain ⟨ts, d, hu⟩ := takeTurn_eq s
  rw [hturn] at hu
  subst hu
  exact exec_takeLine { s with turns := ts, draws := d }

/-! DELAY's return and a held command -/

theorem hostEnabled_of_delayWait {s : State} (hwait : s.hostWait = .delayWait) : s.hostEnabled = s.sendReady := by
  simp [State.hostEnabled, hwait]

theorem step_of_delayReturn {s : State} (hvalid : s.cfg.valid = true) (hset : Settled s)
    (hwait : s.hostWait = .delayWait) (hready : s.sendReady = true) (hturn : s.takeTurn.1 = .host) :
    step s = .next { s.takeTurn.2 with hostWait := .none } := by
  have hfetch : fetch s = .leaveDelay s.takeTurn.2 := by
    simp [fetch_of_settled hvalid hset, fetchIdle, hostEnabled_of_delayWait hwait, hready, hturn, fetchHost, hwait]
  simp [step, hfetch, delayReturn]

/-- Settles O25: inside a DELAY a HOST step is DELAY's return; while it is not enabled TIMER's step takes no word. -/
theorem delayReturnIsTheOnlyHostStep : Obligations.DelayReturnIsTheOnlyHostStep := by
  intro s hvalid hset hwait
  refine ⟨by rw [hostEnabled_of_delayWait hwait], step_of_delayReturn hvalid hset hwait, fun hbusy => ?_⟩
  obtain ⟨ls, d, hline⟩ := takeLine_eq s
  exact ⟨_, _, step_of_no_host hvalid hset ((hostEnabled_of_delayWait hwait).trans hbusy), by rw [hline],
    by rw [hline]; exact hwait⟩

/-- A command that holds has passed its own checks, and answers the state as it is (60_exceptions.md R204). -/
theorem exec_of_holds {i : Instr} {s : State} (h : s.holds i = true) : exec i s = .next s := by
  cases i with
  | send b =>
    simp only [State.holds, Bool.and_eq_true, Bool.not_eq_true'] at h
    exact exec_send_of_not_ready h.1 h.2 b
  | recv =>
    simp only [State.holds, Bool.and_eq_true] at h
    exact (recv_waits h.1 h.2).2
  | alarm ms =>
    simp only [State.holds, Bool.and_eq_true, Bool.not_eq_true'] at h
    exact (delay_waits (.inl rfl) h.1.1 h.1.2 h.2).2
  | delay ms =>
    simp only [State.holds, Bool.and_eq_true, Bool.not_eq_true'] at h
    exact (delay_waits (.inr rfl) h.1.1 h.1.2 h.2).2
  | init | available | sendReady | tick | edge | rxcmp | txcmp => cases h

theorem hostEnabled_of_holds {s : State} {w : Word} {rest : List Word} {i : Instr} (hwait : s.hostWait = .none)
    (hhost : s.host = w :: rest) (hdecode : decodeHost w = .instr i) (hholds : s.holds i = true) :
    s.hostEnabled = false := by
  simp [State.hostEnabled, hwait, hhost, State.wordEnabled, hdecode, hholds]

/-- Settles O26: a held word enables no HOST step, so TIMER steps, and its line value is all that is taken. -/
theorem heldCommandWaitsWhileTimeRuns : Obligations.HeldCommandWaitsWhileTimeRuns := by
  intro s w rest i hvalid hset hwait hhost hdecode hholds
  refine ⟨exec_of_holds hholds, _, _, step_of_no_host hvalid hset (hostEnabled_of_holds hwait hhost hdecode hholds), ?_⟩
  obtain ⟨ls, d, hline⟩ := takeLine_eq s
  rw [hline]
  exact ⟨hhost, rfl, rfl, rfl, rfl, rfl⟩

/-! A placed word (notes/assumptions/10.md) -/

theorem tableWord_toNat (w : Word) : tableWord 32 w.toNat = some w := by
  have hlt : 32 ≤ 32 ∧ w.toNat < 2 ^ 32 := ⟨le_rfl, w.isLt⟩
  rw [tableWord, if_pos hlt, BitVec.ofNat_toNat, BitVec.setWidth_eq]

theorem withFetchWord_of_decoded {s : State} {w : Word} {i : Instr} (h : decodeWord w = .instr i) :
    s.withFetchWord 32 w.toNat = s.placeInstr i := by
  simp [State.withFetchWord, State.placeTableWord, tableWord_toNat, h]

/-- The dispatch takes the one source that is pending. -/
theorem step_of_placed_handler {s : State} {src : IrqSource} (hvalid : s.cfg.valid = true) :
    step (s.quieted.setPending src) = exec src.handler (s.quieted.setPending src) := by
  cases src <;> simp [step, fetch, State.quieted, hvalid, State.nextIrq]

/-- A placed host word comes first in the list, with HOST's turn. -/
theorem step_of_placed_host_word {s : State} {i : Instr} (hvalid : s.cfg.valid = true) (hcmd : i.isHostCommand = true)
    (hholds : (s.placeHostWord (encode i)).holds i = false) :
    step (s.placeHostWord (encode i)) = exec i { s.quieted with hostWait := .none } :=
  step_of_decoded_word (rest := s.host) ⟨hvalid, ⟨rfl, rfl, rfl, rfl⟩, rfl, rfl, rfl⟩
    ((decodeHost_eq_instr_iff _ _).mpr ⟨hcmd, rfl⟩) hholds

/-- The first part of a TICK's placing: its line value, on the pin in loopback, else first in the list. -/
def State.withLine (s : State) (line : Bit) : State :=
  if s.cfg.loopback then { s with txd := line } else { s with lines := line :: s.lines }

/-- The second part: TIMER's turn, where the host could step. -/
def State.withTimerFirst (s : State) : State :=
  if s.hostEnabled then { s with turns := .timer :: s.turns } else s

theorem placeTick_eq (s : State) (line : Bit) : s.placeTick line = (s.quieted.withLine line).withTimerFirst := rfl

theorem takeLine_withLine (s : State) (line : Bit) :
    (s.withLine line).takeLine = (line, { s with txd := if s.cfg.loopback then line else s.txd }) := by
  cases hloop : s.cfg.loopback <;> simp [State.withLine, State.takeLine, hloop]

theorem step_withTimerFirst {s : State} (hvalid : s.cfg.valid = true) (hset : Settled s) :
    step s.withTimerFirst = exec (.tick s.takeLine.1) s.takeLine.2 := by
  cases hhost : s.hostEnabled with
  | true =>
    rw [State.withTimerFirst, if_pos hhost]
    exact step_of_timer_turn (u := s) hvalid hset hhost rfl
  | false =>
    rw [State.withTimerFirst, hhost]
    exact step_of_no_host hvalid hset hhost

theorem step_of_placed_tick {s : State} (line : Bit) (hvalid : s.cfg.valid = true) :
    step (s.placeTick line) = exec (.tick line) { s.quieted with txd := if s.cfg.loopback then line else s.txd } := by
  have hplaced : (s.quieted.withLine line).cfg = s.cfg ∧ Settled (s.quieted.withLine line) := by
    unfold State.withLine
    split <;> exact ⟨rfl, rfl, rfl, rfl, rfl⟩
  obtain ⟨hcfg, hset⟩ := hplaced
  rw [placeTick_eq, step_withTimerFirst (hcfg ▸ hvalid) hset, takeLine_withLine]
  rfl

theorem placedState_handler (src : IrqSource) (s : State) :
    placedState src.handler s = s.quieted.setPending src := by
  cases src <;> simp [placedState, IrqSource.handler, placedLine, Instr.isHostCommand, State.quieted, State.setPending]

theorem placedState_tick (line : Bit) (s : State) :
    placedState (.tick line) s = { s.quieted with txd := if s.cfg.loopback then line else s.txd } := by
  simp [placedState, placedLine, Instr.isHostCommand, State.quieted]

theorem placedState_hostCommand {i : Instr} (hcmd : i.isHostCommand = true) (s : State) :
    placedState i s = { s.quieted with hostWait := .none } := by
  cases i with
  | tick | edge | rxcmp | txcmp => cases hcmd
  | init | available | sendReady | send | recv | alarm | delay =>
    simp [placedState, placedLine, Instr.isHostCommand, State.quieted]

/-- Settles O4: what is placed is what the next fetch takes, and `placedState` is the state it is taken in. -/
theorem placedWordIsRunNext : Obligations.PlacedWordIsRunNext := by
  intro s w i hvalid hdecode hholds
  rw [withFetchWord_of_decoded hdecode] at hholds ⊢
  cases i with
  | edge => exact (placedState_handler .edge s).symm ▸ step_of_placed_handler hvalid
  | rxcmp => exact (placedState_handler .rx s).symm ▸ step_of_placed_handler hvalid
  | txcmp => exact (placedState_handler .tx s).symm ▸ step_of_placed_handler hvalid
  | tick line => exact (placedState_tick line s).symm ▸ step_of_placed_tick line hvalid
  | init | available | sendReady | send | recv | alarm | delay =>
    rw [placedState_hostCommand rfl]
    exact step_of_placed_host_word hvalid rfl hholds

end Sys2Proof.Machine
end

section
/-! TXCMP as one update of the transmit group, INIT from power-up, and a settled TICK as machine steps
(41_transmit.md R121, 70_reset_and_hazards.md R230, 40_timer.md R111, 60_exceptions.md R202). -/

namespace Sys2Proof.Machine
open Sys2Proof Sys2Proof.Safety

/-! TXCMP on the transmit group -/

/-- The transmit group after a match of its channel (41_transmit.md R122 to R127). -/
def TransmitRegs.afterMatch (r : TransmitRegs) : TransmitRegs :=
  match r.txState with
  | .idle => r
  | .startBit => { r with txd := 0#1, sendBits := 8#4, txState := .dataBits }
  | .dataBits =>
    { r with
      txd := bitAt r.sendByte 0, sendByte := shiftOut r.sendByte, sendBits := r.sendBits - 1#4,
      txState := if r.sendBits = 1#4 then .stopBit else .dataBits }
  | .stopBit => { r with txd := 1#1, txState := .returnIdle }
  | .returnIdle => { r with sendReady := true, txState := .idle, txIe := false }
  | .timedDelay =>
    if r.delay = 0 then { r with sendReady := true, txState := .idle, txIe := false }
    else { r with delay := r.delay - 1 }

/-- The state with the transmit group `r` and TXCMP's flag cleared. -/
def State.withTransmit (s : State) (r : TransmitRegs) : State :=
  { s with
    txPend := false, ocrTx := r.ocrTx, txIe := r.txIe, txState := r.txState, sendReady := r.sendReady,
    sendByte := r.sendByte, sendBits := r.sendBits, delay := r.delay, txd := r.txd }

/-- A consistent engine has bits left in DataBits, so its handler raises no fault and writes its group alone. -/
theorem exec_txcmp_eq {s : State} (hs : s.transmit.Consistent s.cfg) :
    exec .txcmp s = .next (s.withTransmit s.transmit.afterMatch) := by
  obtain ⟨-, -, -, hbits, -⟩ := hs
  have hlast : s.sendBits - 1#4 = 0#4 ↔ s.sendBits = 1#4 := sub_eq_zero
  obtain ⟨t, ht⟩ := txcmp_answers s
  rw [ht]
  obtain ⟨hst, rfl⟩ | ⟨hst, rfl⟩ | ⟨hst, hzero, rfl⟩ | ⟨hst, -, hmore, rfl⟩ | ⟨hst, -, hdone, rfl⟩ | ⟨hst, rfl⟩ |
    ⟨hst | ⟨hst, hdelay⟩, rfl⟩ | ⟨hst, hdelay, rfl⟩ := execTxcmp_cases ht
  case inr.inr.inl => exact absurd hzero (hbits.mpr hst)
  all_goals
    simp_all [TransmitRegs.afterMatch, State.transmit, State.withTransmit, State.clearPending, State.shiftOutBit,
      State.freeSender, State.disable]

/-! The dispatch -/

theorem step_of_nextIrq {s : State} {src : IrqSource} (hvalid : s.cfg.valid = true) (hfault : s.fault = none)
    (hsrc : s.nextIrq = some src) : step s = exec src.handler s := by
  simp [step, fetch, hvalid, hfault, hsrc]

/-- An edge and an RX compare are never pending together: their sources are not enabled together (10_state.md R49). -/
theorem not_edge_and_rx_pending {s : State} (hinv : Invariant s) (hinit : s.initialized = true) :
    ¬ (s.edgePend = true ∧ s.rxPend = true) := by
  rintro ⟨hedge, hrx⟩
  obtain ⟨-, -, -, -, hreceive, ⟨-, hrxIe, hedgeIe⟩, -⟩ := hinv
  obtain ⟨-, -, hexclusive, -⟩ := hreceive hinit
  simp [hexclusive.mp (hedgeIe hedge)] at hrxIe
  simp [hrx] at hrxIe

/-! INIT from power-up -/

/-- No byte waits after INIT, in either mode. -/
theorem availableCount_setup (s : State) : s.setup.respondNothing.availableCount = 0 := by
  cases hmode : s.cfg.rxMode with
  | unbuffered => simp [availableCount_of_unbuffered, hmode, State.setup_available]
  | buffered => simp [availableCount_of_buffered, hmode, State.queued, State.setup_rxHead, State.setup_rxTail]

/-- Settles O53: INIT writes every register that power-up leaves unspecified, with draws that rest on the draw count,
and power-up fixes the samples, the fault record and the tick count. -/
theorem initForgetsThePowerUpValues : Obligations.InitForgetsThePowerUpValues := by
  intro s1 s2 t1 t2 hup1 hup2 hcfg hdraws h1 h2
  obtain rfl := Host.Outcome.next.inj ((exec_init_before_init hup1.initialized).symm.trans h1)
  obtain rfl := Host.Outcome.next.inj ((exec_init_before_init hup2.initialized).symm.trans h2)
  refine ⟨?registers, fun hmode => ?unbuffered, fun hmode => ?buffered, availableCount_setup s1,
    availableCount_setup s2⟩
  case registers =>
    simp [State.draw, hcfg, hdraws, hup1.rxCur, hup2.rxCur, hup1.rxPrev, hup2.rxPrev, hup1.fault, hup2.fault, hup1.t,
      hup2.t]
  case unbuffered => simp [State.setup_available, State.setup_recvByte, ← hcfg, hmode]
  case buffered => simp [State.setup_rxHead, State.setup_rxTail, ← hcfg, hmode]

/-! A settled TICK -/

theorem run_add {M : Host.Core} {j k : Nat} {s u t : M.State} (hj : M.run j s = .next u) (hk : M.run k u = .next t) :
    M.run (j + k) s = .next t := by
  induction j generalizing s with
  | zero =>
    obtain rfl := Host.Outcome.next.inj hj
    rwa [Nat.zero_add]
  | succ j ih =>
    obtain ⟨v, hstep, hrun⟩ := run_succ_eq_next.mp hj
    rw [Nat.succ_add_eq_add_succ]
    exact run_succ_eq_next.mpr ⟨v, hstep, ih hrun⟩

theorem run_one {M : Host.Core} {s t : M.State} (h : M.step s = .next t) : M.run 1 s = .next t :=
  run_succ_eq_next.mpr ⟨t, h, rfl⟩

theorem settled_iff (s : State) : Settled s ↔ s.fault = none ∧ pendingWork s = 0 := by
  rw [pendingWork_eq_zero_iff]

/-- What one dispatch does: at most one machine step, which uses up a pending interrupt if no fault is recorded. -/
structure Dispatched (s t : State) : Prop where
  valid : t.cfg.valid = true
  run : ∃ k, k ≤ 1 ∧ Sys2Proof.core.run k s = .next t
  fault : t.fault = none → s.fault = none
  work : t.fault = none → pendingWork t ≤ pendingWork s - 1

theorem dispatchOnce_dispatched {s t : State} (hvalid : s.cfg.valid = true) (h : dispatchOnce s = .next t) :
    Dispatched s t := by
  unfold dispatchOnce at h
  split at h
  case h_1 k hfault =>
    obtain rfl := Host.Outcome.next.inj h
    exact ⟨hvalid, ⟨0, Nat.zero_le 1, rfl⟩, id, fun hnone => by simp [hnone] at hfault⟩
  case h_2 hfault =>
    split at h
    case h_1 src hsrc =>
      have hwork := pendingWork_handler (nextIrq_eq_some hsrc) h
      exact ⟨by rwa [exec_cfg h], ⟨1, le_rfl, run_one ((step_of_nextIrq hvalid hfault hsrc).trans h)⟩,
        fun _ => hfault, fun _ => by omega⟩
    case h_2 hidle =>
      obtain rfl := Host.Outcome.next.inj h
      have hwork := (pendingWork_eq_zero_iff s).mpr (nextIrq_eq_none.mp hidle)
      exact ⟨hvalid, ⟨0, Nat.zero_le 1, rfl⟩, id, fun _ => by omega⟩

theorem pendingWork_le_three (s : State) : pendingWork s ≤ 3 := by
  unfold pendingWork
  split_ifs <;> omega

/-- Three dispatches use up the three interrupts that a TICK can make pending. -/
theorem settle_run {s t : State} (hvalid : s.cfg.valid = true) (h : settle s = .next t) :
    (∃ k, k ≤ 3 ∧ Sys2Proof.core.run k s = .next t) ∧ (t.fault = none → Settled t) := by
  obtain ⟨v, h, hv⟩ := andThen_eq_next.mp h
  obtain ⟨u, hu, h⟩ := andThen_eq_next.mp h
  obtain ⟨hvalidU, ⟨j, hj, hrunU⟩, hfaultU, hworkU⟩ := dispatchOnce_dispatched hvalid hu
  obtain ⟨hvalidV, ⟨k, hk, hrunV⟩, hfaultV, hworkV⟩ := dispatchOnce_dispatched hvalidU h
  obtain ⟨-, ⟨l, hl, hrunT⟩, hfaultT, hworkT⟩ := dispatchOnce_dispatched hvalidV hv
  refine ⟨⟨j + k + l, by omega, run_add (run_add hrunU hrunV) hrunT⟩, fun hnone => ?_⟩
  have hlimit := pendingWork_le_three s
  have hworkU := hworkU (hfaultV (hfaultT hnone))
  have hworkV := hworkV (hfaultT hnone)
  have hworkT := hworkT hnone
  exact (settled_iff t).mpr ⟨hnone, by omega⟩

theorem afterTick_run {line : Bit} {s u t : State} (hvalid : u.cfg.valid = true) (hstep : step s = exec (.tick line) u)
    (h : afterTick line u = .next t) :
    (∃ k, 1 ≤ k ∧ k ≤ 4 ∧ Sys2Proof.core.run k s = .next t) ∧ (t.fault = none → Settled t) := by
  obtain ⟨v, htick, hsettle⟩ := andThen_eq_next.mp h
  obtain ⟨⟨k, hk, hrun⟩, hset⟩ := settle_run (by rwa [exec_cfg htick]) hsettle
  exact ⟨⟨1 + k, by omega, by omega, run_add (run_one (hstep.trans htick)) hrun⟩, hset⟩

/-- Settles O60: TIMER's step is the TICK with ENV's line value, and each dispatch after it is at most one step
(`settle_run`). -/
theorem settledTickIsMachineSteps : Obligations.SettledTickIsMachineSteps := by
  intro s t hvalid hset hhost htick
  obtain ⟨hloop, hgiven, hfree⟩ := timerStepTakesTheEnvironmentsLine s hvalid hset hhost
  obtain ⟨hl, h⟩ | ⟨hl, line, rest, hlines, h⟩ | ⟨hl, hlines, h⟩ := htick
  · exact afterTick_run hvalid (hloop hl) h
  · exact afterTick_run (u := { s with lines := rest }) hvalid (hgiven hl line rest hlines) h
  · exact afterTick_run (u := { s with draws := s.draws + 1 }) hvalid (hfree hl hlines) h

end Sys2Proof.Machine
end

section
/-! The counter over many TICKs: when a compare value is met (40_timer.md R106, R107). -/

namespace Sys2Proof.Machine
open Sys2Proof Sys2Proof.Safety

theorem tick_counts {s : State} {P : Nat} (hinit : s.initialized = true) (hperiod : s.period = P) (line : Bit) :
    ∃ u, exec (.tick line) s = .next u ∧ u.initialized = true ∧ u.period = P ∧ u.tcnt = (s.tcnt + 1) % P := by
  refine ⟨_, exec_tick_after_init hinit line, ?_⟩
  rw [runTimer_eq, ← hperiod]
  exact ⟨hinit, rfl, rfl⟩

/-- After `n` TICKs the counter is `n` further on its circle. -/
theorem ticksOnly_tcnt {s : State} {P : Nat} (hinit : s.initialized = true) (hperiod : s.period = P)
    (htcnt : s.tcnt < P) (lines : List Bit) :
    ∃ t, ticksOnly lines s = .next t ∧ t.tcnt = (s.tcnt + lines.length) % P := by
  induction lines generalizing s with
  | nil => exact ⟨s, rfl, (Nat.mod_eq_of_lt htcnt).symm⟩
  | cons line rest ih =>
    obtain ⟨u, htick, hinit', hperiod', htcnt'⟩ := tick_counts hinit hperiod line
    have hlt : u.tcnt < P := htcnt'.trans_lt (Nat.mod_lt _ (Nat.zero_lt_of_lt htcnt))
    obtain ⟨t, hrun, ht⟩ := ih hinit' hperiod' hlt
    refine ⟨t, ?_, ?_⟩
    · rw [ticksOnly, htick, andThen_next, hrun]
    · rw [ht, htcnt', List.length_cons, Nat.mod_add_mod, Nat.add_assoc, Nat.add_comm 1]

/-- Two distances of at most one round reach one value exactly when they are equal, a whole round standing for none. -/
theorem add_mod_eq_add_mod_iff {a n k P : Nat} (hn : 1 ≤ n) (hnP : n ≤ P) (hk : k < P) :
    (a + n) % P = (a + k) % P ↔ n = if k = 0 then P else k := by
  have hcancel : (a + n) % P = (a + k) % P ↔ n % P = k % P := Nat.ModEq.add_iff_left rfl
  rw [hcancel, Nat.mod_eq_of_lt hk]
  obtain rfl | hlt := Nat.eq_or_lt_of_le hnP
  · rw [Nat.mod_self]
    split <;> omega
  · rw [Nat.mod_eq_of_lt hlt]
    split <;> omega

/-- Settles O16: after `n` TICKs the counter is `n` further (`ticksOnly_tcnt`). -/
theorem firstMatchAfterAWrite : Obligations.FirstMatchAfterAWrite := by
  intro s k lines hinit hperiod htcnt hk hone hle
  obtain ⟨t, hrun, ht⟩ := ticksOnly_tcnt hinit hperiod htcnt lines
  exact ⟨t, hrun, by rw [ht, State.ticksAhead, add_mod_eq_add_mod_iff hone hle hk]⟩

/-- A value of the counter is some distance ahead. -/
theorem exists_ticksAhead {tcnt target P : Nat} (htcnt : tcnt < P) (htarget : target < P) :
    ∃ k, k < P ∧ (tcnt + k) % P = target := by
  obtain hle | hlt := le_or_gt tcnt target
  · exact ⟨target - tcnt, by omega, by rw [Nat.add_sub_cancel' hle, Nat.mod_eq_of_lt htarget]⟩
  · refine ⟨target + P - tcnt, by omega, ?_⟩
    rw [Nat.add_sub_cancel' (by omega), Nat.add_mod_right, Nat.mod_eq_of_lt htarget]

/-- Settles O17: the target is some `k` TICKs ahead, and among the first `P` TICKs the counter is there after `k` of
them alone, or after `P` where `k` is 0 (`add_mod_eq_add_mod_iff`). -/
theorem oneMatchEveryPeriod : Obligations.OneMatchEveryPeriod := by
  intro s target hinit hperiod htcnt htarget
  obtain ⟨k, hk, rfl⟩ := exists_ticksAhead htcnt htarget
  have hmatch {n : Nat} (hn : 1 ≤ n) (hnP : n ≤ s.cfg.bitPeriod) :
      (∀ lines : List Bit, lines.length = n →
        ∃ t, ticksOnly lines s = .next t ∧ t.tcnt = (s.tcnt + k) % s.cfg.bitPeriod) ↔
      n = if k = 0 then s.cfg.bitPeriod else k := by
    rw [← add_mod_eq_add_mod_iff hn hnP hk (a := s.tcnt)]
    constructor
    · intro hall
      obtain ⟨t, hrun, ht⟩ := hall (List.replicate n 1#1) List.length_replicate
      obtain ⟨u, hrun', hu⟩ := ticksOnly_tcnt hinit hperiod htcnt (List.replicate n 1#1)
      obtain rfl := Host.Outcome.next.inj (hrun.symm.trans hrun')
      rw [← ht, hu, List.length_replicate]
    · rintro heq lines rfl
      obtain ⟨t, hrun, ht⟩ := ticksOnly_tcnt hinit hperiod htcnt lines
      exact ⟨t, hrun, ht.trans heq⟩
  refine ⟨if k = 0 then s.cfg.bitPeriod else k, ?_, fun n ⟨hn, hnP, hall⟩ => (hmatch hn hnP).mp hall⟩
  have hfirst : 1 ≤ (if k = 0 then s.cfg.bitPeriod else k) := by split <;> omega
  have hlast : (if k = 0 then s.cfg.bitPeriod else k) ≤ s.cfg.bitPeriod := by split <;> omega
  exact ⟨hfirst, hlast, (hmatch hfirst hlast).mpr rfl⟩

end Sys2Proof.Machine
end

section
/-! The order of two handlers, and one settled TICK from a state of the invariant: what it does to the transmit and to
the receive group, each on its own (60_exceptions.md R203, 40_timer.md R103, 42_receive.md R150, R152). -/

namespace Sys2Proof.Machine
open Sys2Proof Sys2Proof.Safety

/-! The receive group after an edge and after a match of its channel -/

/-- The start edge arms the RX channel half a bit period ahead (42_receive.md R150). -/
def ReceiveRegs.afterEdge (c : Params) (tcnt : Nat) (r : ReceiveRegs) : ReceiveRegs :=
  { r with ocrRx := (tcnt + c.halfBit) % c.bitPeriod, edgeIe := false, rxIe := true }

/-- The commit of the assembled byte, by mode (42_receive.md R160 to R162). -/
def ReceiveRegs.committed (c : Params) (r : ReceiveRegs) : ReceiveRegs :=
  match c.rxMode with
  | .unbuffered => { r with recvByte := r.recvShift, available := true }
  | .buffered =>
    { r with
      rxBuf := r.rxBuf.write r.rxHead r.recvShift, rxHead := (r.rxHead + 1) % c.rxBufSlots,
      rxTail := if (r.rxHead + 1) % c.rxBufSlots = r.rxTail then (r.rxTail + 1) % c.rxBufSlots else r.rxTail }

/-- The receive group after a match of its channel, the line's level being `sample` (42_receive.md R153 to R156). -/
def ReceiveRegs.afterMatch (c : Params) (sample : Bit) (r : ReceiveRegs) : ReceiveRegs :=
  match r.rxState with
  | .waitStart => { r with rxState := .dataBits, recvBits := 8#4 }
  | .startBit => { r with rxState := .dataBits, recvBits := 8#4 }
  | .dataBits =>
    { r with
      recvShift := shiftIn sample r.recvShift, recvBits := r.recvBits - 1#4,
      rxState := if r.recvBits = 1#4 then .waitStopHigh else .dataBits }
  | .waitStopHigh =>
    if sample = 1#1 then { r.committed c with rxState := .waitStart, rxIe := false, edgeIe := true } else r

/-- The state with the receive group `r`. -/
def State.withReceive (s : State) (r : ReceiveRegs) : State :=
  { s with
    ocrRx := r.ocrRx, rxIe := r.rxIe, edgeIe := r.edgeIe, rxState := r.rxState, recvShift := r.recvShift,
    recvBits := r.recvBits, available := r.available, recvByte := r.recvByte, rxBuf := r.rxBuf, rxHead := r.rxHead,
    rxTail := r.rxTail }

theorem exec_edge_eq (s : State) :
    exec .edge s = .next ((s.clearPending .edge).withReceive (s.receive.afterEdge s.cfg s.tcnt)) := rfl

/-- A consistent engine has bits left in DataBits and its head in the buffer, so its handler raises no fault and writes
its group alone. -/
theorem exec_rxcmp_eq {s : State} (hinv : Invariant s) (hinit : s.initialized = true) :
    exec .rxcmp s = .next ((s.clearPending .rx).withReceive (s.receive.afterMatch s.cfg s.rxCur)) := by
  obtain ⟨-, -, -, ⟨-, -, hbits, -⟩, -⟩ := (invariant_iff_of_initialized hinit).mp hinv
  have hlast : s.recvBits - 1#4 = 0#4 ↔ s.recvBits = 1#4 := sub_eq_zero
  obtain ⟨t, ht⟩ := rxcmp_answers hinv hinit
  rw [ht]
  obtain ⟨hst | hst, rfl⟩ | ⟨hst, hzero, rfl⟩ | ⟨hst, -, hmore, rfl⟩ | ⟨hst, -, hdone, rfl⟩ | ⟨hst, hlow, rfl⟩ |
    ⟨hst, hhigh, hmode, rfl⟩ | ⟨hst, hhigh, hmode, -, rfl⟩ := execRxcmp_cases ht
  case inr.inl => exact absurd hzero (hbits.mpr hst)
  case inr.inr.inr.inr.inr.inr =>
    rw [bufPush_eq]
    simp [ReceiveRegs.afterMatch, ReceiveRegs.committed, State.receive, State.withReceive, hst, hhigh, hmode,
      State.awaitEdge, State.disable, State.enable, State.clearPending, State.nextSlot]
  all_goals
    simp_all [ReceiveRegs.afterMatch, ReceiveRegs.committed, State.receive, State.withReceive, State.clearPending,
      State.shiftInBit, State.slotPut, State.awaitEdge, State.disable, State.enable]

/-! The handlers' order -/

/-- Each handler updates the group of its own engine, from what it finds in that group, the clock and the parameters. -/
theorem handlers_commute_with_txcmp {s : State} (hinv : Invariant s) (hinit : s.initialized = true) :
    andThen (exec .edge s) (exec .txcmp) = andThen (exec .txcmp s) (exec .edge) ∧
    andThen (exec .rxcmp s) (exec .txcmp) = andThen (exec .txcmp s) (exec .rxcmp) := by
  obtain ⟨-, -, hs, -, -⟩ := (invariant_iff_of_initialized hinit).mp hinv
  have htx := exec_txcmp_eq hs
  have hinv' := invariant_exec (i := .txcmp) hinv hinit nofun htx
  constructor
  · rw [exec_edge_eq, htx, andThen_next, andThen_next, exec_edge_eq]
    exact exec_txcmp_eq (s := (s.clearPending .edge).withReceive _) hs
  · rw [exec_rxcmp_eq hinv hinit, htx, andThen_next, andThen_next, exec_rxcmp_eq hinv' hinit]
    exact exec_txcmp_eq (s := (s.clearPending .rx).withReceive _) hs

/-- Settles O46: the fetch takes the first pending source, and TXCMP commutes with the receive engine's handlers. -/
theorem handlerOrderChangesNothing : Obligations.HandlerOrderChangesNothing := by
  refine ⟨fun s hvalid hfault => ⟨fun hedge => ?_, fun hedge hrx => ?_, fun hedge hrx htx => ?_⟩,
    fun s hinv hinit => ⟨not_edge_and_rx_pending hinv hinit, handlers_commute_with_txcmp hinv hinit⟩⟩
  · exact step_of_nextIrq (src := .edge) hvalid hfault (by simp [State.nextIrq, hedge])
  · exact step_of_nextIrq (src := .rx) hvalid hfault (by simp [State.nextIrq, hedge, hrx])
  · exact step_of_nextIrq (src := .tx) hvalid hfault (by simp [State.nextIrq, hedge, hrx, htx])

/-! The dispatches after a TICK -/

theorem dispatchOnce_of_nextIrq {s t : State} {src : IrqSource} (hfault : s.fault = none) (hsrc : s.nextIrq = some src)
    (h : exec src.handler s = .next t) : dispatchOnce s = .next t := by
  simp [dispatchOnce, hfault, hsrc, h]

theorem dispatchOnce_of_idle {s : State} (hfault : s.fault = none) (hidle : s.nextIrq = none) :
    dispatchOnce s = .next s := by
  simp [dispatchOnce, hfault, hidle]

/-- The state after the receive engine's handler, where one of its two is pending. -/
def receiveServed (s : State) : State :=
  if s.edgePend then (s.clearPending .edge).withReceive (s.receive.afterEdge s.cfg s.tcnt)
  else if s.rxPend then (s.clearPending .rx).withReceive (s.receive.afterMatch s.cfg s.rxCur)
  else s

/-- The state after the transmit engine's handler, where it is pending. -/
def transmitServed (s : State) : State :=
  if s.txPend then s.withTransmit s.transmit.afterMatch else s

/-- With nothing else pending, one dispatch serves TXCMP and the next has nothing to do. -/
theorem dispatchOnce_transmit {s : State} (hs : s.transmit.Consistent s.cfg) (hfault : s.fault = none)
    (hedge : s.edgePend = false) (hrx : s.rxPend = false) :
    dispatchOnce s = .next (transmitServed s) ∧ dispatchOnce (transmitServed s) = .next (transmitServed s) := by
  unfold transmitServed
  cases htx : s.txPend with
  | true =>
    have hsrc : s.nextIrq = some .tx := by simp [State.nextIrq, hedge, hrx, htx]
    exact ⟨dispatchOnce_of_nextIrq hfault hsrc (exec_txcmp_eq hs),
      dispatchOnce_of_idle hfault (nextIrq_eq_none.mpr ⟨hedge, hrx, rfl⟩)⟩
  | false =>
    have hidle := dispatchOnce_of_idle hfault (nextIrq_eq_none.mpr ⟨hedge, hrx, htx⟩)
    exact ⟨hidle, hidle⟩

/-- The dispatches serve the receive engine, then the transmit engine (60_exceptions.md R203). -/
theorem settle_eq {s : State} (hinv : Invariant s) (hinit : s.initialized = true) (hfault : s.fault = none) :
    settle s = .next (transmitServed (receiveServed s)) := by
  obtain ⟨-, -, hs, -, -⟩ := (invariant_iff_of_initialized hinit).mp hinv
  have hone := not_edge_and_rx_pending hinv hinit
  unfold settle receiveServed
  cases hedge : s.edgePend with
  | true =>
    have hrx : s.rxPend = false := by simpa [hedge] using hone
    have hsrc : s.nextIrq = some .edge := by simp [State.nextIrq, hedge]
    rw [dispatchOnce_of_nextIrq hfault hsrc (exec_edge_eq s), andThen_next]
    obtain ⟨hserve, hrest⟩ := dispatchOnce_transmit
      (s := (s.clearPending .edge).withReceive (s.receive.afterEdge s.cfg s.tcnt)) hs hfault rfl hrx
    rw [hserve, andThen_next, hrest]
    rfl
  | false =>
    cases hrx : s.rxPend with
    | true =>
      have hsrc : s.nextIrq = some .rx := by simp [State.nextIrq, hedge, hrx]
      rw [dispatchOnce_of_nextIrq hfault hsrc (exec_rxcmp_eq hinv hinit), andThen_next]
      obtain ⟨hserve, hrest⟩ := dispatchOnce_transmit
        (s := (s.clearPending .rx).withReceive (s.receive.afterMatch s.cfg s.rxCur)) hs hfault hedge rfl
      rw [hserve, andThen_next, hrest]
      rfl
    | false =>
      obtain ⟨hserve, hrest⟩ := dispatchOnce_transmit hs hfault hedge hrx
      rw [hserve, andThen_next, hrest, andThen_next, hrest]
      rfl

/-- What the receive engine's handler leaves to the rest of the block. -/
theorem receiveServed_fields (s : State) :
    (receiveServed s).cfg = s.cfg ∧ (receiveServed s).tcnt = s.tcnt ∧ (receiveServed s).rxCur = s.rxCur ∧
    (receiveServed s).fault = s.fault ∧ (receiveServed s).initialized = s.initialized ∧
    (receiveServed s).txPend = s.txPend ∧ (receiveServed s).transmit = s.transmit ∧
    (receiveServed s).receive =
      if s.edgePend then s.receive.afterEdge s.cfg s.tcnt
      else if s.rxPend then s.receive.afterMatch s.cfg s.rxCur else s.receive := by
  unfold receiveServed
  split_ifs <;> exact ⟨rfl, rfl, rfl, rfl, rfl, rfl, rfl, rfl⟩

/-- What the transmit engine's handler leaves to the rest of the block. -/
theorem transmitServed_fields (s : State) :
    (transmitServed s).cfg = s.cfg ∧ (transmitServed s).tcnt = s.tcnt ∧ (transmitServed s).rxCur = s.rxCur ∧
    (transmitServed s).fault = s.fault ∧ (transmitServed s).edgePend = s.edgePend ∧
    (transmitServed s).rxPend = s.rxPend ∧ (transmitServed s).txPend = false ∧
    (transmitServed s).initialized = s.initialized ∧ (transmitServed s).receive = s.receive ∧
    (transmitServed s).transmit = if s.txPend then s.transmit.afterMatch else s.transmit := by
  unfold transmitServed
  split
  · exact ⟨rfl, rfl, rfl, rfl, rfl, rfl, rfl, rfl, rfl, rfl⟩
  · exact ⟨rfl, rfl, rfl, rfl, rfl, rfl, Bool.eq_false_of_not_eq_true ‹_›, rfl, rfl, rfl⟩

theorem receiveServed_settled {s : State} (hone : ¬ (s.edgePend = true ∧ s.rxPend = true)) :
    (receiveServed s).edgePend = false ∧ (receiveServed s).rxPend = false := by
  unfold receiveServed
  split_ifs with hedge hrx
  · exact ⟨rfl, Bool.eq_false_of_not_eq_true fun hrx => hone ⟨hedge, hrx⟩⟩
  · exact ⟨Bool.eq_false_of_not_eq_true hedge, rfl⟩
  · exact ⟨Bool.eq_false_of_not_eq_true hedge, Bool.eq_false_of_not_eq_true hrx⟩

theorem receiveServed_invariant {s : State} (hinv : Invariant s) (hinit : s.initialized = true) :
    Invariant (receiveServed s) := by
  unfold receiveServed
  split_ifs with hedge hrx
  · exact invariant_handler (src := .edge) hinv hedge (exec_edge_eq s)
  · exact invariant_handler (src := .rx) hinv hrx (exec_rxcmp_eq hinv hinit)
  · exact hinv

theorem transmitServed_invariant {s : State} (hinv : Invariant s) (hinit : s.initialized = true) :
    Invariant (transmitServed s) := by
  unfold transmitServed
  split_ifs with htx
  · obtain ⟨-, -, hs, -, -⟩ := (invariant_iff_of_initialized hinit).mp hinv
    exact invariant_handler (src := .tx) hinv htx (exec_txcmp_eq hs)
  · exact hinv

/-! The settled TICK -/

/-- A block after INIT, between two TICKs. -/
structure Ready (s : State) : Prop where
  invariant : Invariant s
  initialized : s.initialized = true
  settled : Settled s

/-- What a settled TICK does to the receive group: the edge's effect on a falling edge while the edge is awaited, the
handler's on a match of the enabled channel, else nothing. -/
def ReceiveRegs.ticked (c : Params) (tcnt : Nat) (last line : Bit) (r : ReceiveRegs) : ReceiveRegs :=
  if r.edgeIe = true ∧ last = 1#1 ∧ line = 0#1 then r.afterEdge c tcnt
  else if r.rxIe = true ∧ tcnt = r.ocrRx then r.afterMatch c line
  else r

/-- What a settled TICK does to the transmit group: the handler's effect on a match of the enabled channel. -/
def TransmitRegs.ticked (tcnt : Nat) (r : TransmitRegs) : TransmitRegs :=
  if r.txIe = true ∧ tcnt = r.ocrTx then r.afterMatch else r

/-- Everything a settled TICK does, but for the ghost count and the older sample. -/
structure Ticked (line : Bit) (s t : State) : Prop where
  ready : Ready t
  cfg : t.cfg = s.cfg
  tcnt : t.tcnt = (s.tcnt + 1) % s.cfg.bitPeriod
  rxCur : t.rxCur = line
  transmit : t.transmit = s.transmit.ticked t.tcnt
  receive : t.receive = s.receive.ticked s.cfg t.tcnt s.rxCur line

/-- What a TICK leaves to its handlers: the counter and the sample moved, and the events of the enabled sources
pending. -/
theorem tick_of_ready {s : State} (hs : Ready s) (line : Bit) :
    ∃ u, exec (.tick line) s = .next u ∧ Invariant u ∧ u.initialized = true ∧ u.fault = none ∧ u.cfg = s.cfg ∧
      u.tcnt = (s.tcnt + 1) % s.cfg.bitPeriod ∧ u.rxCur = line ∧ u.transmit = s.transmit ∧ u.receive = s.receive ∧
      (u.edgePend = true ↔ s.edgeIe = true ∧ s.rxCur = 1#1 ∧ line = 0#1) ∧
      (u.rxPend = true ↔ s.rxIe = true ∧ u.tcnt = s.ocrRx) ∧ (u.txPend = true ↔ s.txIe = true ∧ u.tcnt = s.ocrTx) := by
  obtain ⟨hinv, hinit, hfault, hedge, hrx, htx⟩ := hs
  obtain ⟨-, ⟨hperiod, -⟩, -, -, -⟩ := (invariant_iff_of_initialized hinit).mp hinv
  replace hperiod : s.period = s.cfg.bitPeriod := hperiod
  have htick := (tickMovesSamplesCounterAndPendingFlags line s).2 hinit
  refine ⟨_, htick, invariant_exec_of_command_or_tick hinv (.inr ⟨line, rfl⟩) htick, hinit, hfault, rfl, ?_, rfl, rfl,
    rfl, ?_, ?_, ?_⟩
  · rw [← hperiod]
  · simp [hedge]
  · simp [hrx]
  · simp [htx]

/-- A settled TICK answers: the events are served, and each engine's group moves on its own. -/
theorem afterTick_ticked {s : State} (hs : Ready s) (line : Bit) :
    ∃ t, afterTick line s = .next t ∧ Ticked line s t := by
  obtain ⟨u, htick, hinv, hinit, hfault, hcfg, htcnt, hcur, htransmit, hreceive, hedge, hrx, htx⟩ :=
    tick_of_ready hs line
  have hone := not_edge_and_rx_pending hinv hinit
  obtain ⟨hcfg1, htcnt1, hcur1, hfault1, hinit1, htxPend1, htransmit1, hreceive1⟩ := receiveServed_fields u
  obtain ⟨hcfg2, htcnt2, hcur2, hfault2, hedge2, hrx2, htx2, hinit2, hreceive2, htransmit2⟩ :=
    transmitServed_fields (receiveServed u)
  obtain ⟨hedge1, hrx1⟩ := receiveServed_settled hone
  have hinv1 := receiveServed_invariant hinv hinit
  have hinvT := transmitServed_invariant hinv1 (hinit1.trans hinit)
  have htcntT : (transmitServed (receiveServed u)).tcnt = u.tcnt := htcnt2.trans htcnt1
  refine ⟨transmitServed (receiveServed u), ?_, ?_⟩
  · rw [afterTick, htick, andThen_next, settle_eq hinv hinit hfault]
  constructor
  case ready =>
    exact ⟨hinvT, (hinit2.trans hinit1).trans hinit, (hfault2.trans hfault1).trans hfault, hedge2.trans hedge1,
      hrx2.trans hrx1, htx2⟩
  case cfg => rw [hcfg2, hcfg1, hcfg]
  case tcnt => rw [htcntT, htcnt]
  case rxCur => rw [hcur2, hcur1, hcur]
  case transmit =>
    rw [htransmit2, htransmit1, htxPend1, htcntT, htransmit, TransmitRegs.ticked]
    simp only [htx]
    rfl
  case receive =>
    rw [hreceive2, hreceive1, htcntT, hreceive, hcfg, hcur, ReceiveRegs.ticked]
    simp only [hedge, hrx]
    rfl

end Sys2Proof.Machine
end

section
/-! Settled TICKs in a row: the matches of an armed channel, and the transmit group after them (40_timer.md R106, R107,
41_transmit.md R133, R134). -/

namespace Sys2Proof.Machine
open Sys2Proof Sys2Proof.Safety

/-! Runs of settled TICKs -/

theorem afterTicks_append (l m : List Bit) (s : State) :
    afterTicks (l ++ m) s = andThen (afterTicks l s) (afterTicks m) := by
  induction l generalizing s with
  | nil => rfl
  | cons line rest ih =>
    rw [List.cons_append, afterTicks, afterTicks, andThen_assoc]
    congr 1
    funext u
    exact ih u

/-- `n` settled TICKs with the line values `f 0`, `f 1` and so on. -/
def afterLine (f : Nat → Bit) (n : Nat) (s : State) : Answer := afterTicks ((List.range n).map f) s

theorem afterLine_succ (f : Nat → Bit) (n : Nat) (s : State) :
    afterLine f (n + 1) s = andThen (afterLine f n s) (afterTick (f n)) := by
  have hlast : afterTicks [f n] = afterTick (f n) := by
    funext u
    change andThen (afterTick (f n) u) .next = afterTick (f n) u
    cases afterTick (f n) u <;> rfl
  rw [afterLine, List.range_succ, List.map_append, List.map_singleton, afterTicks_append, hlast, afterLine]

theorem afterLine_add (f : Nat → Bit) (m n : Nat) (s : State) :
    afterLine f (m + n) s = andThen (afterLine f m s) (afterLine (fun k => f (m + k)) n) := by
  rw [afterLine, List.range_add, List.map_append, List.map_map, afterTicks_append]
  rfl

/-- A list of line values as a function of the TICK. -/
def lineOf (lines : List Bit) (n : Nat) : Bit := (lines[n]?).getD 0#1

theorem take_eq_map_lineOf {lines : List Bit} {n : Nat} (hn : n ≤ lines.length) :
    lines.take n = (List.range n).map (lineOf lines) := by
  refine List.ext_getElem (by simpa using hn) fun k hk hk' => ?_
  have hlt : k < lines.length := by
    rw [List.length_take] at hk
    omega
  simp [lineOf, hlt]

theorem afterTicks_take {lines : List Bit} {n : Nat} (hn : n ≤ lines.length) (s : State) :
    afterTicks (lines.take n) s = afterLine (lineOf lines) n s := by
  rw [take_eq_map_lineOf hn, afterLine]

theorem afterTicks_eq_afterLine (lines : List Bit) (s : State) :
    afterTicks lines s = afterLine (lineOf lines) lines.length s := by
  rw [← afterTicks_take le_rfl, List.take_length]

/-- What a run keeps beside a property that holds at its start and after every settled TICK: the block stays ready, its
parameters stay, and the counter runs on. -/
structure Ran (f : Nat → Bit) (s : State) (n : Nat) (t : State) : Prop where
  ready : Ready t
  cfg : t.cfg = s.cfg
  tcnt : t.tcnt = (s.tcnt + n) % s.cfg.bitPeriod
  rxCur : t.rxCur = if n = 0 then s.rxCur else f (n - 1)

theorem tcnt_lt_of_ready {s : State} (hs : Ready s) : s.tcnt < s.cfg.bitPeriod := by
  obtain ⟨-, ⟨-, htcnt⟩, -⟩ := (invariant_iff_of_initialized hs.initialized).mp hs.invariant
  exact htcnt

theorem bitPeriod_of_ready {s : State} (hs : Ready s) : 2 ≤ s.cfg.bitPeriod := bitPeriod_pos hs.invariant.1

/-- Induction over a run of settled TICKs. -/
theorem afterLine_induction {s : State} (hs : Ready s) (f : Nat → Bit) (R : Nat → State → Prop) (hzero : R 0 s)
    (hsucc : ∀ n u t, Ran f s n u → R n u → Ticked (f n) u t → R (n + 1) t) (n : Nat) :
    ∃ t, afterLine f n s = .next t ∧ Ran f s n t ∧ R n t := by
  induction n with
  | zero => exact ⟨s, rfl, ⟨hs, rfl, (Nat.mod_eq_of_lt (tcnt_lt_of_ready hs)).symm, rfl⟩, hzero⟩
  | succ n ih =>
    obtain ⟨u, hrun, hran, hR⟩ := ih
    obtain ⟨t, htick, hticked⟩ := afterTick_ticked hran.ready (f n)
    refine ⟨t, ?_, ⟨hticked.ready, hticked.cfg.trans hran.cfg, ?_, hticked.rxCur⟩, hsucc n u t hran hR hticked⟩
    · rw [afterLine_succ, hrun, andThen_next, htick]
    · rw [hticked.tcnt, hran.tcnt, hran.cfg, Nat.mod_add_mod, Nat.add_assoc]

theorem tcnt_after {f : Nat → Bit} {s u t : State} {n : Nat} {line : Bit} (hu : Ran f s n u) (ht : Ticked line u t) :
    t.tcnt = (s.tcnt + (n + 1)) % s.cfg.bitPeriod := by
  rw [ht.tcnt, hu.cfg, hu.tcnt, Nat.mod_add_mod, Nat.add_assoc]

/-! The matches of a channel armed `d` TICKs ahead -/

/-- The matches within `n` TICKs of a channel whose first match is `d` TICKs ahead (40_timer.md R106, R107). -/
def matchCount (P d n : Nat) : Nat := (n + (P - d)) / P

/-- The counter meets the compare value at the TICKs that are a whole number of rounds after the first match. -/
theorem meets_iff {a d P n : Nat} (hdP : d ≤ P) : (a + n) % P = (a + d) % P ↔ P ∣ n + (P - d) := by
  have hcancel : (a + n) % P = (a + d) % P ↔ (n + (P - d)) % P = (d + (P - d)) % P :=
    (Nat.ModEq.add_iff_left (Nat.ModEq.refl a)).trans (Nat.ModEq.add_iff_right (Nat.ModEq.refl (P - d))).symm
  rw [hcancel, Nat.add_sub_cancel' hdP, Nat.mod_self, Nat.dvd_iff_mod_eq_zero]

theorem matchCount_zero {P d : Nat} (hd : 1 ≤ d) (hdP : d ≤ P) : matchCount P d 0 = 0 := by
  rw [matchCount, Nat.zero_add]
  exact Nat.div_eq_of_lt (by omega)

theorem matchCount_succ (P d n : Nat) :
    matchCount P d (n + 1) = matchCount P d n + if P ∣ n + 1 + (P - d) then 1 else 0 := by
  rw [matchCount, matchCount, Nat.add_right_comm, Nat.succ_div]

theorem matchCount_le_succ (P d n : Nat) : matchCount P d n ≤ matchCount P d (n + 1) := by
  rw [matchCount_succ]
  exact Nat.le_add_right _ _

/-- The TICK of the match after `matchCount P d n` matches. -/
theorem tick_of_match {P d n : Nat} (hd : 1 ≤ d) (hdP : d ≤ P) (hmatch : P ∣ n + 1 + (P - d)) :
    n = d - 1 + matchCount P d n * P := by
  have hcount := matchCount_succ P d n
  rw [if_pos hmatch] at hcount
  have hmul := Nat.div_mul_cancel hmatch
  change matchCount P d (n + 1) * P = _ at hmul
  rw [hcount, Nat.add_mul] at hmul
  omega

/-! The transmit group over a run -/

theorem afterMatch_ocrTx (r : TransmitRegs) : r.afterMatch.ocrTx = r.ocrTx := by
  unfold TransmitRegs.afterMatch
  split
  case h_6 => split <;> rfl
  all_goals rfl

theorem iterate_afterMatch_ocrTx (r : TransmitRegs) (q : Nat) : (TransmitRegs.afterMatch^[q] r).ocrTx = r.ocrTx := by
  induction q with
  | zero => rfl
  | succ q ih => rw [Function.iterate_succ_apply', afterMatch_ocrTx, ih]

/-- While the channel stays enabled, the transmit group is moved by the matches alone. -/
theorem transmit_run {s : State} (hs : Ready s) {d K : Nat} (hd : 1 ≤ d) (hdP : d ≤ s.cfg.bitPeriod)
    (hocr : s.ocrTx = (s.tcnt + d) % s.cfg.bitPeriod)
    (hen : ∀ q, q < K → (TransmitRegs.afterMatch^[q] s.transmit).txIe = true) (f : Nat → Bit) {n : Nat}
    (hn : matchCount s.cfg.bitPeriod d n ≤ K) :
    ∃ t, afterLine f n s = .next t ∧ Ran f s n t ∧
      t.transmit = TransmitRegs.afterMatch^[matchCount s.cfg.bitPeriod d n] s.transmit := by
  refine (afterLine_induction hs f (fun n u => matchCount s.cfg.bitPeriod d n ≤ K →
    u.transmit = TransmitRegs.afterMatch^[matchCount s.cfg.bitPeriod d n] s.transmit) ?zero ?succ n).imp
    fun t ⟨hrun, hran, ht⟩ => ⟨hrun, hran, ht hn⟩
  case zero =>
    rw [matchCount_zero hd hdP]
    exact fun _ => rfl
  intro n u t hu hR ht hK
  have hu' := hR ((matchCount_le_succ _ _ _).trans hK)
  have hocr' : u.transmit.ocrTx = (s.tcnt + d) % s.cfg.bitPeriod := by
    rw [hu', iterate_afterMatch_ocrTx]
    exact hocr
  have hmeets : t.tcnt = u.transmit.ocrTx ↔ s.cfg.bitPeriod ∣ n + 1 + (s.cfg.bitPeriod - d) := by
    rw [hocr', ← meets_iff hdP, tcnt_after hu ht]
  rw [ht.transmit]
  rw [matchCount_succ] at hK ⊢
  by_cases hmatch : s.cfg.bitPeriod ∣ n + 1 + (s.cfg.bitPeriod - d)
  · rw [if_pos hmatch] at hK ⊢
    have hon : u.transmit.txIe = true := by
      rw [hu']
      exact hen _ (by omega)
    rw [TransmitRegs.ticked, if_pos ⟨hon, hmeets.mpr hmatch⟩, hu', Function.iterate_succ_apply']
  · rw [if_neg hmatch, TransmitRegs.ticked, if_neg (fun h => hmatch (hmeets.mp h.2)), hu', Nat.add_zero]

/-! A frame (41_transmit.md R133) -/

theorem bitAt_shift (b : Byte) (k : Nat) : bitAt (b >>> k) 0 = bitAt b k := by
  ext j hj
  simp [bitAt, BitVec.getLsbD_ushiftRight]

/-- After the start bit and `k` data bits (41_transmit.md R123, R124). -/
theorem iterate_afterMatch_dataBits {r : TransmitRegs} (hst : r.txState = .startBit) {k : Nat} (hk : k ≤ 7) :
    TransmitRegs.afterMatch^[k + 1] r =
      { r with
        txState := .dataBits, sendBits := BitVec.ofNat 4 (8 - k), sendByte := r.sendByte >>> k,
        txd := if k = 0 then 0#1 else bitAt r.sendByte (k - 1) } := by
  induction k with
  | zero => simp [TransmitRegs.afterMatch, hst]
  | succ k ih =>
    have hcount : BitVec.ofNat 4 (8 - k) - 1#4 = BitVec.ofNat 4 (8 - (k + 1)) ∧ BitVec.ofNat 4 (8 - k) ≠ 1#4 := by
      have hlt : k ≤ 6 := by omega
      interval_cases k <;> decide
    rw [Function.iterate_succ_apply', ih (by omega)]
    simp [TransmitRegs.afterMatch, shiftOut, bitAt_shift, hcount, BitVec.shiftRight_add]

/-- After the stop bit's start (41_transmit.md R124, R125, R126). -/
theorem iterate_afterMatch_stop {r : TransmitRegs} (hst : r.txState = .startBit) :
    TransmitRegs.afterMatch^[9] r =
      { r with txState := .stopBit, sendBits := 0#4, sendByte := r.sendByte >>> 8, txd := bitAt r.sendByte 7 } := by
  rw [Function.iterate_succ_apply', iterate_afterMatch_dataBits (k := 7) hst le_rfl]
  simp [TransmitRegs.afterMatch, shiftOut, bitAt_shift, ← BitVec.shiftRight_add]

/-- R133's pin by the matches since SEND. -/
def framePin (idle : Bit) (b : Byte) (q : Nat) : Bit :=
  if q < 1 then idle else if q < 2 then 0#1 else if q < 10 then bitAt b (q - 2) else 1#1

/-- R133's transmit state by the matches since SEND. -/
def frameStage (q : Nat) : TxState :=
  if q < 1 then .startBit else if q < 9 then .dataBits else if q < 10 then .stopBit
  else if q < 11 then .returnIdle else .idle

theorem wireLevel_eq_framePin {P : Nat} (hP : 0 < P) (idle : Bit) (b : Byte) (n : Nat) :
    wireLevel idle P b n = framePin idle b (n / P) := by
  simp only [wireLevel, framePin, Nat.div_lt_iff_lt_mul hP, Nat.one_mul]

theorem frameState_eq_frameStage {P : Nat} (hP : 0 < P) (n : Nat) : frameState P n = frameStage (n / P) := by
  simp only [frameState, frameStage, Nat.div_lt_iff_lt_mul hP, Nat.one_mul]

/-- What R133's table shows of the group. -/
def ShowsFrame (idle : Bit) (b : Byte) (q : Nat) (r : TransmitRegs) : Prop :=
  r.txd = framePin idle b q ∧ r.txState = frameStage q ∧ (r.sendReady = true ↔ q = 11) ∧ (q < 11 → r.txIe = true)

/-- The group of an armed frame after each of its eleven matches. -/
theorem iterate_afterMatch_showsFrame {r : TransmitRegs} (hst : r.txState = .startBit) (hbusy : r.sendReady = false)
    (hie : r.txIe = true) {q : Nat} (hq : q ≤ 11) :
    ShowsFrame r.txd r.sendByte q (TransmitRegs.afterMatch^[q] r) := by
  have hstop := iterate_afterMatch_stop hst
  have hreturn := (Function.iterate_succ_apply' TransmitRegs.afterMatch 9 r).trans (congrArg _ hstop)
  have hidle := (Function.iterate_succ_apply' TransmitRegs.afterMatch 10 r).trans (congrArg _ hreturn)
  obtain rfl | ⟨k, hk, rfl⟩ | rfl | rfl | rfl : q = 0 ∨ (∃ k, k ≤ 7 ∧ q = k + 1) ∨ q = 9 ∨ q = 10 ∨ q = 11 := by
    obtain rfl | hpos := Nat.eq_zero_or_pos q
    · exact .inl rfl
    obtain hle | hgt := le_or_gt q 8
    · exact .inr (.inl ⟨q - 1, by omega, by omega⟩)
    · refine .inr (.inr ?_)
      omega
  · simp [ShowsFrame, framePin, frameStage, hst, hbusy, hie]
  · rw [iterate_afterMatch_dataBits hst hk]
    have hpin : framePin r.txd r.sendByte (k + 1) = if k = 0 then 0#1 else bitAt r.sendByte (k - 1) := by
      have hstart : k + 1 < 2 ↔ k = 0 := by omega
      have hdata : k + 1 < 10 := by omega
      simp [framePin, hstart, hdata]
    have hstage : frameStage (k + 1) = .dataBits := by
      have hdata : k + 1 < 9 := by omega
      simp [frameStage, hdata]
    have hnot : ¬ k + 1 = 11 := by omega
    simp [ShowsFrame, hpin, hstage, hbusy, hie, hnot]
  · rw [hstop]
    simp [ShowsFrame, framePin, frameStage, hbusy, hie]
  · rw [hreturn]
    simp [ShowsFrame, framePin, frameStage, TransmitRegs.afterMatch, hbusy, hie]
  · rw [hidle]
    simp [ShowsFrame, framePin, frameStage, TransmitRegs.afterMatch]

theorem matchCount_period (P n : Nat) : matchCount P P n = n / P := by
  rw [matchCount, Nat.sub_self, Nat.add_zero]

/-- The state a SEND leaves on an idle engine. -/
theorem ready_of_send {s s0 : State} {b : Byte} (hs : Ready s) (hready : s.sendReady = true)
    (h : exec (.send b) s = .next s0) : Ready s0 ∧ s0 = (s.armFrame b).respondNothing := by
  obtain rfl := Host.Outcome.next.inj ((exec_send_of_ready hs.initialized hready b).symm.trans h)
  exact ⟨⟨invariant_exec_of_command_or_tick hs.invariant (.inl rfl) h, hs.initialized, hs.settled⟩, rfl⟩

/-- A frame over a run: SEND's compare value is first met after a whole round. -/
theorem frame_run {s s0 : State} {b : Byte} (hs : Ready s) (hready : s.sendReady = true)
    (h : exec (.send b) s = .next s0) (f : Nat → Bit) {n : Nat} (hn : n ≤ 11 * s.cfg.bitPeriod) :
    ∃ t, afterLine f n s0 = .next t ∧ Ran f s0 n t ∧
      ShowsFrame s.txd b (n / s.cfg.bitPeriod) t.transmit := by
  obtain ⟨hs0, rfl⟩ := ready_of_send hs hready h
  have hP := bitPeriod_of_ready hs
  have htcnt := tcnt_lt_of_ready hs
  have hframe {q : Nat} (hq : q ≤ 11) : ShowsFrame s.txd b q
      (TransmitRegs.afterMatch^[q] (s.armFrame b).respondNothing.transmit) :=
    iterate_afterMatch_showsFrame (r := (s.armFrame b).respondNothing.transmit) rfl rfl rfl hq
  have hle : n / s.cfg.bitPeriod ≤ 11 := by
    rw [← Nat.lt_succ_iff, Nat.div_lt_iff_lt_mul (by omega), Nat.succ_mul]
    omega
  have hocr : s.tcnt = (s.tcnt + s.cfg.bitPeriod) % s.cfg.bitPeriod := by
    rw [Nat.add_mod_right, Nat.mod_eq_of_lt htcnt]
  obtain ⟨t, hrun, hran, ht⟩ := transmit_run hs0 (d := s.cfg.bitPeriod) (K := 11) (by omega) le_rfl hocr
    (fun q hq => (hframe hq.le).2.2.2 hq) f ((matchCount_period _ n).trans_le hle)
  refine ⟨t, hrun, hran, ?_⟩
  rw [ht]
  exact (matchCount_period s.cfg.bitPeriod n).symm ▸ hframe hle

/-- Settles O27: the group after SEND is moved by the channel's matches alone (`frame_run`), which come at whole bit
periods, and R133's table is what they show. -/
theorem frameTakesElevenBitPeriods : Obligations.FrameTakesElevenBitPeriods := by
  intro s s0 b lines hinv hinit hset hready h hn
  have hs : Ready s := ⟨hinv, hinit, hset⟩
  have hP : 0 < s.cfg.bitPeriod := Nat.zero_lt_of_lt (bitPeriod_of_ready hs)
  obtain ⟨t, hrun, -, hpin, hstage, hfree, -⟩ := frame_run hs hready h (lineOf lines) hn
  refine ⟨t, (afterTicks_eq_afterLine lines s0).trans hrun, ?_, ?_, hfree.trans ?_⟩
  · rw [wireLevel_eq_framePin hP]
    exact hpin
  · rw [frameState_eq_frameStage hP]
    exact hstage
  · constructor
    · intro hq
      have hround := Nat.div_mul_le_self lines.length s.cfg.bitPeriod
      rw [hq] at hround
      omega
    · intro hlen
      rw [hlen, Nat.mul_div_cancel _ hP]

/-! A timed delay (41_transmit.md R134) -/

theorem iterate_afterMatch_delay {r : TransmitRegs} (hst : r.txState = .timedDelay) {q : Nat} (hq : q ≤ r.delay) :
    TransmitRegs.afterMatch^[q] r = { r with delay := r.delay - q } := by
  induction q with
  | zero => rfl
  | succ q ih =>
    have hleft : r.delay - q ≠ 0 := by omega
    rw [Function.iterate_succ_apply', ih (by omega)]
    simp [TransmitRegs.afterMatch, hst, hleft, Nat.sub_sub]

/-- The match that finds the count at 0 frees the engine. -/
theorem iterate_afterMatch_delay_done {r : TransmitRegs} (hst : r.txState = .timedDelay) :
    TransmitRegs.afterMatch^[r.delay + 1] r =
      { r with delay := 0, sendReady := true, txState := .idle, txIe := false } := by
  rw [Function.iterate_succ_apply', iterate_afterMatch_delay hst le_rfl]
  simp [TransmitRegs.afterMatch, hst]

/-- The state an ALARM or a DELAY leaves on an idle engine, as far as its engine and its readiness go. -/
theorem ready_of_alarm {s s0 : State} {i : Instr} {ms : Half} (hs : Ready s) (hi : i = .alarm ms ∨ i = .delay ms)
    (hready : s.sendReady = true) (hfits : alarmOverflows s.cfg ms = false) (h : exec i s = .next s0) :
    Ready s0 ∧ s0.cfg = s.cfg ∧ s0.tcnt = s.tcnt ∧ s0.transmit = (s.armAlarm ms).transmit := by
  have hinv : Invariant s0 := by
    refine invariant_exec_of_command_or_tick hs.invariant (.inl ?_) h
    obtain rfl | rfl := hi <;> rfl
  obtain rfl | rfl := hi
  · obtain rfl := Host.Outcome.next.inj ((alarm_arms hs.initialized hfits hready).2.symm.trans h)
    exact ⟨⟨hinv, hs.initialized, hs.settled⟩, rfl, rfl, rfl⟩
  · obtain rfl := Host.Outcome.next.inj ((delay_arms hs.initialized hfits hready).2.symm.trans h)
    exact ⟨⟨hinv, hs.initialized, hs.settled⟩, rfl, rfl, rfl⟩

/-- The TICKs to the first match of an alarm's compare value: the remainder, or a whole round. -/
def firstMatch (P rest : Nat) : Nat := if rest = 0 then P else rest

theorem firstMatch_range {P rest : Nat} (hP : 0 < P) (hrest : rest < P) :
    1 ≤ firstMatch P rest ∧ firstMatch P rest ≤ P := by
  unfold firstMatch
  split <;> omega

theorem add_firstMatch_mod (a P rest : Nat) : (a + firstMatch P rest) % P = (a + rest) % P := by
  unfold firstMatch
  split
  · simp [*]
  · rfl

/-- An alarm's count and its first match make its duration (41_transmit.md R134). -/
theorem alarm_total (D P : Nat) :
    (if D % P = 0 then D + P else D) = D / P * P + firstMatch P (D % P) := by
  have hdiv := Nat.div_add_mod' D P
  unfold firstMatch
  split <;> omega

/-- The matches within an alarm's duration: one more than its count, at its end. -/
theorem matchCount_alarm {P d W n : Nat} (hd : 1 ≤ d) (hdP : d ≤ P) (hn : n ≤ W * P + d) :
    matchCount P d n ≤ W + 1 ∧ (matchCount P d n = W + 1 ↔ n = W * P + d) := by
  have hP : 0 < P := by omega
  have hle : matchCount P d n ≤ W + 1 := by
    rw [matchCount, ← Nat.lt_succ_iff, Nat.div_lt_iff_lt_mul hP, Nat.succ_mul, Nat.succ_mul]
    omega
  refine ⟨hle, fun heq => ?_, fun heq => ?_⟩
  · have hmul := Nat.div_mul_le_self (n + (P - d)) P
    change matchCount P d n * P ≤ _ at hmul
    rw [heq, Nat.succ_mul] at hmul
    omega
  · have hround : n + (P - d) = (W + 1) * P := by
      rw [Nat.succ_mul]
      omega
    rw [matchCount, hround, Nat.mul_div_cancel _ hP]

/-- Settles O28: the count falls by one at each match and the match after 0 frees the engine
(`iterate_afterMatch_delay_done`), which is the last TICK of the duration (`matchCount_alarm`). -/
theorem alarmLastsItsTicks : Obligations.AlarmLastsItsTicks := by
  intro s s0 ms i D total lines hi hD htotal hinv hinit hset hready hlt h hn
  subst hD
  have hs : Ready s := ⟨hinv, hinit, hset⟩
  have hP := bitPeriod_of_ready hs
  obtain ⟨hs0, hcfg, htcnt, htransmit⟩ := ready_of_alarm hs hi hready (not_alarmOverflows_of_lt hlt) h
  have hst : s0.transmit.txState = .timedDelay := by rw [htransmit]; rfl
  have hdelay : s0.transmit.delay = alarmWhole s.cfg ms := by rw [htransmit]; rfl
  obtain ⟨hd, hdP⟩ := firstMatch_range (P := s.cfg.bitPeriod) (rest := alarmRem s.cfg ms) (by omega)
    (Nat.mod_lt _ (by omega))
  have hocr : s0.ocrTx = (s.tcnt + firstMatch s.cfg.bitPeriod (alarmRem s.cfg ms)) % s.cfg.bitPeriod := by
    rw [add_firstMatch_mod]
    exact congrArg TransmitRegs.ocrTx htransmit
  rw [htotal, alarm_total] at hn ⊢
  change lines.length ≤ alarmWhole s.cfg ms * s.cfg.bitPeriod + firstMatch s.cfg.bitPeriod (alarmRem s.cfg ms) at hn
  obtain ⟨hle, hlast⟩ := matchCount_alarm hd hdP hn
  obtain ⟨t, hrun, -, ht⟩ := transmit_run hs0 (K := alarmWhole s.cfg ms + 1) hd (hcfg ▸ hdP) (by rw [hocr, hcfg, htcnt])
    (fun q hq => by rw [iterate_afterMatch_delay hst (by omega), htransmit]; rfl) (lineOf lines) (n := lines.length)
    (hcfg ▸ hle)
  refine ⟨t, (afterTicks_eq_afterLine lines s0).trans hrun, ?_⟩
  rw [hcfg] at ht
  change t.transmit.txd = s.txd ∧ (t.transmit.sendReady = true ↔
    lines.length = alarmWhole s.cfg ms * s.cfg.bitPeriod + firstMatch s.cfg.bitPeriod (alarmRem s.cfg ms))
  rw [← hlast, ht]
  obtain hfew | heq := Nat.lt_or_eq_of_le hle
  · rw [iterate_afterMatch_delay hst (by omega), htransmit]
    exact ⟨rfl, iff_of_false nofun hfew.ne⟩
  · rw [heq, ← hdelay, iterate_afterMatch_delay_done hst, htransmit]
    exact ⟨rfl, iff_of_true rfl rfl⟩

end Sys2Proof.Machine
end

section
/-! The receive group over a run: no commit while no edge comes, the samples after an edge, the commit, a sender of
another bit period, and the loopback round trip (42_receive.md R150 to R168, 70_reset_and_hazards.md R236). -/

namespace Sys2Proof.Machine
open Sys2Proof Sys2Proof.Safety

/-! The buffer within the receive group -/

/-- The two groups have the same buffer: nothing has been committed or taken. -/
def ReceiveRegs.SameBuffer (r r' : ReceiveRegs) : Prop :=
  r'.available = r.available ∧ r'.recvByte = r.recvByte ∧ r'.rxBuf = r.rxBuf ∧ r'.rxHead = r.rxHead ∧
  r'.rxTail = r.rxTail

theorem sameBuffer_iff (s t : State) : SameBuffer s t ↔ s.receive.SameBuffer t.receive := Iff.rfl

theorem oneCommit_iff (s t : State) (v : Byte) :
    OneCommit s v t ↔ (({ s.receive with recvShift := v } : ReceiveRegs).committed s.cfg).SameBuffer t.receive := by
  unfold OneCommit ReceiveRegs.committed
  cases s.cfg.rxMode with
  | unbuffered => rfl
  | buffered =>
    simp only [SameBuffer, ReceiveRegs.SameBuffer, State.bufPush_rxTail, State.bufPush_available,
      State.bufPush_recvByte, State.bufPush_rxBuf, State.bufPush_rxHead]
    rfl

/-! Waiting for an edge -/

theorem awaits_edge_iff {s : State} (hs : Ready s) : s.edgeIe = true ↔ s.rxIe = false := by
  obtain ⟨-, -, -, ⟨-, -, -, hen, -⟩, -⟩ := (invariant_iff_of_initialized hs.initialized).mp hs.invariant
  exact hen

theorem waitStart_of_edgeIe {s : State} (hs : Ready s) (hedge : s.edgeIe = true) : s.rxState = .waitStart := by
  obtain ⟨-, -, -, ⟨-, -, -, -, hst, -⟩, -⟩ := (invariant_iff_of_initialized hs.initialized).mp hs.invariant
  exact hst hedge

/-- Without a falling edge a block that awaits one stays as it is. -/
theorem receive_of_no_edge {s t : State} {line : Bit} (hs : Ready s) (hedge : s.edgeIe = true) (ht : Ticked line s t)
    (hno : ¬ (s.rxCur = 1#1 ∧ line = 0#1)) : t.receive = s.receive := by
  have hrx : s.receive.rxIe = false := (awaits_edge_iff hs).mp hedge
  rw [ht.receive, ReceiveRegs.ticked, if_neg (fun h => hno h.2), if_neg (fun h => by simp [hrx] at h)]

theorem receive_of_edge {s t : State} {line : Bit} (hedge : s.edgeIe = true) (ht : Ticked line s t)
    (hcur : s.rxCur = 1#1) (hline : line = 0#1) : t.receive = s.receive.afterEdge s.cfg t.tcnt := by
  rw [ht.receive, ReceiveRegs.ticked, if_pos ⟨hedge, hcur, hline⟩]

/-- On a high line nothing is received. -/
theorem receive_high_line {s : State} (hs : Ready s) (hedge : s.edgeIe = true) {f : Nat → Bit} {n : Nat}
    (hhigh : ∀ k, k < n → f k = 1#1) :
    ∃ t, afterLine f n s = .next t ∧ Ran f s n t ∧ t.receive = s.receive := by
  refine (afterLine_induction hs f (fun m u => m ≤ n → u.receive = s.receive) (fun _ => rfl) ?_ n).imp
    fun t ⟨hrun, hran, ht⟩ => ⟨hrun, hran, ht le_rfl⟩
  intro m u t hu hR ht hm
  have hu' := hR (by omega)
  have hedge' : u.edgeIe = true := (congrArg ReceiveRegs.edgeIe hu').trans hedge
  refine (receive_of_no_edge hu.ready hedge' ht ?_).trans hu'
  rintro ⟨-, hlow⟩
  simp [hhigh m (by omega)] at hlow

/-! After an edge -/

/-- The receive group after `q` matches of its channel, the `k`-th of them sampling `sample k`. -/
def receiveStage (c : Params) (sample : Nat → Bit) (r : ReceiveRegs) : Nat → ReceiveRegs
  | 0 => r
  | q + 1 => (receiveStage c sample r q).afterMatch c (sample q)

/-- The same group but for the engine's state, count and shift register: the channel stays armed and nothing is
committed. -/
def Receiving (r r' : ReceiveRegs) : Prop :=
  ∃ st bits shift, r' = { r with rxState := st, recvBits := bits, recvShift := shift }

theorem Receiving.sameBuffer {r r' : ReceiveRegs} (h : Receiving r r') : r.SameBuffer r' := by
  obtain ⟨st, bits, shift, rfl⟩ := h
  exact ⟨rfl, rfl, rfl, rfl, rfl⟩

/-- While the channel stays armed, the receive group is moved by the matches alone, each taking the line value of its
TICK (42_receive.md R151). -/
theorem receive_run {s : State} (hs : Ready s) (hrx : s.rxIe = true) {d K : Nat} (hd : 1 ≤ d)
    (hdP : d ≤ s.cfg.bitPeriod) (hocr : s.ocrRx = (s.tcnt + d) % s.cfg.bitPeriod) {f sample : Nat → Bit}
    (hsample : ∀ q, sample q = f (d - 1 + q * s.cfg.bitPeriod))
    (harmed : ∀ q, q < K → Receiving s.receive (receiveStage s.cfg sample s.receive q)) {n : Nat}
    (hn : ∀ m, m < n → matchCount s.cfg.bitPeriod d m < K) :
    ∃ t, afterLine f n s = .next t ∧ Ran f s n t ∧
      t.receive = receiveStage s.cfg sample s.receive (matchCount s.cfg.bitPeriod d n) := by
  refine (afterLine_induction hs f (fun m u => m ≤ n →
    u.receive = receiveStage s.cfg sample s.receive (matchCount s.cfg.bitPeriod d m)) ?zero ?succ n).imp
    fun t ⟨hrun, hran, ht⟩ => ⟨hrun, hran, ht le_rfl⟩
  case zero =>
    rw [matchCount_zero hd hdP]
    exact fun _ => rfl
  intro m u t hu hR ht hm
  have hu' := hR (by omega)
  obtain ⟨st, bits, shift, hstage⟩ := harmed _ (hn m (by omega))
  rw [← hu'] at hstage
  have hon : u.receive.rxIe = true := by
    rw [hstage]
    exact hrx
  have hoff : u.receive.edgeIe ≠ true := by
    have hedge := awaits_edge_iff hs
    rw [hstage]
    change s.edgeIe ≠ true
    simp [hedge, hrx]
  have hmeets : t.tcnt = u.receive.ocrRx ↔ s.cfg.bitPeriod ∣ m + 1 + (s.cfg.bitPeriod - d) := by
    rw [hstage, tcnt_after hu ht, ← meets_iff hdP, ← hocr]
    rfl
  rw [ht.receive, ReceiveRegs.ticked, if_neg (fun h => hoff h.1), matchCount_succ]
  by_cases hmatch : s.cfg.bitPeriod ∣ m + 1 + (s.cfg.bitPeriod - d)
  · rw [if_pos ⟨hon, hmeets.mpr hmatch⟩, if_pos hmatch, receiveStage, hsample, ← tick_of_match hd hdP hmatch, hu',
      hu.cfg]
  · rw [if_neg (fun h => hmatch (hmeets.mp h.2)), if_neg hmatch, hu', Nat.add_zero]

/-! The stages of one character -/

/-- The shift register after `k` data bits, the line's levels at the matches 1 to `k` (42_receive.md R154). -/
def shiftSamples (sample : Nat → Bit) (v : Byte) : Nat → Byte
  | 0 => v
  | k + 1 => shiftIn (sample (k + 1)) (shiftSamples sample v k)

theorem toNat_append_eq {m n : Nat} (x : BitVec m) (y : BitVec n) : (x ++ y).toNat = x.toNat * 2 ^ n + y.toNat := by
  rw [BitVec.toNat_append, ← Nat.shiftLeft_add_eq_or_of_lt y.isLt, Nat.shiftLeft_eq]

theorem shiftIn_toNat (x : Bit) (v : Byte) : (shiftIn x v).toNat = x.toNat * 128 + v.toNat / 2 := by
  have hv : v.toNat < 256 := v.isLt
  rw [shiftIn, toNat_append_eq, BitVec.extractLsb'_toNat, Nat.shiftRight_eq_div_pow]
  omega

theorem byteOfBits_toNat (f : Nat → Bit) :
    (byteOfBits f).toNat = (f 0).toNat + 2 * (f 1).toNat + 4 * (f 2).toNat + 8 * (f 3).toNat + 16 * (f 4).toNat +
      32 * (f 5).toNat + 64 * (f 6).toNat + 128 * (f 7).toNat := by
  simp only [byteOfBits, toNat_append_eq]
  omega

/-- Eight samples fill the byte, the first in bit 0. -/
theorem shiftSamples_eight (sample : Nat → Bit) (v : Byte) :
    shiftSamples sample v 8 = byteOfBits (fun k => sample (k + 1)) := by
  apply BitVec.eq_of_toNat_eq
  simp only [shiftSamples, shiftIn_toNat, byteOfBits_toNat]
  omega

theorem receiveStage_dataBits (c : Params) (sample : Nat → Bit) {r : ReceiveRegs} (hst : r.rxState = .waitStart)
    {k : Nat} (hk : k ≤ 7) :
    receiveStage c sample r (k + 1) =
      { r with
        rxState := .dataBits, recvBits := BitVec.ofNat 4 (8 - k),
        recvShift := shiftSamples sample r.recvShift k } := by
  induction k with
  | zero => simp [receiveStage, ReceiveRegs.afterMatch, hst, shiftSamples]
  | succ k ih =>
    have hcount : BitVec.ofNat 4 (8 - k) - 1#4 = BitVec.ofNat 4 (8 - (k + 1)) ∧ BitVec.ofNat 4 (8 - k) ≠ 1#4 := by
      have hlt : k ≤ 6 := by omega
      interval_cases k <;> decide
    rw [receiveStage, ih (by omega)]
    simp [ReceiveRegs.afterMatch, hcount, shiftSamples]

/-- The byte of the eight samples, the stop bit being awaited. -/
def stopAwaited (sample : Nat → Bit) (r : ReceiveRegs) : ReceiveRegs :=
  { r with rxState := .waitStopHigh, recvBits := 0#4, recvShift := byteOfBits (fun k => sample (k + 1)) }

/-- A low stop sample changes nothing (42_receive.md R156). -/
theorem receiveStage_stop (c : Params) (sample : Nat → Bit) {r : ReceiveRegs} (hst : r.rxState = .waitStart) {j : Nat}
    (hj : 9 ≤ j) (hlow : ∀ m, 9 ≤ m → m < j → sample m = 0#1) :
    receiveStage c sample r j = stopAwaited sample r := by
  induction j, hj using Nat.le_induction with
  | base =>
    rw [receiveStage, receiveStage_dataBits c sample hst le_rfl, stopAwaited, ← shiftSamples_eight sample r.recvShift]
    simp [ReceiveRegs.afterMatch, shiftSamples]
  | succ j hj ih =>
    rw [receiveStage, ih fun m hm hmj => hlow m hm (by omega)]
    simp [ReceiveRegs.afterMatch, stopAwaited, hlow j hj (Nat.lt_succ_self j)]

/-- A high stop sample commits the byte, and the next edge is awaited (42_receive.md R155). -/
theorem receiveStage_commit (c : Params) (sample : Nat → Bit) {r : ReceiveRegs} (hst : r.rxState = .waitStart) {j : Nat}
    (hj : 9 ≤ j) (hlow : ∀ m, 9 ≤ m → m < j → sample m = 0#1) (hhigh : sample j = 1#1) :
    receiveStage c sample r (j + 1) =
      { (stopAwaited sample r).committed c with rxState := .waitStart, rxIe := false, edgeIe := true } := by
  rw [receiveStage, receiveStage_stop c sample hst hj hlow]
  simp [ReceiveRegs.afterMatch, stopAwaited, hhigh]

/-- Up to the first high stop sample nothing is committed. -/
theorem receiving_receiveStage (c : Params) (sample : Nat → Bit) {r : ReceiveRegs} (hst : r.rxState = .waitStart)
    {j q : Nat} (hlow : ∀ m, 9 ≤ m → m < j → sample m = 0#1) (hq : q ≤ 9 ∨ q ≤ j) :
    Receiving r (receiveStage c sample r q) := by
  obtain hq9 | hq9 := Nat.lt_or_ge q 9
  · obtain rfl | hpos := Nat.eq_zero_or_pos q
    · exact ⟨r.rxState, r.recvBits, r.recvShift, rfl⟩
    · obtain ⟨k, rfl⟩ := Nat.exists_eq_add_of_le' hpos
      exact ⟨_, _, _, receiveStage_dataBits c sample hst (by omega)⟩
  · exact ⟨_, _, _, receiveStage_stop c sample hst hq9 fun m hm hmq => hlow m hm (by omega)⟩

/-! From an edge to its commit -/

/-- The line value at the `q`-th sample after an edge at TICK 0. -/
def edgeSample (c : Params) (f : Nat → Bit) (q : Nat) : Bit := f (c.halfBit + q * c.bitPeriod)

theorem halfBit_range {c : Params} (hP : 2 ≤ c.bitPeriod) : 1 ≤ c.halfBit ∧ c.halfBit + 1 ≤ c.bitPeriod := by
  unfold Params.halfBit
  omega

/-- From an edge on, the receive group is in the stage of its matches, as long as the one before the last has committed
nothing. -/
theorem receive_after_edge {s : State} (hs : Ready s) (hedge : s.edgeIe = true) (hcur : s.rxCur = 1#1) {f : Nat → Bit}
    (hf : f 0 = 0#1) {j : Nat} (hlow : ∀ m, 9 ≤ m → m < j → edgeSample s.cfg f m = 0#1) {n : Nat}
    (hn : ∀ m, m < n → matchCount s.cfg.bitPeriod s.cfg.halfBit m ≤ max 9 j) :
    ∃ t, afterLine f (n + 1) s = .next t ∧ Ready t ∧ t.cfg = s.cfg ∧ t.rxCur = f n ∧ ∃ tcnt,
      t.receive = receiveStage s.cfg (edgeSample s.cfg f) (s.receive.afterEdge s.cfg tcnt)
        (matchCount s.cfg.bitPeriod s.cfg.halfBit n) := by
  obtain ⟨hH, hHP⟩ := halfBit_range (bitPeriod_of_ready hs)
  obtain ⟨u, htick, hu⟩ := afterTick_ticked hs (f 0)
  have hreceive := receive_of_edge hedge hu hcur hf
  have hst : u.receive.rxState = .waitStart := by
    rw [hreceive]
    exact waitStart_of_edgeIe hs hedge
  have hrx : u.rxIe = true := congrArg ReceiveRegs.rxIe hreceive
  have hocr : u.ocrRx = (u.tcnt + u.cfg.halfBit) % u.cfg.bitPeriod := by
    rw [hu.cfg]
    exact congrArg ReceiveRegs.ocrRx hreceive
  have hsample (q : Nat) : edgeSample s.cfg f q = f (1 + (s.cfg.halfBit - 1 + q * s.cfg.bitPeriod)) := by
    rw [edgeSample]
    congr 1
    omega
  rw [← hu.cfg] at hH hHP hsample hlow hn ⊢
  obtain ⟨t, hrun, hran, ht⟩ := receive_run hu.ready hrx (K := max 9 j + 1) hH (by omega) hocr
    (f := fun k => f (1 + k)) hsample
    (fun q hq => receiving_receiveStage _ _ hst hlow (by omega)) fun m hm => Nat.lt_succ_of_le (hn m hm)
  refine ⟨t, ?_, hran.ready, hran.cfg, ?_, u.tcnt, ?_⟩
  · have hfirst : afterLine f 1 s = .next u := by
      rw [afterLine_succ]
      exact htick
    rw [Nat.add_comm n 1, afterLine_add, hfirst, andThen_next, hrun]
  · rw [hran.rxCur]
    split
    · rw [hu.rxCur, ‹n = 0›]
    · congr 1
      omega
  · rw [ht, hreceive, hu.cfg]

theorem matchCount_lt_succ_iff {P d n q : Nat} (hP : 0 < P) (hdP : d ≤ P) :
    matchCount P d n < q + 1 ↔ n < d + q * P := by
  rw [matchCount, Nat.div_lt_iff_lt_mul hP, Nat.succ_mul]
  omega

theorem matchCount_at_match {P d q : Nat} (hP : 0 < P) (hdP : d ≤ P) : matchCount P d (d + q * P) = q + 1 := by
  have hround : d + q * P + (P - d) = (q + 1) * P := by
    rw [Nat.succ_mul]
    omega
  rw [matchCount, hround, Nat.mul_div_cancel _ hP]

section
variable {s : State} (hs : Ready s) (hedge : s.edgeIe = true) (hcur : s.rxCur = 1#1) {f : Nat → Bit}
  (hf : f 0 = 0#1) {j : Nat} (hlow : ∀ m, 9 ≤ m → m < j → edgeSample s.cfg f m = 0#1)
include hs hedge hcur hf hlow

/-- No commit before the first high stop sample, which is the ninth or a later one. -/
theorem uncommitted_after_edge {n : Nat} (hn : n ≤ s.cfg.halfBit + max 9 j * s.cfg.bitPeriod) :
    ∃ t, afterLine f n s = .next t ∧ SameBuffer s t := by
  obtain ⟨-, hHP⟩ := halfBit_range (bitPeriod_of_ready hs)
  have hcount {m : Nat} (hm : m < n) : matchCount s.cfg.bitPeriod s.cfg.halfBit m ≤ max 9 j :=
    Nat.le_of_lt_succ ((matchCount_lt_succ_iff (by omega) (by omega)).mpr (by omega))
  cases n with
  | zero => exact ⟨s, rfl, rfl, rfl, rfl, rfl, rfl⟩
  | succ n =>
    obtain ⟨t, hrun, -, -, -, tcnt, ht⟩ :=
      receive_after_edge hs hedge hcur hf hlow (n := n) fun m hm => hcount (by omega)
    have hst : (s.receive.afterEdge s.cfg tcnt).rxState = .waitStart := waitStart_of_edgeIe hs hedge
    have hlast := hcount (Nat.lt_succ_self n)
    have hsame := (receiving_receiveStage s.cfg (edgeSample s.cfg f) hst hlow
      (q := matchCount s.cfg.bitPeriod s.cfg.halfBit n) (by omega)).sameBuffer
    rw [← ht] at hsame
    exact ⟨t, hrun, hsame⟩

/-- The first high stop sample commits the byte of the eight data samples. -/
theorem commit_after_edge (hj : 9 ≤ j) (hhigh : edgeSample s.cfg f j = 1#1) :
    ∃ t, afterLine f (s.cfg.halfBit + j * s.cfg.bitPeriod + 1) s = .next t ∧ Ready t ∧ t.rxCur = 1#1 ∧
      t.rxState = .waitStart ∧ t.edgeIe = true ∧ t.rxIe = false ∧
      OneCommit s (byteOfBits fun k => edgeSample s.cfg f (k + 1)) t := by
  obtain ⟨-, hHP⟩ := halfBit_range (bitPeriod_of_ready hs)
  obtain ⟨t, hrun, hready, -, hlast, tcnt, ht⟩ := receive_after_edge hs hedge hcur hf hlow
    (n := s.cfg.halfBit + j * s.cfg.bitPeriod) fun m hm =>
      (Nat.le_of_lt_succ ((matchCount_lt_succ_iff (by omega) (by omega)).mpr hm)).trans (le_max_right 9 j)
  have hst : (s.receive.afterEdge s.cfg tcnt).rxState = .waitStart := waitStart_of_edgeIe hs hedge
  rw [matchCount_at_match (by omega) (by omega), receiveStage_commit s.cfg _ hst hj hlow hhigh] at ht
  refine ⟨t, hrun, hready, hlast.trans hhigh, congrArg ReceiveRegs.rxState ht, congrArg ReceiveRegs.edgeIe ht,
    congrArg ReceiveRegs.rxIe ht, ?_⟩
  rw [oneCommit_iff, ht]
  unfold ReceiveRegs.committed
  cases s.cfg.rxMode <;> exact ⟨rfl, rfl, rfl, rfl, rfl⟩

end

/-- Settles O44: each TICK leaves the wait for an edge as it is, or is the edge, after which the first stop sample is
`9P + H` TICKs away (`uncommitted_after_edge`). -/
theorem noCommitWithin9PPlusHTicks : Obligations.NoCommitWithin9PPlusHTicks := by
  intro s lines hinv hinit hset hedge hn
  have hs : Ready s := ⟨hinv, hinit, hset⟩
  clear hinv hinit hset
  induction lines generalizing s with
  | nil => exact ⟨s, rfl, rfl, rfl, rfl, rfl, rfl⟩
  | cons line rest ih =>
    by_cases hfall : s.rxCur = 1#1 ∧ line = 0#1
    · rw [afterTicks_eq_afterLine]
      refine uncommitted_after_edge hs hedge hfall.1 (f := lineOf (line :: rest)) (j := 9) hfall.2
        (fun m hm hm9 => absurd hm9 (by omega)) ?_
      rw [Nat.max_self]
      omega
    · obtain ⟨u, htick, hu⟩ := afterTick_ticked hs line
      have hreceive := receive_of_no_edge hs hedge hu hfall
      obtain ⟨t, hrun, hsame⟩ := ih u ((congrArg ReceiveRegs.edgeIe hreceive).trans hedge)
        (by rw [hu.cfg]; exact (Nat.le_succ _).trans hn) hu.ready
      refine ⟨t, ?_, ?_⟩
      · rw [afterTicks, htick, andThen_next, hrun]
      · rw [sameBuffer_iff, hreceive] at hsame
        exact hsame

/-- Settles O41: the samples after the edge are the line at the bit centres (`edgeSample`); nothing is committed before
the first high stop sample, which commits their byte. -/
theorem receiverSamplesBitCentres : Obligations.ReceiverSamplesBitCentres := by
  rintro s lines P H j rfl rfl hinv hinit hset hedge hcur hj hlen hfirst hlow hhigh
  have hs : Ready s := ⟨hinv, hinit, hset⟩
  have hline {n : Nat} {x : Bit} (h : lines[n]? = some x) : lineOf lines n = x := by
    rw [lineOf, h, Option.getD_some]
  have hlow' (m : Nat) (hm : 9 ≤ m) (hmj : m < j) : edgeSample s.cfg (lineOf lines) m = 0#1 := hline (hlow m hm hmj)
  refine ⟨?_, fun n hn => ?_⟩
  · obtain ⟨t, hrun, -, -, hst, hedge', hrx, hcommit⟩ :=
      commit_after_edge hs hedge hcur (hline hfirst) hlow' hj (hline hhigh)
    exact ⟨t, by rw [afterTicks_eq_afterLine, hlen, hrun], hst, hedge', hrx, hcommit⟩
  · rw [afterTicks_take hn.le]
    refine uncommitted_after_edge hs hedge hcur (hline hfirst) hlow' ?_
    rw [Nat.max_eq_right hj]
    omega

/-! A sender of another bit period -/

theorem byteOfBits_congr {f g : Nat → Bit} (h : ∀ k, k < 8 → f k = g k) : byteOfBits f = byteOfBits g := by
  simp [byteOfBits, h]

/-- A byte is made of its bits. -/
theorem byteOfBits_bitAt (b : Byte) : byteOfBits (bitAt b) = b := by
  apply BitVec.eq_of_toNat_eq
  have hb : b.toNat < 256 := b.isLt
  simp only [byteOfBits_toNat, bitAt, BitVec.extractLsb'_toNat, Nat.shiftRight_eq_div_pow]
  omega

/-- Where the sample of bit `k` falls in the sender's bit `k` (70_reset_and_hazards.md R236). -/
theorem senderLevel_dataBit {Q n k : Nat} (b : Byte) (hk : k < 8) (hlo : (k + 1) * Q ≤ n) (hhi : n < (k + 2) * Q) :
    senderLevel Q b n = bitAt b k := by
  have hdiv : n / Q = k + 1 := Nat.div_eq_of_lt_le hlo hhi
  have hstart : ¬ n < Q := Nat.not_lt_of_le ((Nat.le_mul_of_pos_left Q (Nat.succ_pos k)).trans hlo)
  have hdata : n < 9 * Q := hhi.trans_le (Nat.mul_le_mul_right Q (by omega))
  rw [senderLevel, if_neg hstart, if_pos hdata, hdiv, Nat.add_sub_cancel]

theorem senderLevel_stop {Q n : Nat} (b : Byte) (h : 9 * Q ≤ n) : senderLevel Q b n = 1#1 := by
  rw [senderLevel, if_neg (by omega), if_neg (by omega)]

/-- Settles O42: each sample falls in the sender's bit of its number, and the ninth in its stop bit. -/
theorem senderWithinToleranceIsReceived : Obligations.SenderWithinToleranceIsReceived := by
  rintro s b P H Q rfl rfl hinv hinit hset hedge hcur hQ
  have hs : Ready s := ⟨hinv, hinit, hset⟩
  have hfirst : senderLevel Q b 0 = 0#1 := by
    obtain ⟨-, hpos⟩ := hQ 0 (by omega)
    exact if_pos (by omega)
  have hstop : edgeSample s.cfg (senderLevel Q b) 9 = 1#1 := senderLevel_stop b (hQ 8 le_rfl).1
  obtain ⟨t, hrun, -, -, -, -, -, hcommit⟩ :=
    commit_after_edge hs hedge hcur hfirst (fun m hm hm9 => absurd hm9 (by omega)) le_rfl hstop
  have hbyte : byteOfBits (fun k => edgeSample s.cfg (senderLevel Q b) (k + 1)) = b := by
    refine (byteOfBits_congr fun k hk => ?_).trans (byteOfBits_bitAt b)
    obtain ⟨hlo, hhi⟩ := hQ k (by omega)
    exact senderLevel_dataBit b hk hlo hhi
  exact ⟨t, hrun, hbyte ▸ hcommit⟩

/-! The loopback round trip (42_receive.md R166) -/

theorem afterLoopbackTicks_succ (n : Nat) (s : State) :
    afterLoopbackTicks (n + 1) s = andThen (afterLoopbackTicks n s) (fun t => afterTick t.txd t) := by
  induction n generalizing s with
  | zero =>
    change andThen (afterTick s.txd s) .next = afterTick s.txd s
    cases afterTick s.txd s <;> rfl
  | succ n ih =>
    rw [afterLoopbackTicks, afterLoopbackTicks, andThen_assoc]
    congr 1
    funext u
    exact ih u

/-- In loopback the line is the frame that the engine sends (40_timer.md R110, 41_transmit.md R133). -/
theorem afterLoopbackTicks_eq {s s0 : State} {b : Byte} (hs : Ready s) (hready : s.sendReady = true)
    (h : exec (.send b) s = .next s0) {n : Nat} (hn : n ≤ 11 * s.cfg.bitPeriod) :
    afterLoopbackTicks n s0 = afterLine (wireLevel s.txd s.cfg.bitPeriod b) n s0 := by
  induction n with
  | zero => rfl
  | succ n ih =>
    obtain ⟨t, hrun, -, hpin, -⟩ :=
      frame_run hs hready h (wireLevel s.txd s.cfg.bitPeriod b) (n := n) (by omega)
    have hlevel : t.txd = wireLevel s.txd s.cfg.bitPeriod b n := by
      rw [wireLevel_eq_framePin (Nat.zero_lt_of_lt (bitPeriod_of_ready hs))]
      exact hpin
    rw [afterLoopbackTicks_succ, ih (by omega), afterLine_succ, hrun, andThen_next, andThen_next, hlevel]

theorem wireLevel_idle {P n : Nat} (idle : Bit) (b : Byte) (h : n < P) : wireLevel idle P b n = idle := if_pos h

theorem wireLevel_start {P : Nat} (hP : 0 < P) (idle : Bit) (b : Byte) : wireLevel idle P b P = 0#1 := by
  rw [wireLevel, if_neg (by omega), if_pos (by omega)]

theorem wireLevel_dataBit {P n k : Nat} (idle : Bit) (b : Byte) (hk : k < 8) (hlo : (k + 2) * P ≤ n)
    (hhi : n < (k + 3) * P) : wireLevel idle P b n = bitAt b k := by
  have hP : 0 < P := by
    rw [Nat.add_mul] at hhi hlo
    omega
  have hdiv : n / P = k + 2 := Nat.div_eq_of_lt_le hlo hhi
  rw [wireLevel_eq_framePin hP, hdiv, framePin, if_neg (by omega), if_neg (by omega), if_pos (by omega),
    Nat.add_sub_cancel]

theorem wireLevel_stop {P n : Nat} (idle : Bit) (b : Byte) (h : 10 * P ≤ n) : wireLevel idle P b n = 1#1 := by
  rw [wireLevel, if_neg (by omega), if_neg (by omega), if_neg (by omega)]

/-- The line of the block's own frame from its start bit on. -/
def frameLine (P : Nat) (b : Byte) (k : Nat) : Bit := wireLevel 1#1 P b (P + k)

theorem edgeSample_frameLine {c : Params} (hP : 2 ≤ c.bitPeriod) (b : Byte) :
    (∀ k, k < 8 → edgeSample c (frameLine c.bitPeriod b) (k + 1) = bitAt b k) ∧
    edgeSample c (frameLine c.bitPeriod b) 9 = 1#1 := by
  obtain ⟨hH, hHP⟩ := halfBit_range hP
  refine ⟨fun k hk => wireLevel_dataBit 1#1 b hk ?_ ?_, wireLevel_stop 1#1 b ?_⟩
  · rw [Nat.add_mul, Nat.add_mul]
    omega
  · rw [Nat.add_mul, Nat.add_mul]
    omega
  · omega

/-- From the start bit on, the receiver commits the byte at its ninth sample after the start bit's, and the high line
after it brings no other edge. -/
theorem receive_frameLine {s : State} (b : Byte) (hs : Ready s) (hedge : s.edgeIe = true) (hcur : s.rxCur = 1#1)
    (n : Nat) :
    ∃ t, afterLine (frameLine s.cfg.bitPeriod b) n s = .next t ∧
      (n ≤ s.cfg.halfBit + 9 * s.cfg.bitPeriod → SameBuffer s t) ∧
      (s.cfg.halfBit + 9 * s.cfg.bitPeriod + 1 ≤ n → OneCommit s b t) := by
  have hP := bitPeriod_of_ready hs
  obtain ⟨hdata, hstop⟩ := edgeSample_frameLine hP b
  have hfirst : frameLine s.cfg.bitPeriod b 0 = 0#1 := wireLevel_start (by omega) 1#1 b
  have hnone (m : Nat) (hm : 9 ≤ m) (hm9 : m < 9) : edgeSample s.cfg (frameLine s.cfg.bitPeriod b) m = 0#1 :=
    absurd hm9 (Nat.not_lt_of_le hm)
  obtain hbefore | hafter := le_or_gt n (s.cfg.halfBit + 9 * s.cfg.bitPeriod)
  · obtain ⟨t, hrun, hsame⟩ := uncommitted_after_edge hs hedge hcur hfirst hnone (n := n) (by rwa [Nat.max_self])
    exact ⟨t, hrun, fun _ => hsame, fun h => absurd h (by omega)⟩
  obtain ⟨u, hcommit, hu, -, -, hedgeU, -, hone⟩ := commit_after_edge hs hedge hcur hfirst hnone le_rfl hstop
  obtain ⟨m, rfl⟩ := Nat.exists_eq_add_of_le (Nat.succ_le_of_lt hafter)
  obtain ⟨t, hrun, -, ht⟩ := receive_high_line hu hedgeU (n := m)
    (f := fun k => frameLine s.cfg.bitPeriod b (s.cfg.halfBit + 9 * s.cfg.bitPeriod + 1 + k))
    fun k _ => wireLevel_stop 1#1 b (by omega)
  refine ⟨t, ?_, fun h => absurd h (by omega), fun _ => ?_⟩
  · rw [afterLine_add, hcommit, andThen_next, hrun]
  · rw [(byteOfBits_congr hdata).trans (byteOfBits_bitAt b), oneCommit_iff] at hone
    rwa [oneCommit_iff, ht]

/-- The receiver takes the byte of the block's own frame once: the line is high until the start bit, and
`receive_frameLine` says the rest. -/
theorem loopback_receive {s : State} (b : Byte) (hs : Ready s) (hedge : s.edgeIe = true) (n : Nat) :
    ∃ t, afterLine (wireLevel 1#1 s.cfg.bitPeriod b) n s = .next t ∧
      (n < s.cfg.bitPeriod + 1 + s.cfg.halfBit + 9 * s.cfg.bitPeriod → SameBuffer s t) ∧
      (s.cfg.bitPeriod + 1 + s.cfg.halfBit + 9 * s.cfg.bitPeriod ≤ n → OneCommit s b t) := by
  have hP := bitPeriod_of_ready hs
  have idle {m : Nat} (hm : m ≤ s.cfg.bitPeriod) := receive_high_line hs hedge (n := m)
    (f := wireLevel 1#1 s.cfg.bitPeriod b) fun k hk => wireLevel_idle 1#1 b (by omega)
  obtain hle | hgt := le_or_gt n s.cfg.bitPeriod
  · obtain ⟨t, hrun, -, ht⟩ := idle hle
    refine ⟨t, hrun, fun _ => ?_, fun h => absurd h (by omega)⟩
    rw [sameBuffer_iff, ht]
    exact ⟨rfl, rfl, rfl, rfl, rfl⟩
  obtain ⟨u, hidle, hu, hreceive⟩ := idle le_rfl
  have hcur : u.rxCur = 1#1 := by
    rw [hu.rxCur, if_neg (by omega)]
    exact wireLevel_idle 1#1 b (by omega)
  obtain ⟨m, rfl⟩ := Nat.exists_eq_add_of_le hgt.le
  obtain ⟨t, hrun, hbefore, hafter⟩ :=
    receive_frameLine b hu.ready ((congrArg ReceiveRegs.edgeIe hreceive).trans hedge) hcur m
  rw [oneCommit_iff, hreceive, hu.cfg] at hafter
  rw [sameBuffer_iff, hreceive, hu.cfg] at hbefore
  rw [hu.cfg] at hrun
  refine ⟨t, ?_, fun h => hbefore (by omega), fun h => (oneCommit_iff s t b).mpr (hafter (by omega))⟩
  rw [afterLine_add, hidle, andThen_next]
  exact hrun

/-- Settles O43: the line is the block's own frame (`afterLoopbackTicks_eq`), which its receiver takes once
(`loopback_receive`); SEND leaves the receive group alone. -/
theorem loopbackReturnsTheByteSent : Obligations.LoopbackReturnsTheByteSent := by
  rintro s s0 b n P rfl hinv hinit hset - hidle - hedge htxd - h hn
  have hs : Ready s := ⟨hinv, hinit, hset⟩
  have hready : s.sendReady = true := by
    obtain ⟨-, -, ⟨-, hfree, -⟩, -⟩ := (invariant_iff_of_initialized hinit).mp hinv
    exact hfree.mpr hidle
  obtain ⟨hs0, heq⟩ := ready_of_send hs hready h
  obtain ⟨hH, hHP⟩ := halfBit_range (bitPeriod_of_ready hs)
  refine ⟨by omega, ?_⟩
  rw [afterLoopbackTicks_eq hs hready h hn, htxd]
  subst heq
  obtain ⟨t, hrun, hbefore, hafter⟩ := loopback_receive b hs0 hedge n
  exact ⟨t, hrun, hbefore, fun hle =>
    (oneCommit_iff s t b).mpr ((oneCommit_iff (s.armFrame b).respondNothing t b).mp (hafter hle))⟩

end Sys2Proof.Machine
end
